-- ==== Sys2Proof/Word.lean ====
section
/-! DEFINITION. The word types of the block: 32-bit host words (R32) and DMEM bytes (R73). -/

namespace Sys2Proof

/-- A host word: the width of every host-visible register and of a command word (R32, R100). -/
abbrev Word := BitVec 32

/-- A DMEM byte (R70, R73). -/
abbrev Byte := BitVec 8

end Sys2Proof
end

