-- ==== Sys2Proof/Config.lean ====
section
/-! DEFINITION. What one implementation fixes and the spec leaves OPEN (R9, R10), and the free values (R16, R74, R79,
R282). Every constant here is opaque: nothing in Lean can compute it, so a statement about it holds for every value. -/

namespace Sys2Proof

/-- The parameter EXP_TAIL (R9, D9), as the EXPTAIL register of R40 shows it.
DEDUCED: it fits the 32-bit register that reads it (log 6). -/
opaque Config.expTail : Word

/-- How many 4-byte words DMEM holds beyond the 64 bytes R10 asks for at least. -/
opaque Config.dmemExtraWords : Nat

/-- The parameter DMEM_BYTES (R10, D19), as the DMEMSIZE register of R41 shows it: any multiple of 4 that is at least 64.
DEDUCED: it fits the 32-bit register that reads it, so it is at most 2^32 - 4 (log 6). -/
def Config.dmemBytes : Word :=
  BitVec.ofNat 32 (64 + 4 * (Config.dmemExtraWords % 1073741808))

/-- The draws of R16: `freeElem n x` is the value that draw number `n` gives the table entry or read `x` (log 4).
A read of the W = 8 context takes its low 8 bits. -/
opaque Config.freeElem : Nat → Nat → BitVec 16

/-- The draws of R74: `freeByte n a` is what draw number `n` reads at the DMEM address `a` that nothing has written (log 5). -/
opaque Config.freeByte : Nat → Nat → Byte

/-- The free choice between an old and a new byte at DMEM address `a` of R79 and R282, for draw number `n` (log 10, 11, 12). -/
opaque Config.freePick : Nat → Nat → Bool

end Sys2Proof
end

