-- ==== Sys2Proof/Syntax.lean ====
section
/-! DEFINITION. The commands of the block: one constructor of `Instr` per row of the opcode table (R105), and the
fields of a command word (R102, R103). -/

namespace Sys2Proof

/-- The field width W that the bit WSEL selects (R7, R102). -/
inductive Width where
  | w8
  | w16
  deriving DecidableEq, Repr

/-- W in bits (R7). -/
def Width.bits : Width → Nat
  | .w8 => 8
  | .w16 => 16

/-- The field size N = 2^W (R7). -/
def Width.order (w : Width) : Nat := 2 ^ w.bits

/-- The operation kinds of R103. -/
inductive Kind where
  | mul
  | divAByX
  | divXByA
  deriving DecidableEq, Repr

/-- The kinds that are linear in the operand, which the split and nibble tiers accept (R103, C2). -/
inductive LinKind where
  | mul
  | divXByA
  deriving DecidableEq, Repr

/-- The linear kind a kind is, or none for DIV_A_BY_X (R103, R190, R210). -/
def Kind.linear? : Kind → Option LinKind
  | .mul => some .mul
  | .divAByX => none
  | .divXByA => some .divXByA

/-- The vector lane width that the bit LANE selects (R11, R102). -/
inductive Lane where
  | l128
  | l256
  deriving DecidableEq, Repr

/-- E, the number of 16-bit elements of a chunk (R11, R77). -/
def Lane.elements : Lane → Nat
  | .l128 => 16
  | .l256 => 32

/-- The number of bytes of a chunk, 2·E (R77). -/
def Lane.bytes (l : Lane) : Nat := 2 * l.elements

/-- One command (R105). The operands of a command are not part of it: they stand in the latched operand registers (R100).
A `kind` of none is the reserved value 11 of the KIND field (R103). A `sel` is the whole SEL field, bits 15:12 of the word
(R102), of which SPL_RD uses bit 12 and NIB_RD bits 14:12. -/
inductive Instr where
  | init (w : Width)
  | expRd (w : Width)
  | idxRd (w : Width)
  | mul (w : Width)
  | div (w : Width)
  | mulz (w : Width)
  | divz (w : Width)
  | rtBuild (w : Width) (kind : Option Kind)
  | rtRd
  | rtRel
  | splBuild (w : Width) (kind : Option Kind)
  | splRd (sel : BitVec 4)
  | splLookup
  | splRel
  | nibBuild (w : Width) (kind : Option Kind)
  | nibRd (sel : BitVec 4)
  | nibRel
  | vlookup (lane : Lane)
  deriving DecidableEq, Repr

end Sys2Proof
end

