-- ==== Sys2Proof/Machine/State.lean ====
section
/-! DEFINITION. The state of the block (10_state.md): every register, flag, context, slot and memory the spec gives it,
the inputs of the coming steps, and the state after reset (R54). -/

namespace Sys2Proof.Machine

/-- The reasons a step can stop with a fault. The spec has none: a command that fails completes with an error code and the
engine goes on (R252, R255), so no constructor stands here. -/
inductive Fault where
  deriving DecidableEq, Repr

/-- The reasons the model refuses a step. -/
inductive Refusal where
  /-- An instruction without a meaning. Raised by an arm of exec that has none; here none is left. Safe: the model stops. -/
  | notModelled (mnemonic : String)
  /-- A host access outside what the spec defines (R76): a register access of a width other than 32 bits or at an offset
  that is no multiple of 4, or a DMEM access that is not naturally aligned or passes the end of DMEM. Raised by the host
  port (`State.hostRead`, `State.hostWrite`), by no command. Safe: the model stops where the spec says that a model
  refuses (U16). -/
  | undefinedHostAccess
  deriving DecidableEq, Repr

/-- The error codes of R250, in the order of their numbers. -/
inductive ErrCode where
  | success
  | illegal
  | rsvd
  | kind
  | width
  | notReady
  | reinit
  | alloc
  | noTable
  | range
  | div0
  | align
  | bounds
  | construct
  deriving DecidableEq, Repr

/-- A built field context of width w (R43): the exponent table, whose length is EXP_LEN(W) (R9), and the index table with
one entry of w + 1 bits (R12) for each element. -/
structure FieldCtx (w : Nat) where
  exp : Array (BitVec w)
  idx : Vector (BitVec (w + 1)) (2 ^ w)
  deriving DecidableEq, Repr

/-- What the full region table slot holds while RT_V = 1 (R45). Of the 65536 entries of the slot only the first 2^RT_W are
part of the table (R48), and these are the ones held (log 17). -/
structure FullTable where
  width : Width
  kind : Kind
  coef : BitVec 16
  entries : Vector (BitVec 16) width.order
  deriving DecidableEq, Repr

/-- What the split table slot holds while SPL_V = 1 (R46). -/
structure SplitTable where
  kind : LinKind
  coef : BitVec 16
  lo : Vector (BitVec 16) 256
  hi : Vector (BitVec 16) 256
  deriving DecidableEq, Repr

/-- What the nibble table slot holds while NIB_V = 1 (R47): `nt` is the vector registers NT0 to NT7. -/
structure NibTable where
  kind : LinKind
  coef : BitVec 16
  nt : Vector (Vector Byte 16) 8
  deriving DecidableEq, Repr

/-- The width of a host access (R76). -/
inductive AccessSize where
  | b8
  | b16
  | b32
  deriving DecidableEq, Repr

/-- What the outside does to the block in one step: nothing, a host access at an offset from GF_BASE (R32, R71), or the
reset input (R280). -/
inductive HostEvent where
  | idle
  | read (size : AccessSize) (off : Nat)
  | write (size : AccessSize) (off : Nat) (value : Word)
  | reset
  deriving DecidableEq, Repr

/-- The inputs of one step: what the host port and the reset input do, and whether the running command, if there is one,
completes in this step (R50 leaves that open, R296). -/
structure Turn where
  event : HostEvent
  completes : Bool
  deriving DecidableEq, Repr

/-- The state of the block. -/
structure State where
  /-- CTRL.IRQ_EN (R34). -/
  irqEn : Bool
  /-- STATUS.BUSY (R35). -/
  busy : Bool
  /-- STATUS.DONE (R35). -/
  done : Bool
  /-- STATUS.ERRCODE (R35, R250). -/
  errcode : ErrCode
  /-- STATUS.OOB (R35, R16). -/
  oob : Bool
  /-- STATUS.OVR (R35, R51). -/
  ovr : Bool
  /-- LCMD, which a CMD read returns (R36, R49). -/
  lcmd : Word
  /-- LOPA, the latched first operand (R49). -/
  lopa : Word
  /-- LOPB (R49). -/
  lopb : Word
  /-- LOPC (R49). -/
  lopc : Word
  /-- OPA (R37). -/
  opa : Word
  /-- OPB (R37). -/
  opb : Word
  /-- OPC (R37). -/
  opc : Word
  /-- RESULT (R38). -/
  result : Word
  /-- EXPTAIL, the parameter EXP_TAIL (R9, R40). -/
  expTail : Word
  /-- DMEMSIZE, the parameter DMEM_BYTES (R10, R41). -/
  dmemSize : Word
  /-- The W = 8 context, present when READY_8 = 1 (R43). -/
  ctx8 : Option (FieldCtx 8)
  /-- The W = 16 context, present when READY_16 = 1 (R43). -/
  ctx16 : Option (FieldCtx 16)
  /-- The full region table slot, present when RT_V = 1 (R45). -/
  rt : Option FullTable
  /-- The split table slot, present when SPL_V = 1 (R46). -/
  spl : Option SplitTable
  /-- The nibble table slot, present when NIB_V = 1 (R47). -/
  nib : Option NibTable
  /-- DMEM: the bytes written since the last hardware reset (R73, R74). -/
  dmem : List Host.Cell
  /-- The input bytes a racing host write has touched, with the value the running VLOOKUP will read (R79, log 10). -/
  inView : List Host.Cell
  /-- The output addresses at which a racing host write outlives the running VLOOKUP (R79, log 10). -/
  outKeep : List Nat
  /-- The inputs of the coming steps, the next one first (log 1). -/
  turns : List Turn
  /-- What the host port answered to the last host read (log 9). -/
  readData : Word
  /-- The number of the next draw (log 4). -/
  draws : Nat
  deriving DecidableEq, Repr

/-- The state right after a hardware reset of a block with the given parameters (R54, R280). -/
def State.powerOn (expTail dmemSize : Word) : State where
  irqEn := false
  busy := false
  done := false
  errcode := .success
  oob := false
  ovr := false
  lcmd := 0#32
  lopa := 0#32
  lopb := 0#32
  lopc := 0#32
  opa := 0#32
  opb := 0#32
  opc := 0#32
  result := 0#32
  expTail := expTail
  dmemSize := dmemSize
  ctx8 := none
  ctx16 := none
  rt := none
  spl := none
  nib := none
  dmem := []
  inView := []
  outKeep := []
  turns := []
  readData := 0#32
  draws := 0

/-- The machine right after reset (R54), with the parameters of the implementation. -/
def State.reset : State := State.powerOn Config.expTail Config.dmemBytes

/-- The context of a width (R7, R43). -/
def State.ctx (s : State) : (w : Width) → Option (FieldCtx w.bits)
  | .w8 => s.ctx8
  | .w16 => s.ctx16

/-- The state with the context of one width built (R43, R130). -/
def State.setCtx (s : State) : (w : Width) → FieldCtx w.bits → State
  | .w8, c => { s with ctx8 := some c }
  | .w16, c => { s with ctx16 := some c }

end Sys2Proof.Machine
end

