-- ==== Sys2Proof/Machine/Ops.lean ====
section
/-! DEFINITION. The named operations over memory and registers: DMEM bytes (R73 to R75), accepting a command (R50),
completing it with success or with an error (R50, R252), acknowledging it (R256), and the next turn. -/

namespace Sys2Proof.Machine

/-- One byte of DMEM, if anything has written it since the hardware reset (R74). -/
def Memory.get? : List Host.Cell → Nat → Option Byte
  | [], _ => none
  | (k, b) :: m, a => if a = k then some b else Memory.get? m a

/-- Writing one byte. A byte that is written has that value, whichever it is: an address that is not listed reads as a
draw (R74), so every written byte stays listed. -/
def Memory.set : List Host.Cell → Nat → Byte → List Host.Cell
  | [], a, b => [(a, b)]
  | (k, c) :: m, a, b =>
    if a < k then (a, b) :: (k, c) :: m
    else if a = k then (a, b) :: m
    else (k, c) :: Memory.set m a b

/-- The canonical form of a memory: addresses strictly rising. -/
def Memory.wf : List Host.Cell → Bool
  | [] => true
  | (k, _) :: m => (m.all fun c => decide (k < c.1)) && Memory.wf m

/-- Writing bytes at rising addresses, the first at `a` (R75), but for the addresses in `keep`. -/
def Memory.writeFrom (keep : List Nat) : List Byte → Nat → List Host.Cell → List Host.Cell
  | [], _, m => m
  | b :: bs, a, m =>
    Memory.writeFrom keep bs (a + 1) (if a ∈ keep then m else Memory.set m a b)

/-- The n low bytes of a word, the least significant first (R75). -/
def bytesLE (n : Nat) (v : Word) : List Byte :=
  (List.range n).map fun k => v.extractLsb' (8 * k) 8

/-- The number whose bytes are the given ones, the least significant first (R75). -/
def ofBytesLE : List Byte → Nat
  | [] => 0
  | b :: bs => b.toNat + 256 * ofBytesLE bs

/-- A table with an entry for each index below n. -/
def tabulate {α : Type} (n : Nat) (f : Fin n → α) : Vector α n :=
  ⟨(List.ofFn f).toArray, by simp⟩

/-- `zext_32` of R13. -/
def zext32 {n : Nat} (v : BitVec n) : Word := v.setWidth 32

/-- The acceptance of a command word (R50): the word and the operands are latched, BUSY is set, DONE and ERRCODE are
cleared. No host access has raced the new command yet. -/
def State.accept (s : State) (c : Word) : State :=
  { s with
    lcmd := c, lopa := s.opa, lopb := s.opb, lopc := s.opc
    busy := true, done := false, errcode := .success
    inView := [], outKeep := [] }

/-- `complete(code)` of R50. -/
def State.complete (s : State) (code : ErrCode) : State :=
  { s with errcode := code, done := true, busy := false }

/-- `raise E_X` of R15: the command ends with its error code and no other effect (R252). This is the one way in which a
command reports an error; nothing is saved and nothing is jumped to (R255). -/
def State.raise (s : State) (e : ErrCode) : State := s.complete e

/-- `complete(0)` after the effects of a command. The draw number the command may have used is spent (log 4). -/
def State.succeed (s : State) : State :=
  { s with draws := s.draws + 1 }.complete .success

/-- The end of a successful command that produces a value (R38). -/
def State.answer (s : State) (v : Word) : State :=
  { s with result := v }.succeed

/-- The host's acknowledge of a completion (R256, R35): DONE and ERRCODE are cleared. -/
def State.acknowledge (s : State) : State :=
  { s with done := false, errcode := .success }

/-- The hardware reset (R280): every piece of state takes its reset value. The inputs to come and the last answer of the host
port are not the block's state and stay, and the draw number at which a VLOOKUP that is abandoned would have read is spent,
so that no later draw is one a racing read has already shown (R74, log 4, 11, 13). -/
def State.hardReset (s : State) : State :=
  { State.powerOn s.expTail s.dmemSize with
    turns := s.turns, readData := s.readData, draws := s.draws + 1 }

/-- The inputs of this step. When none are listed, the host is idle and a running command completes (log 1, 2). -/
def State.nextTurn (s : State) : Turn := s.turns.headD ⟨.idle, true⟩

/-- The state with the inputs of this step taken. -/
def State.popTurn (s : State) : State := { s with turns := s.turns.tail }

/-- The state in which the command word `c` has just been accepted and the next step completes it: what a host write of
`c` to CMD leads to, with no host access in between. -/
def State.stage (s : State) (c : Word) : State :=
  { s.accept c with turns := ⟨.idle, true⟩ :: s.turns }

end Sys2Proof.Machine
end

