-- ==== Sys2Proof/Machine/Field.lean ====
section
/-! DEFINITION. The field numerics (R17 to R19), the construction of a field context (R130 to R134), and reading its
tables (R15, R16, R171, R191). -/

namespace Sys2Proof.Machine

/-- The primitive polynomial P of a width (R8). -/
def Width.poly : Width → Nat
  | .w8 => 487
  | .w16 => 69643

/-- One doubling step: `t << 1`, reduced by P when it reaches N (R130, R18). -/
def xtimes (w : Width) (t : Nat) : Nat :=
  if w.order ≤ t <<< 1 then (t <<< 1) ^^^ Width.poly w else t <<< 1

/-- The first n values of the sequence t, f t, f (f t), … -/
def orbit (f : Nat → Nat) : Nat → Nat → List Nat
  | 0, _ => []
  | n + 1, t => t :: orbit f n (f t)

/-- E[0 .. N-2] of R130: the powers of the element 2 in generator order. -/
def powersOfX (w : Width) : List Nat := orbit (xtimes w) (w.order - 1) 1

/-- The sentinel Idx_W[0] = 2(N-1)-1 (R132, R135). -/
def sentinel (w : Width) : Nat := 2 * (w.order - 1) - 1

/-- EXP_LEN(W), the physical length of an exponent table (R9). -/
def expLen (w : Width) (tail : Nat) : Nat := 2 * (w.order - 1) + tail

/-- The loop of R130 with k rounds left, as far as the check of R134 goes: `t` is the value produced last and `seen` the set of
the values produced so far, bit v standing for the value v. It answers false where E_CONSTRUCT is raised. -/
def constructLoop (w : Width) : Nat → Nat → Nat → Bool
  | 0, _, _ => true
  | k + 1, t, seen =>
    if xtimes w t = 0 ∨ seen.testBit (xtimes w t) = true then false
    else constructLoop w k (xtimes w t) (seen ||| 1 <<< xtimes w t)

/-- The construction check of INIT (R130, R134): N-2 rounds from the value 1. -/
def constructOk (w : Width) : Bool := constructLoop w (w.order - 2) 1 (1 <<< 1)

/-- The exponent table made of the sequence E (R130, R131): E twice, then EXP_TAIL zeros. -/
def expTable (w : Width) (tail : Nat) (e : List Nat) : Array (BitVec w.bits) :=
  ((e ++ e ++ List.replicate tail 0).map (BitVec.ofNat w.bits)).toArray

/-- The index table made of the sequence E (R130, R132): the sentinel at 0, and the place of v in E at each other v. -/
def idxTable (w : Width) (e : List Nat) : Vector (BitVec (w.bits + 1)) (2 ^ w.bits) :=
  tabulate (2 ^ w.bits) fun v =>
    BitVec.ofNat (w.bits + 1) (if v.val = 0 then sentinel w else e.idxOf v.val)

/-- The loop "I[t] <- i" of R130 over a sequence given last value first, `k` being its length. -/
def fillIdx {n m : Nat} : List Nat → Nat → Vector (BitVec m) n → Vector (BitVec m) n
  | [], _, i => i
  | t :: ts, k, i => fillIdx ts (k - 1) (i.setIfInBounds t (BitVec.ofNat m (k - 1)))

/-- The index table filled entry by entry, as R130 writes it. Compiled code uses it in place of `idxTable`
(`idxTable_eq_filled`). -/
def idxTableFilled (w : Width) (e : List Nat) : Vector (BitVec (w.bits + 1)) (2 ^ w.bits) :=
  (fillIdx e.reverse e.length (Vector.replicate _ (BitVec.ofNat _ e.length))).setIfInBounds 0
    (BitVec.ofNat _ (sentinel w))

theorem getElem_fillIdx {n m : Nat} (e : List Nat) (i : Vector (BitVec m) n) (v : Nat) (h : v < n) :
    (fillIdx e.reverse e.length i)[v] = if v ∈ e then BitVec.ofNat m (e.idxOf v) else i[v] := by
  induction e using List.reverseRecOn generalizing i with
  | nil => simp [fillIdx]
  | append_singleton e t ih =>
    rw [List.reverse_append, List.length_append]
    simp only [List.reverse_singleton, List.singleton_append, List.length_singleton, fillIdx,
      Nat.add_sub_cancel, ih, List.mem_append, List.mem_singleton, List.idxOf_append]
    by_cases hv : v ∈ e
    · simp [hv]
    · by_cases ht : v = t
      · subst ht; simp [hv]
      · simp [hv, ht, eq_comm]

/-- The table by its meaning and the table filled entry by entry are the same. -/
@[csimp] theorem idxTable_eq_filled : @idxTable = @idxTableFilled := by
  funext w e
  apply Vector.ext
  intro v h
  simp only [idxTable, idxTableFilled, tabulate, Vector.getElem_mk, List.getElem_toArray,
    List.getElem_ofFn, Vector.getElem_setIfInBounds, getElem_fillIdx, Vector.getElem_replicate]
  by_cases h0 : v = 0
  · simp [h0]
  · by_cases hv : v ∈ e <;> simp [h0, Ne.symm h0, hv]

/-- The context INIT builds (R130), or none where the construction check fails (R134). -/
def buildCtx (w : Width) (tail : Nat) : Option (FieldCtx w.bits) :=
  if constructOk w then
    some ⟨expTable w tail (powersOfX w), idxTable w (powersOfX w)⟩
  else none

/-- Idx_W[v] (R15, R72). -/
def FieldCtx.idxAt {w : Nat} (c : FieldCtx w) (v : BitVec w) : Nat := (c.idx[v.toNat]).toNat

/-- Exp_W[i] at a mathematical integer index (R14), none outside the table. -/
def FieldCtx.expAt {w : Nat} (c : FieldCtx w) (i : Int) : Option (BitVec w) :=
  if i < 0 then none else c.exp[i.toNat]?

/-- The value of `ExpRead_W(i)` (R16): the entry, or draw `n` for the place `x` when the index is out of range (log 4). -/
def FieldCtx.expRead {w : Nat} (c : FieldCtx w) (i : Int) (n x : Nat) : BitVec w :=
  (c.expAt i).getD ((Config.freeElem n x).setWidth w)

/-- Whether `ExpRead_W(i)` is out of range, which sets STATUS.OOB (R16). -/
def FieldCtx.expMiss {w : Nat} (c : FieldCtx w) (i : Int) : Bool := (c.expAt i).isNone

/-- The index a·b is read at (R150). -/
def FieldCtx.mulIndex {w : Nat} (c : FieldCtx w) (a b : BitVec w) : Int := c.idxAt a + c.idxAt b

/-- The index a/b is read at (R151): `I[a] - I[b] + (N-1)` over the integers. -/
def FieldCtx.divIndex {w : Nat} (c : FieldCtx w) (a b : BitVec w) : Int :=
  (c.idxAt a : Int) - c.idxAt b + (2 ^ w - 1 : Nat)

/-- The index the full table's entry for the operand x is read at (R171). -/
def FieldCtx.entryIndex {w : Nat} (c : FieldCtx w) (k : Kind) (a x : BitVec w) : Int :=
  match k with
  | .mul => c.mulIndex a x
  | .divAByX => c.divIndex a x
  | .divXByA => c.divIndex x a

/-- The checked product (R152): 0 for a zero operand. `n x` name the free value a table that INIT did not build could ask
for (log 18). -/
def FieldCtx.exactMul {w : Nat} (c : FieldCtx w) (a b : BitVec w) (n x : Nat) : BitVec w :=
  if a = 0#w ∨ b = 0#w then 0#w else c.expRead (c.mulIndex a b) n x

/-- The checked quotient for b ≠ 0 (R153): 0 for a zero dividend. -/
def FieldCtx.exactDiv {w : Nat} (c : FieldCtx w) (a b : BitVec w) (n x : Nat) : BitVec w :=
  if a = 0#w then 0#w else c.expRead (c.divIndex a b) n x

/-- The exact entry function G of the split and nibble tiers (R191). -/
def FieldCtx.exactEntry (c : FieldCtx 16) (k : LinKind) (a x : BitVec 16) (n : Nat) : BitVec 16 :=
  match k with
  | .mul => c.exactMul a x n x.toNat
  | .divXByA => c.exactDiv x a n x.toNat

/-- The loop of R18 with k rounds left, from bit `W - k` of b on: `a` is the multiplicand doubled so far, `r` the sum so far. -/
def gfmulLoop (w : Width) (b : Nat) : Nat → Nat → Nat → Nat
  | 0, _, r => r
  | k + 1, a, r => gfmulLoop w b k (xtimes w a) (if b.testBit (w.bits - (k + 1)) then r ^^^ a else r)

/-- The exact field product gfmul_W(a, b) of R18, the reference the table rules are held against. No command computes it. -/
def gfmul (w : Width) (a b : Nat) : Nat := gfmulLoop w b w.bits a 0

/-- `c` is the exact field quotient gfdiv_W(a, b) of R19, which has no value for b = 0. -/
def isGfdiv (w : Width) (a b c : Nat) : Prop := b ≠ 0 ∧ c < w.order ∧ gfmul w b c = a

end Sys2Proof.Machine
end

