-- ==== Sys2Proof/Machine/Flags.lean ====
section
/-! DEFINITION. The STATUS register (R35), its error codes (R250), its W1C bits, the OOB flag (R16) and the interrupt
output (R258). -/

namespace Sys2Proof.Machine

/-- The number of an error code (R250). -/
def ErrCode.code : ErrCode → BitVec 4
  | .success => 0
  | .illegal => 1
  | .rsvd => 2
  | .kind => 3
  | .width => 4
  | .notReady => 5
  | .reinit => 6
  | .alloc => 7
  | .noTable => 8
  | .range => 9
  | .div0 => 10
  | .align => 11
  | .bounds => 12
  | .construct => 13

/-- STATUS.RDY8 and STATUS.RDY16 (R35, R43). -/
def State.ready (s : State) (w : Width) : Bool := (s.ctx w).isSome

/-- What a read of STATUS returns (R35): bits 31:21, 15:10 and 3:2 read 0. -/
def State.status (s : State) : Word :=
  0#11 ++ BitVec.ofBool s.nib.isSome ++ BitVec.ofBool s.spl.isSome ++ BitVec.ofBool s.rt.isSome
    ++ BitVec.ofBool (s.ready .w16) ++ BitVec.ofBool (s.ready .w8)
    ++ 0#6 ++ BitVec.ofBool s.ovr ++ BitVec.ofBool s.oob
    ++ s.errcode.code ++ 0#2 ++ BitVec.ofBool s.done ++ BitVec.ofBool s.busy

/-- A host write to STATUS (R35): a 1 in bit 1 clears DONE and ERRCODE, in bit 8 OOB, in bit 9 OVR, and nothing else has an
effect. -/
def State.writeStatus (s : State) (v : Word) : State :=
  let s1 := if v.getLsbD 1 then s.acknowledge else s
  { s1 with oob := s.oob && !v.getLsbD 8, ovr := s.ovr && !v.getLsbD 9 }

/-- STATUS.OOB after a command whose exponent reads were out of range or not (R16): sticky. -/
def State.noteOob (s : State) (miss : Bool) : State := { s with oob := s.oob || miss }

/-- The interrupt output (R258). -/
def State.irq (s : State) : Bool := s.done && s.irqEn

end Sys2Proof.Machine
end

