-- ==== Sys2Proof/Machine/Operands.lean ====
section
/-! DEFINITION. The operand forms of R104: every operand is the whole 32-bit value of a latched operand register, and none
where it is outside its range. -/

namespace Sys2Proof.Machine

/-- A table index below n (R104). -/
def indexBelow (n : Nat) (v : Word) : Option (Fin n) :=
  if h : v.toNat < n then some ⟨v.toNat, h⟩ else none

/-- A field element of a width (R17, R104). -/
def element? (w : Width) (v : Word) : Option (BitVec w.bits) :=
  if v.toNat < w.order then some (v.setWidth w.bits) else none

/-- The first operand a, or the coefficient: LOPA (R104). -/
def State.elementA (s : State) (w : Width) : Option (BitVec w.bits) := element? w s.lopa

/-- The second operand b: LOPB (R104). -/
def State.elementB (s : State) (w : Width) : Option (BitVec w.bits) := element? w s.lopb

/-- LOPA as a 16-bit element: the coefficient of the split and nibble builds (R104). -/
def State.elementA16 (s : State) : Option (BitVec 16) := element? .w16 s.lopa

/-- LOPB as a 16-bit operand (R104, SPL_LOOKUP). -/
def State.elementB16 (s : State) : Option (BitVec 16) := element? .w16 s.lopb

/-- The checks the scalar commands share (R253): the context is built, then a < N, then b < N. -/
def State.withPair (s : State) (w : Width)
    (f : FieldCtx w.bits → BitVec w.bits → BitVec w.bits → State) : State :=
  match s.ctx w with
  | none => s.raise .notReady
  | some c =>
    match s.elementA w with
    | none => s.raise .range
    | some a =>
      match s.elementB w with
      | none => s.raise .range
      | some b => f c a b

/-- The checks the split and nibble builds share, in the order of R253: the kind, the width, the context, the slot, the
coefficient, and the division by a zero coefficient. -/
def State.withLinear (s : State) (w : Width) (kind : Option Kind) (held : Bool)
    (f : FieldCtx 16 → LinKind → BitVec 16 → State) : State :=
  match kind.bind Kind.linear? with
  | none => s.raise .kind
  | some k =>
    if w = .w8 then s.raise .width
    else
      match s.ctx16 with
      | none => s.raise .notReady
      | some c =>
        if held then s.raise .alloc
        else
          match s.elementA16 with
          | none => s.raise .range
          | some a => if k = .divXByA ∧ a = 0#16 then s.raise .div0 else f c k a

/-- The end of a command that reads a value from the exponent table unchecked (R16, R150, R151). -/
def State.answerExp {w : Nat} (s : State) (c : FieldCtx w) (i : Int) : State :=
  (s.noteOob (c.expMiss i)).answer (zext32 (c.expRead i s.draws 0))

end Sys2Proof.Machine
end

