-- ==== Sys2Proof/Machine/Builder.lean ====
section
/-! DEFINITION. The Field Table Builder (41_table_builder.md): INIT, EXP_RD, IDX_RD. -/

namespace Sys2Proof.Machine

/-- INIT (R130, R134): E_REINIT for a context that is built, E_CONSTRUCT when the construction check fails, else the
context is built and READY_W set. -/
def execInit (w : Width) (s : State) : Host.Outcome State Fault Refusal :=
  .next <|
    if s.ready w then s.raise .reinit
    else
      match buildCtx w s.expTail.toNat with
      | none => s.raise .construct
      | some c => (s.setCtx w c).succeed

/-- EXP_RD (R137): the index is checked against the physical length of the table. -/
def execExpRd (w : Width) (s : State) : Host.Outcome State Fault Refusal :=
  .next <|
    match s.ctx w with
    | none => s.raise .notReady
    | some c =>
      match c.expAt s.lopb.toNat with
      | none => s.raise .range
      | some e => s.answer (zext32 e)

/-- IDX_RD (R138). -/
def execIdxRd (w : Width) (s : State) : Host.Outcome State Fault Refusal :=
  .next <|
    match s.ctx w with
    | none => s.raise .notReady
    | some c =>
      match s.elementB w with
      | none => s.raise .range
      | some v => s.answer (BitVec.ofNat 32 (c.idxAt v))

end Sys2Proof.Machine
end

