-- ==== Sys2Proof/Machine/RegionFull.lean ====
section
/-! DEFINITION. The full tier of the Region Table Generator (43_region_full.md): RT_BUILD, RT_RD, RT_REL. -/

namespace Sys2Proof.Machine

/-- The operand number x as an element of the width. -/
def operandOf (w : Width) (x : Fin w.order) : BitVec w.bits := BitVec.ofFin x

/-- The table RT_BUILD makes (R170, R171): each entry is computed on its own, with a draw of its own when its index is out
of range. `n` is the draw number of the build. -/
def fullTable (w : Width) (c : FieldCtx w.bits) (k : Kind) (a : BitVec w.bits) (n : Nat) : FullTable where
  width := w
  kind := k
  coef := a.setWidth 16
  entries := tabulate w.order fun x =>
    (c.expRead (c.entryIndex k a (operandOf w x)) n x.val).setWidth 16

/-- Whether any entry's read is out of range (R170). -/
def fullTableMiss (w : Width) (c : FieldCtx w.bits) (k : Kind) (a : BitVec w.bits) : Bool :=
  (List.finRange w.order).any fun x => c.expMiss (c.entryIndex k a (operandOf w x))

/-- RT_BUILD (R170 to R173). -/
def execRtBuild (w : Width) (kind : Option Kind) (s : State) : Host.Outcome State Fault Refusal :=
  .next <|
    match kind with
    | none => s.raise .kind
    | some k =>
      match s.ctx w with
      | none => s.raise .notReady
      | some c =>
        if s.rt.isSome then s.raise .alloc
        else
          match s.elementA w with
          | none => s.raise .range
          | some a =>
            { s.noteOob (fullTableMiss w c k a) with rt := some (fullTable w c k a s.draws) }.succeed

/-- RT_RD (R174). -/
def execRtRd (s : State) : Host.Outcome State Fault Refusal :=
  .next <|
    match s.rt with
    | none => s.raise .noTable
    | some t =>
      match indexBelow t.width.order s.lopb with
      | none => s.raise .range
      | some x => s.answer (zext32 t.entries[x])

/-- RT_REL (R175): the slot holds no table afterwards. -/
def execRtRel (s : State) : Host.Outcome State Fault Refusal :=
  .next <|
    match s.rt with
    | none => s.raise .noTable
    | some _ => { s with rt := none }.succeed

end Sys2Proof.Machine
end

