-- ==== Sys2Proof/Machine/RegionNibble.lean ====
section
/-! DEFINITION. The nibble-split tier of the Region Table Generator (45_region_nibble.md): NIB_BUILD, NIB_RD, NIB_REL. -/

namespace Sys2Proof.Machine

/-- The byte NTt[n] that NIB_BUILD writes (R210, R211): t = 2p + h, byte h of G(a, n << 4p). -/
def nibbleEntry (c : FieldCtx 16) (k : LinKind) (a : BitVec 16) (draw t n : Nat) : Byte :=
  (c.exactEntry k a (BitVec.ofNat 16 (n <<< (4 * (t / 2)))) draw).extractLsb' (8 * (t % 2)) 8

/-- The tables NIB_BUILD makes (R210). -/
def nibbleTable (c : FieldCtx 16) (k : LinKind) (a : BitVec 16) (draw : Nat) : NibTable where
  kind := k
  coef := a
  nt := tabulate 8 fun t => tabulate 16 fun n => nibbleEntry c k a draw t.val n.val

/-- NIB_BUILD (R210). -/
def execNibBuild (w : Width) (kind : Option Kind) (s : State) : Host.Outcome State Fault Refusal :=
  .next <| s.withLinear w kind s.nib.isSome fun c k a =>
    { s with nib := some (nibbleTable c k a s.draws) }.succeed

/-- NIB_RD (R213): bits 14:12 of the word, bits 2:0 of SEL, pick the table. A 1 in bit 15 is E_RSVD (R106, log 20). -/
def execNibRd (sel : BitVec 4) (s : State) : Host.Outcome State Fault Refusal :=
  .next <|
    if sel.getLsbD 3 then s.raise .rsvd
    else
      match s.nib with
      | none => s.raise .noTable
      | some t =>
        match indexBelow 16 s.lopb with
        | none => s.raise .range
        | some n => s.answer (zext32 (t.nt[(sel.extractLsb' 0 3).toNat][n]))

/-- NIB_REL (R214): the slot holds no table afterwards. -/
def execNibRel (s : State) : Host.Outcome State Fault Refusal :=
  .next <|
    match s.nib with
    | none => s.raise .noTable
    | some _ => { s with nib := none }.succeed

end Sys2Proof.Machine
end

