-- ==== Sys2Proof/Machine/RegionSplit.lean ====
section
/-! DEFINITION. The byte-split tier of the Region Table Generator (44_region_split.md): SPL_BUILD, SPL_RD, SPL_LOOKUP,
SPL_REL. -/

namespace Sys2Proof.Machine

/-- The tables SPL_BUILD makes (R190): low[v] = G(a, v), high[v] = G(a, v << 8). -/
def splitTable (c : FieldCtx 16) (k : LinKind) (a : BitVec 16) (n : Nat) : SplitTable where
  kind := k
  coef := a
  lo := tabulate 256 fun v => c.exactEntry k a (BitVec.ofNat 16 v.val) n
  hi := tabulate 256 fun v => c.exactEntry k a (BitVec.ofNat 16 (v.val <<< 8)) n

/-- The combined lookup of one operand (R194). -/
def SplitTable.lookup (t : SplitTable) (x : BitVec 16) : BitVec 16 :=
  t.hi[(x.extractLsb' 8 8).toNat] ^^^ t.lo[(x.extractLsb' 0 8).toNat]

/-- SPL_BUILD (R190, R191). -/
def execSplBuild (w : Width) (kind : Option Kind) (s : State) : Host.Outcome State Fault Refusal :=
  .next <| s.withLinear w kind s.spl.isSome fun c k a =>
    { s with spl := some (splitTable c k a s.draws) }.succeed

/-- SPL_RD (R193): bit 12 of the word, bit 0 of SEL, picks the high table. A 1 in another bit of SEL is E_RSVD (R106, log 20). -/
def execSplRd (sel : BitVec 4) (s : State) : Host.Outcome State Fault Refusal :=
  .next <|
    if sel &&& 0b1110#4 ≠ 0#4 then s.raise .rsvd
    else
      match s.spl with
      | none => s.raise .noTable
      | some t =>
        match indexBelow 256 s.lopb with
        | none => s.raise .range
        | some v => s.answer (zext32 (if sel.getLsbD 0 then t.hi[v] else t.lo[v]))

/-- SPL_LOOKUP (R194). -/
def execSplLookup (s : State) : Host.Outcome State Fault Refusal :=
  .next <|
    match s.spl with
    | none => s.raise .noTable
    | some t =>
      match s.elementB16 with
      | none => s.raise .range
      | some x => s.answer (zext32 (t.lookup x))

/-- SPL_REL (R195): the slot holds no table afterwards. -/
def execSplRel (s : State) : Host.Outcome State Fault Refusal :=
  .next <|
    match s.spl with
    | none => s.raise .noTable
    | some _ => { s with spl := none }.succeed

end Sys2Proof.Machine
end

