-- ==== Sys2Proof/Machine/Scalar.lean ====
section
/-! DEFINITION. Scalar Arithmetic (42_scalar.md): the fast path MUL and DIV, the checked path MULZ and DIVZ. -/

namespace Sys2Proof.Machine

/-- MUL (R150): the unchecked product, a draw with OOB where the index is out of range. -/
def execMul (w : Width) (s : State) : Host.Outcome State Fault Refusal :=
  .next <| s.withPair w fun c a b => s.answerExp c (c.mulIndex a b)

/-- DIV (R151): the unchecked quotient, a draw with OOB where the index is out of range. -/
def execDiv (w : Width) (s : State) : Host.Outcome State Fault Refusal :=
  .next <| s.withPair w fun c a b => s.answerExp c (c.divIndex a b)

/-- MULZ (R152): the checked product, OOB untouched. -/
def execMulz (w : Width) (s : State) : Host.Outcome State Fault Refusal :=
  .next <| s.withPair w fun c a b => s.answer (zext32 (c.exactMul a b s.draws 0))

/-- DIVZ (R153): the checked quotient, E_DIV0 for b = 0, OOB untouched. -/
def execDivz (w : Width) (s : State) : Host.Outcome State Fault Refusal :=
  .next <| s.withPair w fun c a b =>
    if b = 0#w.bits then s.raise .div0 else s.answer (zext32 (c.exactDiv a b s.draws 0))

end Sys2Proof.Machine
end

