-- ==== Sys2Proof/Machine/Vector.lean ====
section
/-! DEFINITION. The Vectorized Region Lookup (46_vector_lookup.md): VLOOKUP. -/

namespace Sys2Proof.Machine

/-- One gather: the entry of table t that the nibble n picks (R231). -/
def NibTable.gather (t : NibTable) (i : Fin 8) (n : BitVec 4) : Byte := (t.nt[i])[n.toNat]

/-- The result of one element (R230, R231): the XOR of the four gathers of each result byte. -/
def NibTable.lookup (t : NibTable) (x : BitVec 16) : BitVec 16 :=
  let n0 := x.extractLsb' 0 4
  let n1 := x.extractLsb' 4 4
  let n2 := x.extractLsb' 8 4
  let n3 := x.extractLsb' 12 4
  let rlo := t.gather 0 n0 ^^^ t.gather 2 n1 ^^^ t.gather 4 n2 ^^^ t.gather 6 n3
  let rhi := t.gather 1 n0 ^^^ t.gather 3 n1 ^^^ t.gather 5 n2 ^^^ t.gather 7 n3
  rhi ++ rlo

/-- A VLOOKUP whose checks have passed: its tables, its lanes and its two DMEM addresses. -/
structure Lookup where
  table : NibTable
  lane : Lane
  src : Nat
  dst : Nat
  deriving DecidableEq, Repr

/-- The checks of VLOOKUP in the order of R253: E_NOTABLE, E_ALIGN, E_BOUNDS (R230, R232). -/
def State.lookupSetup (s : State) (lane : Lane) : Except ErrCode Lookup :=
  match s.nib with
  | none => .error .noTable
  | some t =>
    let src := s.lopb.toNat
    let dst := s.lopc.toNat
    if src % 2 = 1 ∨ dst % 2 = 1 then .error .align
    else if s.dmemSize.toNat < src + lane.bytes ∨ s.dmemSize.toNat < dst + lane.bytes then .error .bounds
    else .ok ⟨t, lane, src, dst⟩

/-- The input byte a VLOOKUP reads at a DMEM address (R230): the byte a racing host write has left it to read (R79), else the
byte of DMEM, else draw `n` (R74). -/
def State.engineByte (s : State) (n a : Nat) : Byte :=
  ((Memory.get? s.inView a).or (Memory.get? s.dmem a)).getD (Config.freeByte n a)

/-- Input element j of a chunk at `src`, little-endian (R75, R230). -/
def State.engineElement (s : State) (n src j : Nat) : BitVec 16 :=
  s.engineByte n (src + 2 * j + 1) ++ s.engineByte n (src + 2 * j)

/-- The bytes of the output chunk, from the lowest address up (R75, R230). -/
def Lookup.output (l : Lookup) (s : State) (n : Nat) : List Byte :=
  (List.range l.lane.elements).flatMap fun j =>
    let y := l.table.lookup (s.engineElement n l.src j)
    [y.extractLsb' 0 8, y.extractLsb' 8 8]

/-- Whether an address lies in the input chunk (R79, R232). -/
def Lookup.reads (l : Lookup) (a : Nat) : Bool := decide (l.src ≤ a ∧ a < l.src + l.lane.bytes)

/-- Whether an address lies in the output chunk (R79, R232, R282). -/
def Lookup.writes (l : Lookup) (a : Nat) : Bool := decide (l.dst ≤ a ∧ a < l.dst + l.lane.bytes)

/-- VLOOKUP (R230): every input is read before any output is written. An output byte that a racing host write outlives stays
the host's (R79). -/
def execVlookup (lane : Lane) (s : State) : Host.Outcome State Fault Refusal :=
  .next <|
    match s.lookupSetup lane with
    | .error e => s.raise e
    | .ok l =>
      { s with dmem := Memory.writeFrom s.outKeep (l.output s s.draws) l.dst s.dmem }.succeed

end Sys2Proof.Machine
end

