-- ==== Sys2Proof/Machine/Dispatch.lean ====
section
/-! DEFINITION. One arm per constructor of `Instr`: the completion step of each command (R50, R105). -/

namespace Sys2Proof.Machine

def exec (i : Instr) (s : State) : Host.Outcome State Fault Refusal :=
  match i with
  | .init w => Sys2Proof.Machine.execInit w s
  | .expRd w => Sys2Proof.Machine.execExpRd w s
  | .idxRd w => Sys2Proof.Machine.execIdxRd w s
  | .mul w => Sys2Proof.Machine.execMul w s
  | .div w => Sys2Proof.Machine.execDiv w s
  | .mulz w => Sys2Proof.Machine.execMulz w s
  | .divz w => Sys2Proof.Machine.execDivz w s
  | .rtBuild w kind => Sys2Proof.Machine.execRtBuild w kind s
  | .rtRd => Sys2Proof.Machine.execRtRd s
  | .rtRel => Sys2Proof.Machine.execRtRel s
  | .splBuild w kind => Sys2Proof.Machine.execSplBuild w kind s
  | .splRd sel => Sys2Proof.Machine.execSplRd sel s
  | .splLookup => Sys2Proof.Machine.execSplLookup s
  | .splRel => Sys2Proof.Machine.execSplRel s
  | .nibBuild w kind => Sys2Proof.Machine.execNibBuild w kind s
  | .nibRd sel => Sys2Proof.Machine.execNibRd sel s
  | .nibRel => Sys2Proof.Machine.execNibRel s
  | .vlookup lane => Sys2Proof.Machine.execVlookup lane s

end Sys2Proof.Machine
end

