-- ==== Sys2Proof/WellFormed.lean ====
section
/-! DEFINITION. Which terms of `Instr` a command word can stand for. -/

namespace Sys2Proof

/-- Every bit of a field that the opcode does not use is 0 (R102, R107): SPL_RD uses only bit 12 of SEL, NIB_RD only
bits 14:12. Every other field's values are all usable, the reserved KIND = 11 and the widths that raise E_WIDTH among
them (R103, R108). -/
def Instr.wellFormed : Instr → Bool
  | .splRd sel => decide (sel.toNat < 2)
  | .nibRd sel => decide (sel.toNat < 8)
  | .init _ | .expRd _ | .idxRd _ | .mul _ | .div _ | .mulz _ | .divz _ => true
  | .rtBuild _ _ | .rtRd | .rtRel | .splBuild _ _ | .splLookup | .splRel => true
  | .nibBuild _ _ | .nibRel | .vlookup _ => true

end Sys2Proof
end

