-- ==== Sys2Proof/Decode.lean ====
section
/-! DEFINITION. Decoding a command word (R106), rejecting by name, and encoding a command (R102, R105). -/

namespace Sys2Proof

/-- Why a command word is no command: the two decode errors of R106. -/
inductive DecodeError where
  /-- OP is not in the table of R105 (E_ILLEGAL). -/
  | illegal
  /-- a bit outside OP and the fields the opcode uses is 1 (E_RSVD). -/
  | rsvd
  deriving DecidableEq, Repr

/-- What a decoder answers. -/
inductive DecodeResult where
  | ok (i : Instr)
  | error (e : DecodeError)
  deriving DecidableEq, Repr

/-- The opcodes of R105. -/
inductive Opcode where
  | init | expRd | idxRd
  | mul | div | mulz | divz
  | rtBuild | rtRd | rtRel
  | splBuild | splRd | splLookup | splRel
  | nibBuild | nibRd | nibRel
  | vlookup
  deriving DecidableEq, Repr

/-- The OP field of each opcode (R105). -/
def Opcode.code : Opcode → Nat
  | .init => 0x01
  | .expRd => 0x02
  | .idxRd => 0x03
  | .mul => 0x10
  | .div => 0x11
  | .mulz => 0x12
  | .divz => 0x13
  | .rtBuild => 0x20
  | .rtRd => 0x21
  | .rtRel => 0x22
  | .splBuild => 0x28
  | .splRd => 0x29
  | .splLookup => 0x2A
  | .splRel => 0x2B
  | .nibBuild => 0x30
  | .nibRd => 0x31
  | .nibRel => 0x32
  | .vlookup => 0x38

/-- The rows of the opcode table (R105). -/
def opcodeTable : List Opcode :=
  [.init, .expRd, .idxRd, .mul, .div, .mulz, .divz, .rtBuild, .rtRd, .rtRel,
   .splBuild, .splRd, .splLookup, .splRel, .nibBuild, .nibRd, .nibRel, .vlookup]

/-- The opcode an OP field names, if the table has one (R105, R107). -/
def opcodeOf (op : Nat) : Option Opcode := opcodeTable.find? fun o => o.code == op

/-- The bits each opcode uses: OP and its fields (R105, R106). -/
def Opcode.used : Opcode → Word
  | .init | .expRd | .idxRd | .mul | .div | .mulz | .divz => 0x000001FF#32
  | .rtBuild | .splBuild | .nibBuild => 0x000007FF#32
  | .rtRd | .rtRel | .splLookup | .splRel | .nibRel => 0x000000FF#32
  | .splRd => 0x000010FF#32
  | .nibRd => 0x000070FF#32
  | .vlookup => 0x000008FF#32

/-- WSEL, bit 8: 0 selects W = 8, 1 selects W = 16 (R102). -/
def wselOf (c : Word) : Width := if c.getLsbD 8 then .w16 else .w8

/-- KIND, bits 10:9, none for the reserved 11 (R102, R103). -/
def kindOf (c : Word) : Option Kind :=
  match c.getLsbD 10, c.getLsbD 9 with
  | false, false => some .mul
  | false, true => some .divAByX
  | true, false => some .divXByA
  | true, true => none

/-- LANE, bit 11: 0 selects 128-bit, 1 selects 256-bit (R102). -/
def laneOf (c : Word) : Lane := if c.getLsbD 11 then .l256 else .l128

/-- SEL, bits 15:12 (R102). -/
def selOf (c : Word) : BitVec 4 := c.extractLsb' 12 4

/-- The command an opcode makes of the fields of a word it accepts (R106). -/
def Opcode.toInstr (c : Word) : Opcode → Instr
  | .init => .init (wselOf c)
  | .expRd => .expRd (wselOf c)
  | .idxRd => .idxRd (wselOf c)
  | .mul => .mul (wselOf c)
  | .div => .div (wselOf c)
  | .mulz => .mulz (wselOf c)
  | .divz => .divz (wselOf c)
  | .rtBuild => .rtBuild (wselOf c) (kindOf c)
  | .rtRd => .rtRd
  | .rtRel => .rtRel
  | .splBuild => .splBuild (wselOf c) (kindOf c)
  | .splRd => .splRd (selOf c)
  | .splLookup => .splLookup
  | .splRel => .splRel
  | .nibBuild => .nibBuild (wselOf c) (kindOf c)
  | .nibRd => .nibRd (selOf c)
  | .nibRel => .nibRel
  | .vlookup => .vlookup (laneOf c)

/-- Decoding a command word, in the order of R106: E_ILLEGAL for an opcode outside the table, then E_RSVD for a 1 in a bit
the opcode does not use. -/
def decode (c : Word) : DecodeResult :=
  match opcodeOf (c.extractLsb' 0 8).toNat with
  | none => .error .illegal
  | some o => if c &&& ~~~o.used = 0#32 then .ok (o.toInstr c) else .error .rsvd

/-- What the decoder reads from an instruction whose bits are `w`, numbered as the opcode table numbers them: the one
command word (R100); a bit above the word makes it no command. -/
def decodeTableWord (nbits w : Nat) : Option Instr :=
  if w % 2 ^ nbits < 2 ^ 32 then
    match decode (BitVec.ofNat 32 (w % 2 ^ nbits)) with
    | .ok i => some i
    | .error _ => none
  else none

/-- The WSEL bit of a width (R102). -/
def wselBits : Width → Word
  | .w8 => 0x000#32
  | .w16 => 0x100#32

/-- The KIND field of a kind, 11 for none (R103). -/
def kindBits : Option Kind → Word
  | some .mul => 0x000#32
  | some .divAByX => 0x200#32
  | some .divXByA => 0x400#32
  | none => 0x600#32

/-- The LANE bit of a lane width (R102). -/
def laneBits : Lane → Word
  | .l128 => 0x000#32
  | .l256 => 0x800#32

/-- The SEL field (R102). -/
def selBits (sel : BitVec 4) : Word := sel.setWidth 32 <<< 12

/-- The OP field of an opcode as a word (R102). -/
def Opcode.opBits (o : Opcode) : Word := BitVec.ofNat 32 o.code

/-- The command word of a command (R102, R105, R108). -/
def encode : Instr → Word
  | .init w => Opcode.opBits .init ||| wselBits w
  | .expRd w => Opcode.opBits .expRd ||| wselBits w
  | .idxRd w => Opcode.opBits .idxRd ||| wselBits w
  | .mul w => Opcode.opBits .mul ||| wselBits w
  | .div w => Opcode.opBits .div ||| wselBits w
  | .mulz w => Opcode.opBits .mulz ||| wselBits w
  | .divz w => Opcode.opBits .divz ||| wselBits w
  | .rtBuild w k => Opcode.opBits .rtBuild ||| wselBits w ||| kindBits k
  | .rtRd => Opcode.opBits .rtRd
  | .rtRel => Opcode.opBits .rtRel
  | .splBuild w k => Opcode.opBits .splBuild ||| wselBits w ||| kindBits k
  | .splRd sel => Opcode.opBits .splRd ||| selBits sel
  | .splLookup => Opcode.opBits .splLookup
  | .splRel => Opcode.opBits .splRel
  | .nibBuild w k => Opcode.opBits .nibBuild ||| wselBits w ||| kindBits k
  | .nibRd sel => Opcode.opBits .nibRd ||| selBits sel
  | .nibRel => Opcode.opBits .nibRel
  | .vlookup l => Opcode.opBits .vlookup ||| laneBits l

end Sys2Proof
end

