-- ==== Sys2Proof/Machine/Port.lean ====
section
/-! DEFINITION. The host port (R30, R32, R71, R76): register reads and writes, DMEM reads and writes with the race of R79,
the soft reset (R281, R282) and the reset input (R280). -/

namespace Sys2Proof.Machine

/-- The registers of R32 that have a meaning. -/
inductive HostReg where
  | id | ctrl | status | cmd | opa | opb | opc | result | expTail | dmemSize
  deriving DecidableEq, Repr

/-- The register at an offset of the register window, none for a reserved offset (R32, R42). -/
def hostRegAt (off : Nat) : Option HostReg :=
  match off with
  | 0x000 => some .id
  | 0x004 => some .ctrl
  | 0x008 => some .status
  | 0x00C => some .cmd
  | 0x010 => some .opa
  | 0x014 => some .opb
  | 0x018 => some .opc
  | 0x01C => some .result
  | 0x020 => some .expTail
  | 0x024 => some .dmemSize
  | _ => none

/-- What a read of a register returns (R32 to R42). No read has a side effect (R80). -/
def State.regRead (s : State) : Option HostReg → Word
  | some .id => 0x47465445#32
  | some .ctrl => 0#31 ++ BitVec.ofBool s.irqEn
  | some .status => s.status
  | some .cmd => s.lcmd
  | some .opa => s.opa
  | some .opb => s.opb
  | some .opc => s.opc
  | some .result => s.result
  | some .expTail => s.expTail
  | some .dmemSize => s.dmemSize
  | none => 0#32

/-- The VLOOKUP that is running, if the running command is one and its checks pass (R79, R282). -/
def State.runningLookup (s : State) : Option Lookup :=
  if s.busy then
    match decode s.lcmd with
    | .ok (.vlookup lane) => (s.lookupSetup lane).toOption
    | _ => none
  else none

/-- The soft reset (R281): everything but DMEM takes its reset value, IRQ_EN included. Each byte of the output chunk of a
VLOOKUP it abandons is left old or new, a free choice for each byte (R282). -/
def State.softReset (s : State) : State :=
  match s.runningLookup with
  | none => { s.hardReset with dmem := s.dmem }
  | some l =>
    let old := ((List.range l.lane.bytes).map (l.dst + ·)).filter fun a => !Config.freePick s.draws a
    { s.hardReset with dmem := Memory.writeFrom old (l.output s s.draws) l.dst s.dmem }

/-- A host write to a register (R34 to R42, R50, R51). -/
def State.regWrite (s : State) (v : Word) : Option HostReg → State
  | some .ctrl => if v.getLsbD 1 then s.softReset else { s with irqEn := v.getLsbD 0 }
  | some .status => s.writeStatus v
  | some .cmd => if s.busy then { s with ovr := true } else s.accept v
  | some .opa => { s with opa := v }
  | some .opb => { s with opb := v }
  | some .opc => { s with opc := v }
  | some .id | some .result | some .expTail | some .dmemSize => s
  | none => s

/-- The draws a host access to DMEM may have used are spent (log 4). -/
def State.spendDraws (s : State) : State := { s with draws := s.draws + 2 }

/-- A host write of one byte of DMEM. Where it races a running VLOOKUP (R79), an input byte reaches the command or does not,
and an output byte outlives the command or does not (log 10). -/
def State.hostWriteByte (s : State) (a : Nat) (b : Byte) : State :=
  match s.runningLookup with
  | none => { s with dmem := Memory.set s.dmem a b }
  | some l =>
    { s with
      dmem := Memory.set s.dmem a b
      inView :=
        if l.reads a then
          Memory.set s.inView a (if Config.freePick s.draws a then b else s.engineByte s.draws a)
        else s.inView
      outKeep :=
        if l.writes a then
          if Config.freePick (s.draws + 1) a then a :: s.outKeep else s.outKeep.filter (· ≠ a)
        else s.outKeep }

/-- Host writes of bytes at rising DMEM addresses. -/
def State.hostWriteBytes : State → Nat → List Byte → State
  | s, _, [] => s
  | s, a, b :: bs => State.hostWriteBytes (s.hostWriteByte a b) (a + 1) bs

/-- A host write of the n low bytes of a word to DMEM (R75). -/
def State.dmemWrite (s : State) (n a : Nat) (v : Word) : State :=
  (s.hostWriteBytes a (bytesLE n v)).spendDraws

/-- The width of a host access in bytes (R76). -/
def AccessSize.bytes : AccessSize → Nat
  | .b8 => 1
  | .b16 => 2
  | .b32 => 4

/-- Where a host access lands: a register of the window, DMEM, past the end of DMEM, or outside what the spec defines. -/
inductive Target where
  | register (r : Option HostReg)
  | dmem (a : Nat)
  | pastEnd
  | undefinedAccess
  deriving DecidableEq, Repr

/-- The address map of the block and the widths it allows (R32, R42, R71, R76). -/
def State.target (s : State) (size : AccessSize) (off : Nat) : Target :=
  if off < 0x1000 then
    if size = .b32 ∧ off % 4 = 0 then .register (hostRegAt off) else .undefinedAccess
  else
    let a := off - 0x1000
    if s.dmemSize.toNat ≤ a then .pastEnd
    else if a % AccessSize.bytes size = 0 ∧ a + AccessSize.bytes size ≤ s.dmemSize.toNat then .dmem a
    else .undefinedAccess

/-- What one input of the coming steps leaves for the running command to read: `none` where it ends the command or the
machine stops. Only accesses to DMEM make a difference (R79, log 11). -/
def State.pastInput (s : State) : HostEvent → Option State
  | .idle => some s
  | .reset => none
  | .read size off =>
    match s.target size off with
    | .dmem _ => some s.spendDraws
    | .register _ | .pastEnd => some s
    | .undefinedAccess => none
  | .write size off v =>
    match s.target size off with
    | .dmem a => some (s.dmemWrite (AccessSize.bytes size) a v)
    | .register r => if r = some .ctrl ∧ v.getLsbD 1 = true then none else some s
    | .pastEnd => some s
    | .undefinedAccess => none

/-- What the running command will find when it completes, if the given turns come, the first of them being the one under
way (R79, log 11). A reset or a stop that comes first ends the look ahead there. -/
def State.atCompletion : State → List Turn → State
  | s, [] => s
  | s, t :: ts =>
    match s.pastInput t.event with
    | none => s
    | some s1 => if t.completes then s1 else State.atCompletion s1 ts

/-- The bytes the running VLOOKUP is going to write (R79). -/
def State.promise (s : State) (l : Lookup) : List Byte :=
  l.output (s.atCompletion s.turns) (s.atCompletion s.turns).draws

/-- The byte a host read of a DMEM address returns: the byte written last, a draw where nothing has been written (R74), and
in the output chunk of a running VLOOKUP that byte or the one the command is going to write (R79). -/
def State.hostByte (s : State) (a : Nat) : Byte :=
  let old := (Memory.get? s.dmem a).getD (Config.freeByte s.draws a)
  match s.runningLookup with
  | none => old
  | some l =>
    if l.writes a && Config.freePick s.draws a then ((s.promise l)[a - l.dst]?).getD old else old

/-- A host read of n bytes of DMEM (R75). The host gets them zero-extended (log 15). -/
def State.dmemRead (s : State) (n a : Nat) : State :=
  { s with
    readData := BitVec.ofNat 32 (ofBytesLE ((List.range n).map fun k => s.hostByte (a + k))) }.spendDraws

/-- A host read (R32, R71, R74, R76). -/
def State.hostRead (s : State) (size : AccessSize) (off : Nat) : Host.Outcome State Fault Refusal :=
  match s.target size off with
  | .register r => .next { s with readData := s.regRead r }
  | .dmem a => .next (s.dmemRead (AccessSize.bytes size) a)
  | .pastEnd => .next { s with readData := 0#32 }
  | .undefinedAccess => .refused .undefinedHostAccess

/-- A host write (R32, R71, R76). -/
def State.hostWrite (s : State) (size : AccessSize) (off : Nat) (v : Word) :
    Host.Outcome State Fault Refusal :=
  match s.target size off with
  | .register r => .next (s.regWrite v r)
  | .dmem a => .next (s.dmemWrite (AccessSize.bytes size) a v)
  | .pastEnd => .next s
  | .undefinedAccess => .refused .undefinedHostAccess

/-- What the outside does to the block in one step (R30, R280). The turn that brings it is still the first of `turns`. -/
def State.hostStep (s : State) : HostEvent → Host.Outcome State Fault Refusal
  | .idle => .next s
  | .read size off => s.hostRead size off
  | .write size off v => s.hostWrite size off v
  | .reset => .next s.hardReset

end Sys2Proof.Machine
end

