-- ==== Sys2Proof/Machine/Engine.lean ====
section
/-! DEFINITION. The engine's completion of the latched command (R50, R106), and one step of the block. -/

namespace Sys2Proof.Machine

/-- The error code of a decode error (R106, R107). -/
def decodeErrCode : DecodeError → ErrCode
  | .illegal => .illegal
  | .rsvd => .rsvd

/-- The completion step of the command in LCMD (R50, R106): a word that is no command completes with E_ILLEGAL or E_RSVD. -/
def runCommand (s : State) : Host.Outcome State Fault Refusal :=
  match decode s.lcmd with
  | .ok i => exec i s
  | .error e => .next (s.raise (decodeErrCode e))

/-- Whether the command that is running completes in this turn: it was accepted in an earlier step (R50, LAT ≥ 1 of R296) and
no reset of this turn has ended it (R281). -/
def completesNow (before after : State) (t : Turn) : Bool := before.busy && after.busy && t.completes

/-- One step: the outside acts first, the turn is spent, and then the running command completes if the turn says so (R259,
log 3). -/
def advance (s : State) : Host.Outcome State Fault Refusal :=
  match s.hostStep s.nextTurn.event with
  | .next s1 => if completesNow s s1 s.nextTurn then runCommand s1.popTurn else .next s1.popTurn
  | .fault r => .fault r
  | .refused r => .refused r

end Sys2Proof.Machine
end

