-- ==== Sys2Proof/Machine/Step.lean ====
section
/-! DEFINITION. The step of the machine, and the state in which a given command word is the next one to run. -/

namespace Sys2Proof.Machine

/-- One step of the block. -/
def step (s : State) : Host.Outcome State Fault Refusal := advance s

/-- The state in which the next step completes the command word `w`: it has just been accepted, as after a host write to CMD
(R50), and the host is idle in the next step (log 1). -/
def State.withFetchWord (s : State) (nbits w : Nat) : State :=
  s.stage (BitVec.ofNat 32 (w % 2 ^ nbits))

end Sys2Proof.Machine
end

