-- ==== Sys2Proof/Safety.lean ====
section
/-! DEFINITION. What claims about the block are stated with: the invariant of its states, a host that makes only the accesses
the spec defines (R76), the checks of a command in the order of R253, and the reset values of R54. -/

namespace Sys2Proof.Machine

/-- The invariant that reset establishes and every step keeps. -/
structure StateInv (s : State) : Prop where
  /-- DMEM is in its canonical form. -/
  memWf : Memory.wf s.dmem = true
  /-- Only bytes inside DMEM are ever written (R71, R82). -/
  memInside : ∀ c ∈ s.dmem, c.1 < s.dmemSize.toNat
  /-- The record of raced input bytes is in the same form (R79). -/
  viewWf : Memory.wf s.inView = true
  /-- DMEM_BYTES is a multiple of 4 and at least 64 (R10). -/
  sizeOk : 64 ≤ s.dmemSize.toNat ∧ s.dmemSize.toNat % 4 = 0
  /-- A context that is ready holds what INIT builds (R43, R44). -/
  ctxBuilt : ∀ w c, s.ctx w = some c → buildCtx w s.expTail.toNat = some c
  /-- A full table is what RT_BUILD makes from the context of its width (R45, R48). -/
  rtBuilt : ∀ t, s.rt = some t →
    ∃ c a n, s.ctx t.width = some c ∧ t = fullTable t.width c t.kind a n
  /-- The split tables are what SPL_BUILD makes from the W = 16 context (R46, R48). -/
  splBuilt : ∀ t, s.spl = some t →
    ∃ c n, s.ctx16 = some c ∧ (t.kind = .divXByA → t.coef ≠ 0#16) ∧ t = splitTable c t.kind t.coef n
  /-- The nibble tables are what NIB_BUILD makes from the W = 16 context (R47, R48). -/
  nibBuilt : ∀ t, s.nib = some t →
    ∃ c n, s.ctx16 = some c ∧ (t.kind = .divXByA → t.coef ≠ 0#16) ∧ t = nibbleTable c t.kind t.coef n
  /-- DONE is clear while a command runs (R50). -/
  busyNotDone : s.busy = true → s.done = false
  /-- ERRCODE is 0 whenever DONE is clear (R35). -/
  errcodeDone : s.done = false → s.errcode = .success

/-- A host access of the widths and alignments R76 allows, or one past the end of DMEM, which R71 defines. -/
def AccessDefined (s : State) (size : AccessSize) (off : Nat) : Prop :=
  if off < 0x1000 then size = .b32 ∧ off % 4 = 0
  else s.dmemSize.toNat ≤ off - 0x1000 ∨
    ((off - 0x1000) % AccessSize.bytes size = 0 ∧ off - 0x1000 + AccessSize.bytes size ≤ s.dmemSize.toNat)

/-- What the outside does in the next step is something the spec defines. -/
def InputDefined (s : State) : Prop :=
  match s.nextTurn.event with
  | .read size off => AccessDefined s size off
  | .write size off _ => AccessDefined s size off
  | .idle | .reset => True

/-- The VLOOKUP that is running, its checks passed (R79, R282). -/
def RunningLookup (s : State) (l : Lookup) : Prop :=
  s.busy = true ∧ decode s.lcmd = .ok (.vlookup l.lane) ∧ s.lookupSetup l.lane = .ok l

/-- Every register, flag, context and slot has its value of R54; EXPTAIL and DMEMSIZE are the parameters that `s` shows. -/
def RegistersReset (s t : State) : Prop :=
  t.irqEn = false ∧ t.busy = false ∧ t.done = false ∧ t.errcode = .success ∧ t.oob = false ∧ t.ovr = false ∧
  t.lcmd = 0#32 ∧ t.lopa = 0#32 ∧ t.lopb = 0#32 ∧ t.lopc = 0#32 ∧
  t.opa = 0#32 ∧ t.opb = 0#32 ∧ t.opc = 0#32 ∧ t.result = 0#32 ∧
  t.expTail = s.expTail ∧ t.dmemSize = s.dmemSize ∧
  t.ready .w8 = false ∧ t.ready .w16 = false ∧ t.rt = none ∧ t.spl = none ∧ t.nib = none ∧
  t.irq = false

/-- `y` is the exact result G_K(a, x) of a linear kind (R191): the product, or the quotient x / a. -/
def LinResult (k : LinKind) (a x y : Nat) : Prop :=
  match k with
  | .mul => y = gfmul .w16 a x
  | .divXByA => isGfdiv .w16 x a y

/-- `y` is the exact result of a kind for the operand x and the coefficient a (R103): a·x, a/x or x/a. -/
def KindResult (w : Width) (k : Kind) (a x y : Nat) : Prop :=
  match k with
  | .mul => y = gfmul w a x
  | .divAByX => isGfdiv w a x y
  | .divXByA => isGfdiv w x a y

/-- The scalar command that computes the full table's entry for x: MUL(a, x), DIV(a, x) or DIV(x, a) (R171), run from a state
whose LOPA is the coefficient, with OOB clear. -/
def entryCommand (w : Width) (k : Kind) (x : Word) (s : State) : Host.Outcome State Fault Refusal :=
  match k with
  | .mul => exec (.mul w) { s with lopb := x, oob := false }
  | .divAByX => exec (.div w) { s with lopb := x, oob := false }
  | .divXByA => exec (.div w) { s with lopa := x, lopb := s.lopa, oob := false }

/-- Whether the check of an error code applies to a command and fails (R104, R250, R253). -/
def checkFails (i : Instr) (s : State) : ErrCode → Bool
  | .rsvd => !i.wellFormed
  | .kind =>
    match i with
    | .rtBuild _ k => k.isNone
    | .splBuild _ k | .nibBuild _ k => k.isNone || k == some .divAByX
    | _ => false
  | .width =>
    match i with
    | .splBuild w _ | .nibBuild w _ => w == .w8
    | _ => false
  | .notReady =>
    match i with
    | .expRd w | .idxRd w | .mul w | .div w | .mulz w | .divz w | .rtBuild w _ => !s.ready w
    | .splBuild _ _ | .nibBuild _ _ => !s.ready .w16
    | _ => false
  | .reinit =>
    match i with
    | .init w => s.ready w
    | _ => false
  | .alloc =>
    match i with
    | .rtBuild _ _ => s.rt.isSome
    | .splBuild _ _ => s.spl.isSome
    | .nibBuild _ _ => s.nib.isSome
    | _ => false
  | .noTable =>
    match i with
    | .rtRd | .rtRel => s.rt.isNone
    | .splRd _ | .splLookup | .splRel => s.spl.isNone
    | .nibRd _ | .nibRel | .vlookup _ => s.nib.isNone
    | _ => false
  | .range =>
    match i with
    | .expRd w => decide (2 * (w.order - 1) + s.expTail.toNat ≤ s.lopb.toNat)
    | .idxRd w => decide (w.order ≤ s.lopb.toNat)
    | .mul w | .div w | .mulz w | .divz w => decide (w.order ≤ s.lopa.toNat ∨ w.order ≤ s.lopb.toNat)
    | .rtBuild w _ => decide (w.order ≤ s.lopa.toNat)
    | .splBuild _ _ | .nibBuild _ _ => decide (65536 ≤ s.lopa.toNat)
    | .rtRd => s.rt.any fun t => decide (t.width.order ≤ s.lopb.toNat)
    | .splRd _ => decide (256 ≤ s.lopb.toNat)
    | .splLookup => decide (65536 ≤ s.lopb.toNat)
    | .nibRd _ => decide (16 ≤ s.lopb.toNat)
    | _ => false
  | .div0 =>
    match i with
    | .divz _ => s.lopb == 0#32
    | .splBuild _ k | .nibBuild _ k => k == some .divXByA && s.lopa == 0#32
    | _ => false
  | .align =>
    match i with
    | .vlookup _ => s.lopb.getLsbD 0 || s.lopc.getLsbD 0
    | _ => false
  | .bounds =>
    match i with
    | .vlookup l =>
      decide (s.dmemSize.toNat < s.lopb.toNat + l.bytes ∨ s.dmemSize.toNat < s.lopc.toNat + l.bytes)
    | _ => false
  | .success | .illegal | .construct => false

/-- The error a command reports: the first check that fails in the order of R253, or success. -/
def firstError (i : Instr) (s : State) : ErrCode :=
  ([.rsvd, .kind, .width, .notReady, .reinit, .alloc, .noTable, .range, .div0, .align, .bounds].find?
    (checkFails i s)).getD .success

/-- The commands that produce a value in RESULT (R38). -/
def producesValue : Instr → Bool
  | .expRd _ | .idxRd _ | .mul _ | .div _ | .mulz _ | .divz _ => true
  | .rtRd | .splRd _ | .splLookup | .nibRd _ => true
  | .init _ | .rtBuild _ _ | .rtRel | .splBuild _ _ | .splRel | .nibBuild _ _ | .nibRel | .vlookup _ => false

/-- The commands that may set OOB (R39). -/
def maySetOob : Instr → Bool
  | .mul _ | .div _ | .rtBuild _ _ => true
  | .init _ | .expRd _ | .idxRd _ | .mulz _ | .divz _ => false
  | .rtRd | .rtRel | .splBuild _ _ | .splRd _ | .splLookup | .splRel => false
  | .nibBuild _ _ | .nibRd _ | .nibRel | .vlookup _ => false

end Sys2Proof.Machine
end

