-- ==== Sys2Proof/Certificates/Slice0/Obligations.lean ====
section
/-! DEFINITION. The statements for the provers. Each docstring names the rule it formalises. -/

open Sys2Proof Sys2Proof.Machine

/-! ## Reset, registers and the host port -/

/-- R54: every register, flag, context and slot after a hardware reset; no DMEM byte has a value yet (R74, log 5). -/
def Obligations.ResetGivesEveryRegisterItsValue : Prop :=
  RegistersReset State.reset State.reset ∧
  State.reset.expTail = Config.expTail ∧ State.reset.dmemSize = Config.dmemBytes ∧
  ∀ a, Memory.get? State.reset.dmem a = none

/-- R32: what the host reads at each register offset right after reset. -/
def Obligations.RegisterReadsAfterReset : Prop :=
  ∀ off v, (off, v) ∈ [(0x000, 0x47465445#32), (0x004, 0#32), (0x008, 0#32), (0x00C, 0#32), (0x010, 0#32),
      (0x014, 0#32), (0x018, 0#32), (0x01C, 0#32), (0x020, Config.expTail), (0x024, Config.dmemBytes)] →
    ∃ t, State.reset.hostRead .b32 off = .next t ∧ t.readData = v

/-- R42: the reserved offsets read 0 and ignore writes; a register access of another width or alignment is refused. -/
def Obligations.ReservedOffsetsReadZero : Prop :=
  ∀ (s : State) (size : AccessSize) (off : Nat) (v : Word), off < 0x1000 →
    (size = .b32 ∧ off % 4 = 0 → 0x028 ≤ off →
      s.hostRead size off = .next { s with readData := 0#32 } ∧ s.hostWrite size off v = .next s) ∧
    (¬(size = .b32 ∧ off % 4 = 0) →
      s.hostRead size off = .refused .undefinedHostAccess ∧
      s.hostWrite size off v = .refused .undefinedHostAccess)

/-- R33, R38, R40, R41: ID, EXPTAIL, DMEMSIZE and RESULT read their value, and host writes to them are ignored. -/
def Obligations.ReadOnlyRegistersIgnoreWrites : Prop :=
  ∀ (s : State) (v : Word),
    s.hostRead .b32 0x000 = .next { s with readData := 0x47465445#32 } ∧ s.hostWrite .b32 0x000 v = .next s ∧
    s.hostRead .b32 0x020 = .next { s with readData := s.expTail } ∧ s.hostWrite .b32 0x020 v = .next s ∧
    s.hostRead .b32 0x024 = .next { s with readData := s.dmemSize } ∧ s.hostWrite .b32 0x024 v = .next s ∧
    s.hostRead .b32 0x01C = .next { s with readData := s.result } ∧ s.hostWrite .b32 0x01C v = .next s

/-- R9, R10: EXP_TAIL and DMEM_BYTES never change. -/
def Obligations.ParametersNeverChange : Prop :=
  ∀ s t, step s = .next t → t.expTail = s.expTail ∧ t.dmemSize = s.dmemSize

/-- R34: a CTRL write without SRST sets IRQ_EN and nothing else; CTRL reads IRQ_EN in bit 0 and 0 in every other bit. -/
def Obligations.ControlRegisterHoldsIrqEnable : Prop :=
  ∀ (s : State) (v : Word), v.getLsbD 1 = false →
    s.hostWrite .b32 0x004 v = .next { s with irqEn := v.getLsbD 0 } ∧
    ∃ t, s.hostRead .b32 0x004 = .next t ∧
      ∀ k, t.readData.getLsbD k = (decide (k = 0) && s.irqEn)

/-- R35, R250: where each STATUS bit stands, the number that bits 7:4 show for each of the fourteen error codes, and that every
other bit reads 0. -/
def Obligations.StatusBitsStandWhereR35SaysSo : Prop :=
  ∀ s : State, ∃ t, s.hostRead .b32 0x008 = .next t ∧
    t.readData.getLsbD 0 = s.busy ∧ t.readData.getLsbD 1 = s.done ∧
    (∀ e n, (e, n) ∈ ([(.success, 0), (.illegal, 1), (.rsvd, 2), (.kind, 3), (.width, 4), (.notReady, 5), (.reinit, 6),
        (.alloc, 7), (.noTable, 8), (.range, 9), (.div0, 10), (.align, 11), (.bounds, 12), (.construct, 13)] :
          List (ErrCode × Nat)) →
      s.errcode = e → (t.readData.extractLsb' 4 4).toNat = n) ∧
    t.readData.getLsbD 8 = s.oob ∧ t.readData.getLsbD 9 = s.ovr ∧
    t.readData.getLsbD 16 = s.ctx8.isSome ∧ t.readData.getLsbD 17 = s.ctx16.isSome ∧
    t.readData.getLsbD 18 = s.rt.isSome ∧ t.readData.getLsbD 19 = s.spl.isSome ∧
    t.readData.getLsbD 20 = s.nib.isSome ∧
    ∀ k, (2 ≤ k ∧ k ≤ 3) ∨ (10 ≤ k ∧ k ≤ 15) ∨ 21 ≤ k → t.readData.getLsbD k = false

/-- R35: what a STATUS write clears, for every value written, and that it changes nothing else. -/
def Obligations.StatusWriteClearsWhereOneIsWritten : Prop :=
  ∀ (s : State) (v : Word), ∃ t, s.hostWrite .b32 0x008 v = .next t ∧
    t = { s with
      done := s.done && !v.getLsbD 1
      errcode := if v.getLsbD 1 then .success else s.errcode
      oob := s.oob && !v.getLsbD 8
      ovr := s.ovr && !v.getLsbD 9 }

/-- R50, R36: a CMD write while BUSY = 0 is accepted: the word and the operands are latched, BUSY is set, DONE and ERRCODE are
cleared, and nothing else the spec names changes. The model's records of racing accesses (`inView`, `outKeep`, log 10) are
emptied: no host access has raced the new command. -/
def Obligations.AcceptanceLatchesTheCommand : Prop :=
  ∀ (s : State) (c : Word), s.busy = false → ∃ t, s.hostWrite .b32 0x00C c = .next t ∧
    t = { s with
      lcmd := c, lopa := s.opa, lopb := s.opb, lopc := s.opc, busy := true, done := false,
      errcode := .success, inView := [], outKeep := [] } ∧
    ∃ u, t.hostRead .b32 0x00C = .next u ∧ u.readData = c

/-- R51: a CMD write while BUSY = 1 only sets OVR. -/
def Obligations.CommandWriteWhileBusyIsDropped : Prop :=
  ∀ (s : State) (c : Word), s.busy = true → s.hostWrite .b32 0x00C c = .next { s with ovr := true }

/-- R37: OPA, OPB and OPC are written and read by the host, whether a command runs or not, and a write changes no other
state: not the latched operands either. -/
def Obligations.OperandRegistersAreReadWrite : Prop :=
  ∀ (s : State) (v : Word),
    s.hostWrite .b32 0x010 v = .next { s with opa := v } ∧
    s.hostWrite .b32 0x014 v = .next { s with opb := v } ∧
    s.hostWrite .b32 0x018 v = .next { s with opc := v } ∧
    s.hostRead .b32 0x010 = .next { s with readData := s.opa } ∧
    s.hostRead .b32 0x014 = .next { s with readData := s.opb } ∧
    s.hostRead .b32 0x018 = .next { s with readData := s.opc }

/-- R80: no host read changes any state of the block. (`readData` and `draws` are the model's own fields, log 4 and 9.) -/
def Obligations.HostReadsHaveNoSideEffect : Prop :=
  ∀ (s t : State) (size : AccessSize) (off : Nat), s.hostRead size off = .next t →
    t = { s with readData := t.readData, draws := t.draws }

/-- R76: a step stops only for a host access outside what the spec defines, and then always; it never faults. That an access past
the end of DMEM is defined at every width and alignment is the model's reading of R71 and R76 (log 16). -/
def Obligations.StepStopsOnlyOnUndefinedAccess : Prop :=
  ∀ s : State, (∀ r, step s ≠ .fault r) ∧
    (InputDefined s → ∃ t, step s = .next t) ∧
    (¬InputDefined s → step s = .refused .undefinedHostAccess)

/-- R75, R74, R79: a host read of DMEM bytes that have been written, none of them in the output chunk of a running VLOOKUP,
returns them with the least significant byte at the lowest address. That the bits of `readData` above a narrow read are 0 is
the model's reading (log 15). -/
def Obligations.DmemReadIsLittleEndian : Prop :=
  ∀ (s : State) (size : AccessSize) (a : Nat) (b : Nat → Byte),
    (∀ l k, RunningLookup s l → k < AccessSize.bytes size → a + k < l.dst ∨ l.dst + l.lane.bytes ≤ a + k) →
    a % AccessSize.bytes size = 0 → a + AccessSize.bytes size ≤ s.dmemSize.toNat →
    (∀ k, k < AccessSize.bytes size → Memory.get? s.dmem (a + k) = some (b k)) →
    ∃ t, s.hostRead size (0x1000 + a) = .next t ∧
      t.readData.toNat = ∑ k ∈ Finset.range (AccessSize.bytes size), (b k).toNat * 2 ^ (8 * k)

/-- R75, R80: a host write to DMEM stores the low bytes of the value, the least significant at the lowest address, and changes
no other byte. -/
def Obligations.DmemWriteStoresItsBytes : Prop :=
  ∀ (s : State) (size : AccessSize) (a : Nat) (v : Word), StateInv s →
    a % AccessSize.bytes size = 0 → a + AccessSize.bytes size ≤ s.dmemSize.toNat →
    ∃ t, s.hostWrite size (0x1000 + a) v = .next t ∧
      (∀ k, k < AccessSize.bytes size → Memory.get? t.dmem (a + k) = some (v.extractLsb' (8 * k) 8)) ∧
      (∀ b, b < a ∨ a + AccessSize.bytes size ≤ b → Memory.get? t.dmem b = Memory.get? s.dmem b) ∧
      t = { s with dmem := t.dmem, inView := t.inView, outKeep := t.outKeep, draws := t.draws }

/-- R71: past the end of DMEM reads give 0 and writes are ignored. That this holds at every width and alignment is the model's
reading of R71 and R76 (log 16). -/
def Obligations.AccessPastDmemReadsZero : Prop :=
  ∀ (s : State) (size : AccessSize) (off : Nat) (v : Word), 0x1000 + s.dmemSize.toNat ≤ off →
    s.hostRead size off = .next { s with readData := 0#32 } ∧ s.hostWrite size off v = .next s

/-- R281, R282: a CTRL write with SRST gives every register its reset value whatever else is written, and keeps every DMEM
byte, but for the output chunk of a running VLOOKUP, each byte of which is old or the one the command would have
written (a free choice, log 12). -/
def Obligations.SoftResetKeepsDmem : Prop :=
  ∀ (s : State) (v : Word), StateInv s → v.getLsbD 1 = true →
    ∃ t, s.hostWrite .b32 0x004 v = .next t ∧ RegistersReset s t ∧
      ∀ a, Memory.get? t.dmem a = Memory.get? s.dmem a ∨
        ∃ l, RunningLookup s l ∧ l.dst ≤ a ∧ a < l.dst + l.lane.bytes ∧
          Memory.get? t.dmem a = (l.output s s.draws)[a - l.dst]?

/-- R280: while the reset input is asserted every register takes its reset value, no DMEM byte keeps its value, a running
command is abandoned and irq is 0. That a byte without a value reads as a draw is log 5. -/
def Obligations.HardwareResetResetsEverything : Prop :=
  ∀ s : State, s.nextTurn.event = .reset →
    ∃ t, step s = .next t ∧ RegistersReset s t ∧ ∀ a, Memory.get? t.dmem a = none

/-- R258: irq is DONE & IRQ_EN, and is ended by the acknowledge, by the acceptance of a command or by clearing IRQ_EN. -/
def Obligations.InterruptIsDoneAndEnabled : Prop :=
  ∀ (s : State) (v : Word), (s.irq = true ↔ s.done = true ∧ s.irqEn = true) ∧
    (v.getLsbD 1 = true → ∃ t, s.hostWrite .b32 0x008 v = .next t ∧ t.irq = false) ∧
    (s.busy = false → ∃ t, s.hostWrite .b32 0x00C v = .next t ∧ t.irq = false) ∧
    (v.getLsbD 1 = false → v.getLsbD 0 = false → ∃ t, s.hostWrite .b32 0x004 v = .next t ∧ t.irq = false)

/-- R259: a completion in the same step as a dropped CMD write sets DONE and OVR; in the same step as an acknowledge it leaves
DONE set. -/
def Obligations.SimultaneousEventsBothTakeEffect : Prop :=
  ∀ (s : State) (v : Word), s.busy = true →
    (s.nextTurn = ⟨.write .b32 0x00C v, true⟩ →
      ∃ t, step s = .next t ∧ t.done = true ∧ t.ovr = true ∧ t.busy = false ∧ t.lcmd = s.lcmd) ∧
    (s.nextTurn = ⟨.write .b32 0x008 v, true⟩ →
      ∃ t, step s = .next t ∧ t.done = true ∧ t.busy = false)

/-! ## The engine -/

/-- R50, R106, R296: what a step does. The host access or the reset of its turn acts first (log 3), by the host port's own
operations. Where a command was running before it and is running after it and the turn completes, the step is exec of the
command that the word in LCMD decodes to, on the state with the turn spent (`popTurn`). In every other step nothing follows:
an idle block, a command left running, a command accepted in this very step, or one that a reset has ended. A refused access
refuses the step. -/
def Obligations.StepRunsTheDecodedCommand : Prop :=
  ∀ s : State,
    (s.nextTurn.event = .idle → s.hostStep s.nextTurn.event = .next s) ∧
    (s.nextTurn.event = .reset → s.hostStep s.nextTurn.event = .next s.hardReset) ∧
    (∀ size off, s.nextTurn.event = .read size off → s.hostStep s.nextTurn.event = s.hostRead size off) ∧
    (∀ size off v, s.nextTurn.event = .write size off v → s.hostStep s.nextTurn.event = s.hostWrite size off v) ∧
    (∀ s1 i, s.hostStep s.nextTurn.event = .next s1 →
      s.busy = true → s1.busy = true → s.nextTurn.completes = true → decode s1.lcmd = .ok i →
      step s = exec i s1.popTurn) ∧
    (∀ s1, s.hostStep s.nextTurn.event = .next s1 →
      s.busy = false ∨ s1.busy = false ∨ s.nextTurn.completes = false → step s = .next s1.popTurn) ∧
    (∀ r, s.hostStep s.nextTurn.event = .refused r → step s = .refused r)

/-- R107, R252: a word that is no command completes with E_ILLEGAL or E_RSVD and no other effect. A host access that comes in
the same step and leaves it running acts first: R259 says so for an acknowledge and for a dropped CMD write, and for every
other access it is the model's reading (log 3). -/
def Obligations.UndefinedWordsReportAnError : Prop :=
  ∀ s s1 : State, s.hostStep s.nextTurn.event = .next s1 →
    s.busy = true → s1.busy = true → s.nextTurn.completes = true →
    (decode s1.lcmd = .error .illegal →
      step s = .next { s1.popTurn with errcode := .illegal, done := true, busy := false }) ∧
    (decode s1.lcmd = .error .rsvd →
      step s = .next { s1.popTurn with errcode := .rsvd, done := true, busy := false })

/-- R297: an accepted command completes, however many steps it is left running (`turns` chooses how many, log 1 and 2). -/
def Obligations.EveryAcceptedCommandCompletes : Prop :=
  ∀ (n : Nat) (s : State), s.busy = true → s.turns = List.replicate n ⟨.idle, false⟩ →
    ∃ t, Host.Core.run core (n + 1) s = .next t ∧ t.busy = false ∧ t.done = true ∧ t.lcmd = s.lcmd

/-- R37, R39, R49, R50: what no command changes, whatever it is, and that it ends with BUSY = 0 and DONE = 1. -/
def Obligations.CommandsLeaveHostRegistersAlone : Prop :=
  ∀ (i : Instr) (s : State), ∃ t, exec i s = .next t ∧ t.busy = false ∧ t.done = true ∧
    (s.oob = true → t.oob = true) ∧ t.ovr = s.ovr ∧ t.irqEn = s.irqEn ∧
    t.lcmd = s.lcmd ∧ t.lopa = s.lopa ∧ t.lopb = s.lopb ∧ t.lopc = s.lopc ∧
    t.opa = s.opa ∧ t.opb = s.opb ∧ t.opc = s.opc ∧ t.expTail = s.expTail ∧ t.dmemSize = s.dmemSize ∧
    t.inView = s.inView ∧ t.outKeep = s.outKeep ∧ t.turns = s.turns ∧ t.readData = s.readData

/-- R38, R39, R43, R44, R155, R170, R175: the frame of every command: which command may change RESULT, OOB, a context, a slot
or DMEM. Every other one leaves it as it is, every byte of DMEM included. -/
def Obligations.OnlyTheNamedCommandsChangeState : Prop :=
  ∀ (i : Instr) (s t : State), exec i s = .next t →
    (producesValue i = false → t.result = s.result) ∧
    (maySetOob i = false → t.oob = s.oob) ∧
    (∀ w, i ≠ .init w → t.ctx w = s.ctx w) ∧
    ((∀ w k, i ≠ .rtBuild w k) → i ≠ .rtRel → t.rt = s.rt) ∧
    ((∀ w k, i ≠ .splBuild w k) → i ≠ .splRel → t.spl = s.spl) ∧
    ((∀ w k, i ≠ .nibBuild w k) → i ≠ .nibRel → t.nib = s.nib) ∧
    ((∀ l, i ≠ .vlookup l) → ∀ a, Memory.get? t.dmem a = Memory.get? s.dmem a)

/-- R252: a command that ends with an error changes nothing but ERRCODE, DONE and BUSY; nor does a word that is no command. -/
def Obligations.FailedCommandChangesNothingElse : Prop :=
  ∀ s t : State, t.errcode ≠ .success → ((∃ i, exec i s = .next t) ∨ runCommand s = .next t) →
    t = { s with errcode := t.errcode, done := true, busy := false }

/-- R253, R250, R104: the error a command reports is the first of its checks that fails, in the order of R253; it succeeds
exactly when none fails. That an ill-formed term of SPL_RD or NIB_RD, which no word decodes to, raises E_RSVD is the model's
choice (log 20). -/
def Obligations.CommandReportsTheFirstFailingCheck : Prop :=
  ∀ (i : Instr) (s : State), StateInv s → ∃ t, exec i s = .next t ∧ t.errcode = firstError i s

/-! ## Encoding -/

/-- R102, R105, R106: the word of every well-formed command decodes to it. -/
def Obligations.DecodeOfEncodeIsTheCommand : Prop :=
  ∀ i : Instr, i.wellFormed = true → decode (encode i) = .ok i

/-- R102, R105, R106: a word that decodes is the word of its command, which is well formed: no two words mean one command. -/
def Obligations.EncodeOfDecodeIsTheWord : Prop :=
  ∀ (c : Word) (i : Instr), decode c = .ok i → i.wellFormed = true ∧ encode i = c

/-- R102, R103, R105, R106: each row of the opcode table by its match and mask, and the fields of its command by the bits of
the word: WSEL is bit 8 (1 for W = 16), KIND bits 10:9, LANE bit 11 (1 for 256-bit), SEL bits 15:12. A word whose masked bits
are the row's match decodes to that command with these fields, and no other word does. -/
def Obligations.OpcodeTableMatchesAndMasks : Prop :=
  ∀ (c : Word),
    let w : Width := if c.getLsbD 8 = true then .w16 else .w8
    let kind : Option Kind :=
      if c.extractLsb' 9 2 = 0#2 then some .mul else if c.extractLsb' 9 2 = 1#2 then some .divAByX
      else if c.extractLsb' 9 2 = 2#2 then some .divXByA else none
    let lane : Lane := if c.getLsbD 11 = true then .l256 else .l128
    let sel : BitVec 4 := c.extractLsb' 12 4
    ∀ (m k : Word) (i : Instr), (m, k, i) ∈
      ([(0x00000001, 0xFFFFFEFF, .init w), (0x00000002, 0xFFFFFEFF, .expRd w), (0x00000003, 0xFFFFFEFF, .idxRd w),
        (0x00000010, 0xFFFFFEFF, .mul w), (0x00000011, 0xFFFFFEFF, .div w),
        (0x00000012, 0xFFFFFEFF, .mulz w), (0x00000013, 0xFFFFFEFF, .divz w),
        (0x00000020, 0xFFFFF8FF, .rtBuild w kind), (0x00000021, 0xFFFFFFFF, .rtRd), (0x00000022, 0xFFFFFFFF, .rtRel),
        (0x00000028, 0xFFFFF8FF, .splBuild w kind), (0x00000029, 0xFFFFEFFF, .splRd sel),
        (0x0000002A, 0xFFFFFFFF, .splLookup), (0x0000002B, 0xFFFFFFFF, .splRel),
        (0x00000030, 0xFFFFF8FF, .nibBuild w kind), (0x00000031, 0xFFFF8FFF, .nibRd sel),
        (0x00000032, 0xFFFFFFFF, .nibRel), (0x00000038, 0xFFFFF7FF, .vlookup lane)] : List (Word × Word × Instr)) →
      (c &&& k = m ↔ decode c = .ok i)

/-- R107: a word is illegal exactly when its opcode is in one of the undefined ranges of R107. -/
def Obligations.UndefinedOpcodesAreTheListedOnes : Prop :=
  ∀ c : Word, let op := c.toNat % 256
    decode c = .error .illegal ↔
      op = 0 ∨ (0x04 ≤ op ∧ op ≤ 0x0F) ∨ (0x14 ≤ op ∧ op ≤ 0x1F) ∨ (0x23 ≤ op ∧ op ≤ 0x27) ∨
      (0x2C ≤ op ∧ op ≤ 0x2F) ∨ (0x33 ≤ op ∧ op ≤ 0x37) ∨ 0x39 ≤ op

/-- R108, R110: words written out from the encoding tables. -/
def Obligations.SampleWordsDecode : Prop :=
  decode 0x00000101#32 = .ok (.init .w16) ∧ decode 0x00000110#32 = .ok (.mul .w16) ∧
  decode 0x00000520#32 = .ok (.rtBuild .w16 (some .divXByA)) ∧
  decode 0x00001029#32 = .ok (.splRd 1#4) ∧ decode 0x00005031#32 = .ok (.nibRd 5#4) ∧
  decode 0x00000838#32 = .ok (.vlookup .l256) ∧ decode 0x00010110#32 = .error .rsvd ∧
  decode 0x00000000#32 = .error .illegal

/-! ## The Field Table Builder -/

/-- R130, R131, R132, R134: INIT of a context that is not built succeeds, for both widths, and the tables hold the powers of 2
twice and then zeros, the sentinel at 0, and the exponent of each other element. -/
def Obligations.InitBuildsPowersAndLogarithms : Prop :=
  ∀ (w : Width) (s : State), s.ready w = false →
    ∃ t c, exec (.init w) s = .next t ∧ t.errcode = .success ∧ t.ctx w = some c ∧
      c.exp.size = 2 * (w.order - 1) + s.expTail.toNat ∧
      (∀ i, i < w.order - 1 →
        c.expAt (i : Nat) = some (BitVec.ofNat w.bits ((xtimes w)^[i] 1)) ∧
        c.expAt (w.order - 1 + i : Nat) = c.expAt (i : Nat)) ∧
      (∀ i, 2 * (w.order - 1) ≤ i → i < 2 * (w.order - 1) + s.expTail.toNat →
        c.expAt (i : Nat) = some 0#w.bits) ∧
      c.idxAt 0#w.bits = 2 * (w.order - 1) - 1 ∧
      (∀ v, v ≠ 0#w.bits → c.idxAt v < w.order - 1 ∧ (xtimes w)^[c.idxAt v] 1 = v.toNat) ∧
      ∀ w', w' ≠ w → t.ctx w' = s.ctx w'

/-- R133: the two tables of a built context are inverse to each other. -/
def Obligations.ExponentAndIndexTablesAreInverse : Prop :=
  ∀ (w : Width) (s : State) (c : FieldCtx w.bits), StateInv s → s.ctx w = some c →
    (∀ v, v ≠ 0#w.bits → c.expAt (c.idxAt v : Nat) = some v) ∧
    (∀ i, i < w.order - 1 → ∃ v, c.expAt (i : Nat) = some v ∧ c.idxAt v = i)

/-- R137: what EXP_RD answers for every index, and E_RANGE past the table. -/
def Obligations.ExpRdReadsThePowerTable : Prop :=
  ∀ (w : Width) (s : State), StateInv s → s.ready w = true →
    ∃ t, exec (.expRd w) s = .next t ∧ t.oob = s.oob ∧
      if s.lopb.toNat < 2 * (w.order - 1) then
        t.errcode = .success ∧ t.result.toNat = (xtimes w)^[s.lopb.toNat] 1
      else if s.lopb.toNat < 2 * (w.order - 1) + s.expTail.toNat then
        t.errcode = .success ∧ t.result = 0#32
      else t.errcode = .range ∧ t.result = s.result

/-- R138: what IDX_RD answers for every element, and E_RANGE for any other operand. -/
def Obligations.IdxRdReadsTheLogarithm : Prop :=
  ∀ (w : Width) (s : State), StateInv s → s.ready w = true →
    ∃ t, exec (.idxRd w) s = .next t ∧
      if s.lopb.toNat = 0 then t.errcode = .success ∧ t.result.toNat = 2 * (w.order - 1) - 1
      else if s.lopb.toNat < w.order then
        t.errcode = .success ∧ t.result.toNat < w.order - 1 ∧
          (xtimes w)^[t.result.toNat] 1 = s.lopb.toNat
      else t.errcode = .range ∧ t.result = s.result

/-! ## Scalar arithmetic -/

/-- R150, R20: MUL of nonzero elements is the field product, and no read is out of range. -/
def Obligations.MulOfNonzeroIsTheFieldProduct : Prop :=
  ∀ (w : Width) (s : State), StateInv s → s.ready w = true →
    s.lopa.toNat < w.order → s.lopb.toNat < w.order → s.lopa ≠ 0#32 → s.lopb ≠ 0#32 →
    ∃ t, exec (.mul w) s = .next t ∧ t.errcode = .success ∧ t.oob = s.oob ∧
      t.result.toNat = gfmul w s.lopa.toNat s.lopb.toNat

/-- R150, R16: MUL with a zero operand: g^(N-2) beside 1, 0 where the index falls into the zero tail, and otherwise a draw, of which
only OOB and that it is a W-bit value are known. -/
def Obligations.MulWithAZeroOperand : Prop :=
  ∀ (w : Width) (s : State), StateInv s → s.ready w = true →
    (∀ i, i < w.order - 1 →
      (s.lopa = 0#32 ∧ s.lopb.toNat = (xtimes w)^[i] 1) ∨ (s.lopb = 0#32 ∧ s.lopa.toNat = (xtimes w)^[i] 1) →
      ∃ t, exec (.mul w) s = .next t ∧ t.errcode = .success ∧
        if i = 0 then t.oob = s.oob ∧ t.result.toNat = (xtimes w)^[w.order - 2] 1
        else if i ≤ s.expTail.toNat then t.oob = s.oob ∧ t.result = 0#32
        else t.oob = true ∧ t.result.toNat < w.order) ∧
    (s.lopa = 0#32 → s.lopb = 0#32 →
      ∃ t, exec (.mul w) s = .next t ∧ t.errcode = .success ∧
        if 2 * w.order - 3 ≤ s.expTail.toNat then t.oob = s.oob ∧ t.result = 0#32
        else t.oob = true ∧ t.result.toNat < w.order)

/-- R151, R20: DIV of nonzero elements is the field quotient, and no read is out of range. -/
def Obligations.DivOfNonzeroIsTheFieldQuotient : Prop :=
  ∀ (w : Width) (s : State), StateInv s → s.ready w = true →
    s.lopa.toNat < w.order → s.lopb.toNat < w.order → s.lopa ≠ 0#32 → s.lopb ≠ 0#32 →
    ∃ t, exec (.div w) s = .next t ∧ t.errcode = .success ∧ t.oob = s.oob ∧
      isGfdiv w s.lopa.toNat s.lopb.toNat t.result.toNat

/-- R151, R16: DIV with a zero operand: no error for b = 0; 0 in the zero tail, 1 where the index is 0 or N-1, and otherwise a
draw, of which only OOB and that it is a W-bit value are known. -/
def Obligations.DivWithAZeroOperand : Prop :=
  ∀ (w : Width) (s : State), StateInv s → s.ready w = true →
    (∀ i, i < w.order - 1 → s.lopa = 0#32 → s.lopb.toNat = (xtimes w)^[i] 1 →
      ∃ t, exec (.div w) s = .next t ∧ t.errcode = .success ∧
        if w.order - 2 < i + s.expTail.toNat then t.oob = s.oob ∧ t.result = 0#32
        else t.oob = true ∧ t.result.toNat < w.order) ∧
    (∀ i, i < w.order - 1 → s.lopb = 0#32 → s.lopa.toNat = (xtimes w)^[i] 1 →
      ∃ t, exec (.div w) s = .next t ∧ t.errcode = .success ∧
        if i = w.order - 2 then t.oob = s.oob ∧ t.result = 1#32
        else t.oob = true ∧ t.result.toNat < w.order) ∧
    (s.lopa = 0#32 → s.lopb = 0#32 →
      ∃ t, exec (.div w) s = .next t ∧ t.errcode = .success ∧ t.oob = s.oob ∧ t.result = 1#32)

/-- R152: MULZ is the field product for every pair of elements, zero included, and never sets OOB. -/
def Obligations.MulzIsTheFieldProduct : Prop :=
  ∀ (w : Width) (s : State), StateInv s → s.ready w = true →
    s.lopa.toNat < w.order → s.lopb.toNat < w.order →
    ∃ t, exec (.mulz w) s = .next t ∧ t.errcode = .success ∧ t.oob = s.oob ∧
      t.result.toNat = gfmul w s.lopa.toNat s.lopb.toNat

/-- R153: DIVZ is the field quotient for every nonzero divisor, raises E_DIV0 for the divisor 0, and never sets OOB. -/
def Obligations.DivzIsTheFieldQuotient : Prop :=
  ∀ (w : Width) (s : State), StateInv s → s.ready w = true →
    s.lopa.toNat < w.order → s.lopb.toNat < w.order →
    ∃ t, exec (.divz w) s = .next t ∧ t.oob = s.oob ∧
      if s.lopb = 0#32 then t.errcode = .div0 ∧ t.result = s.result
      else t.errcode = .success ∧ isGfdiv w s.lopa.toNat s.lopb.toNat t.result.toNat

/-- R154: dividing a product of nonzero elements by either factor gives the other one, on the fast path. -/
def Obligations.DivisionUndoesMultiplication : Prop :=
  ∀ (w : Width) (s : State), StateInv s → s.ready w = true →
    s.lopa.toNat < w.order → s.lopb.toNat < w.order → s.lopa ≠ 0#32 → s.lopb ≠ 0#32 →
    ∃ t u v, exec (.mul w) s = .next t ∧
      exec (.div w) { s with lopa := t.result } = .next u ∧ u.result = s.lopa ∧
      exec (.div w) { s with lopa := t.result, lopb := s.lopa } = .next v ∧ v.result = s.lopb

/-! ## Region tables -/

/-- R170, R173: RT_BUILD into an empty slot succeeds, records its width, kind and coefficient, and for a nonzero coefficient
every entry but the one for 0 is the exact result of its kind. -/
def Obligations.FullTableHoldsExactResults : Prop :=
  ∀ (w : Width) (k : Kind) (s : State), StateInv s → s.ready w = true → s.rt = none → s.lopa.toNat < w.order →
    ∃ t ft, exec (.rtBuild w (some k)) s = .next t ∧ t.errcode = .success ∧ t.rt = some ft ∧
      ft.width = w ∧ ft.kind = k ∧ ft.coef.toNat = s.lopa.toNat ∧
      (s.lopa ≠ 0#32 → ∀ x, x < w.order → x ≠ 0 →
        ∃ y, ft.entries[x]? = some y ∧ KindResult w k s.lopa.toNat x y.toNat)

/-- R171, R172, R170: every entry of a full table is what the scalar command of its kind answers, wherever that command's read
is in range, the entry for 0 and the coefficient 0 included; RT_BUILD sets OOB exactly when some entry's read is out of
range. -/
def Obligations.FullTableAgreesWithTheFastPath : Prop :=
  ∀ (w : Width) (k : Kind) (s : State), StateInv s → s.ready w = true → s.rt = none → s.lopa.toNat < w.order →
    ∃ t ft, exec (.rtBuild w (some k)) s = .next t ∧ t.rt = some ft ∧
      (∀ x, x < w.order → ∃ u y, entryCommand w k (BitVec.ofNat 32 x) s = .next u ∧
        ft.entries[x]? = some y ∧ (u.oob = false → u.result = y.setWidth 32)) ∧
      (t.oob = true ↔ s.oob = true ∨
        ∃ x u, x < w.order ∧ entryCommand w k (BitVec.ofNat 32 x) s = .next u ∧ u.oob = true)

/-- R174: RT_RD answers the entry of the held table for every operand in range. -/
def Obligations.RtRdReadsTheEntry : Prop :=
  ∀ (s : State) (ft : FullTable), s.rt = some ft → s.lopb.toNat < ft.width.order →
    ∃ t y, exec .rtRd s = .next t ∧ t.errcode = .success ∧
      ft.entries[s.lopb.toNat]? = some y ∧ t.result.toNat = y.toNat

/-- R175, R195, R214: a release of a held slot empties it and nothing else, and the same release again raises E_NOTABLE. -/
def Obligations.ReleaseEmptiesTheSlot : Prop :=
  ∀ s : State,
    (s.rt.isSome = true → ∃ t u, exec .rtRel s = .next t ∧ t.errcode = .success ∧
      t.rt = none ∧ t.spl = s.spl ∧ t.nib = s.nib ∧ exec .rtRel t = .next u ∧ u.errcode = .noTable) ∧
    (s.spl.isSome = true → ∃ t u, exec .splRel s = .next t ∧ t.errcode = .success ∧
      t.spl = none ∧ t.rt = s.rt ∧ t.nib = s.nib ∧ exec .splRel t = .next u ∧ u.errcode = .noTable) ∧
    (s.nib.isSome = true → ∃ t u, exec .nibRel s = .next t ∧ t.errcode = .success ∧
      t.nib = none ∧ t.rt = s.rt ∧ t.spl = s.spl ∧ exec .nibRel t = .next u ∧ u.errcode = .noTable)

/-- R190, R191: SPL_BUILD into an empty slot succeeds and holds the exact results for every low and every high byte, and never
sets OOB. -/
def Obligations.SplitTablesHoldExactResults : Prop :=
  ∀ (k : Kind) (lk : LinKind) (s : State), StateInv s → k.linear? = some lk → s.ready .w16 = true → s.spl = none →
    s.lopa.toNat < 65536 → ¬(k = .divXByA ∧ s.lopa = 0#32) →
    ∃ t sp, exec (.splBuild .w16 (some k)) s = .next t ∧ t.errcode = .success ∧ t.oob = s.oob ∧
      t.spl = some sp ∧ sp.kind = lk ∧ sp.coef.toNat = s.lopa.toNat ∧
      ∀ v, v < 256 → ∃ lo hi, sp.lo[v]? = some lo ∧ sp.hi[v]? = some hi ∧
        LinResult lk s.lopa.toNat v lo.toNat ∧ LinResult lk s.lopa.toNat (v * 256) hi.toNat

/-- R193: SPL_RD answers the entry of the low or the high table, as bit 12 of the word says. -/
def Obligations.SplRdReadsTheChosenTable : Prop :=
  ∀ (s : State) (sp : SplitTable), s.spl = some sp → s.lopb.toNat < 256 →
    (∃ t y, exec (.splRd 0#4) s = .next t ∧ t.errcode = .success ∧ sp.lo[s.lopb.toNat]? = some y ∧
      t.result.toNat = y.toNat) ∧
    (∃ t y, exec (.splRd 1#4) s = .next t ∧ t.errcode = .success ∧ sp.hi[s.lopb.toNat]? = some y ∧
      t.result.toNat = y.toNat)

/-- R192, R194: SPL_LOOKUP answers the exact result of the held kind and coefficient for every 16-bit operand. -/
def Obligations.SplitLookupIsExact : Prop :=
  ∀ (s : State) (sp : SplitTable), StateInv s → s.spl = some sp → s.lopb.toNat < 65536 →
    ∃ t, exec .splLookup s = .next t ∧ t.errcode = .success ∧
      LinResult sp.kind sp.coef.toNat s.lopb.toNat t.result.toNat

/-- R210, R211: NIB_BUILD into an empty slot succeeds; NT(2p) holds the low bytes and NT(2p+1) the high bytes of the exact
results for the nibble at position p; OOB is never set. -/
def Obligations.NibbleTablesHoldExactResults : Prop :=
  ∀ (k : Kind) (lk : LinKind) (s : State), StateInv s → k.linear? = some lk → s.ready .w16 = true → s.nib = none →
    s.lopa.toNat < 65536 → ¬(k = .divXByA ∧ s.lopa = 0#32) →
    ∃ t nb, exec (.nibBuild .w16 (some k)) s = .next t ∧ t.errcode = .success ∧ t.oob = s.oob ∧
      t.nib = some nb ∧ nb.kind = lk ∧ nb.coef.toNat = s.lopa.toNat ∧
      ∀ p n, p < 4 → n < 16 → ∃ (y : BitVec 16) (lo hi : Vector Byte 16),
        LinResult lk s.lopa.toNat (n * 2 ^ (4 * p)) y.toNat ∧
        nb.nt[2 * p]? = some lo ∧ nb.nt[2 * p + 1]? = some hi ∧
        lo[n]? = some (y.extractLsb' 0 8) ∧ hi[n]? = some (y.extractLsb' 8 8)

/-- R213: NIB_RD answers the entry of the table that bits 14:12 of the word name. -/
def Obligations.NibRdReadsTheChosenTable : Prop :=
  ∀ (s : State) (nb : NibTable) (sel : BitVec 4), s.nib = some nb → sel.toNat < 8 → s.lopb.toNat < 16 →
    ∃ t v y, exec (.nibRd sel) s = .next t ∧ t.errcode = .success ∧
      nb.nt[sel.toNat]? = some v ∧ v[s.lopb.toNat]? = some y ∧ t.result.toNat = y.toNat

/-- R212: the XOR of the four gathers of each result byte is that byte of the exact result, for every 16-bit operand. -/
def Obligations.NibbleTablesCombineToTheResult : Prop :=
  ∀ (s : State) (nb : NibTable) (x : BitVec 16), StateInv s → s.nib = some nb →
    ∃ y : BitVec 16, LinResult nb.kind nb.coef.toNat x.toNat y.toNat ∧
      nb.gather 0 (x.extractLsb' 0 4) ^^^ nb.gather 2 (x.extractLsb' 4 4) ^^^
        nb.gather 4 (x.extractLsb' 8 4) ^^^ nb.gather 6 (x.extractLsb' 12 4) = y.extractLsb' 0 8 ∧
      nb.gather 1 (x.extractLsb' 0 4) ^^^ nb.gather 3 (x.extractLsb' 4 4) ^^^
        nb.gather 5 (x.extractLsb' 8 4) ^^^ nb.gather 7 (x.extractLsb' 12 4) = y.extractLsb' 8 8

/-! ## The vectorized lookup -/

/-- R230, R232, R74: VLOOKUP with even addresses and both chunks inside DMEM succeeds and changes no DMEM byte outside the
output chunk at LOPC; where no host access races, every output element is the gather XOR of two input bytes, each the byte of
DMEM before the command, so overlapping chunks are defined too, or a draw where nothing has written that byte. -/
def Obligations.VlookupWritesTheOutputChunk : Prop :=
  ∀ (lane : Lane) (s : State) (nb : NibTable), StateInv s → s.nib = some nb →
    s.lopb.toNat % 2 = 0 → s.lopc.toNat % 2 = 0 →
    s.lopb.toNat + lane.bytes ≤ s.dmemSize.toNat → s.lopc.toNat + lane.bytes ≤ s.dmemSize.toNat →
    ∃ t, exec (.vlookup lane) s = .next t ∧ t.errcode = .success ∧
      (∀ a, a < s.lopc.toNat ∨ s.lopc.toNat + lane.bytes ≤ a →
        Memory.get? t.dmem a = Memory.get? s.dmem a) ∧
      (s.inView = [] → s.outKeep = [] → ∀ j, j < lane.elements → ∃ lo hi : Byte,
        (∀ b, Memory.get? s.dmem (s.lopb.toNat + 2 * j) = some b → lo = b) ∧
        (∀ b, Memory.get? s.dmem (s.lopb.toNat + 2 * j + 1) = some b → hi = b) ∧
        Memory.get? t.dmem (s.lopc.toNat + 2 * j) =
          some (nb.gather 0 (lo.extractLsb' 0 4) ^^^ nb.gather 2 (lo.extractLsb' 4 4) ^^^
            nb.gather 4 (hi.extractLsb' 0 4) ^^^ nb.gather 6 (hi.extractLsb' 4 4)) ∧
        Memory.get? t.dmem (s.lopc.toNat + 2 * j + 1) =
          some (nb.gather 1 (lo.extractLsb' 0 4) ^^^ nb.gather 3 (lo.extractLsb' 4 4) ^^^
            nb.gather 5 (hi.extractLsb' 0 4) ^^^ nb.gather 7 (hi.extractLsb' 4 4)))

/-- R234, R74: without a race, every output element of a VLOOKUP is the exact field result for its input element, whose bytes
are those of DMEM before the command, or draws where nothing has written them. -/
def Obligations.VlookupIsExact : Prop :=
  ∀ (lane : Lane) (s : State) (nb : NibTable), StateInv s → s.nib = some nb →
    s.lopb.toNat % 2 = 0 → s.lopc.toNat % 2 = 0 →
    s.lopb.toNat + lane.bytes ≤ s.dmemSize.toNat → s.lopc.toNat + lane.bytes ≤ s.dmemSize.toNat →
    s.inView = [] → s.outKeep = [] →
    ∃ t, exec (.vlookup lane) s = .next t ∧ t.errcode = .success ∧
      ∀ j, j < lane.elements → ∃ lo hi y0 y1 : Byte,
        (∀ b, Memory.get? s.dmem (s.lopb.toNat + 2 * j) = some b → lo = b) ∧
        (∀ b, Memory.get? s.dmem (s.lopb.toNat + 2 * j + 1) = some b → hi = b) ∧
        Memory.get? t.dmem (s.lopc.toNat + 2 * j) = some y0 ∧
        Memory.get? t.dmem (s.lopc.toNat + 2 * j + 1) = some y1 ∧
        LinResult nb.kind nb.coef.toNat (lo.toNat + 256 * hi.toNat) (y0.toNat + 256 * y1.toNat)

/-- R79, for a host read of any width: each byte it gives is the byte of DMEM (a draw where nothing has written it), or, in
the output chunk of a running VLOOKUP, the byte that command is going to write (`State.promise`, log 11); the bits above a
narrow read are 0 (the model's reading, log 15). And the promise is kept: a step that leaves the VLOOKUP running leaves it
unchanged, and in a step that completes it every output byte is the promised one, or the byte a racing host write has left
there. -/
def Obligations.RacingReadGivesOldOrNew : Prop :=
  (∀ (s : State) (size : AccessSize) (a : Nat),
    a % AccessSize.bytes size = 0 → a + AccessSize.bytes size ≤ s.dmemSize.toNat →
    ∃ (t : State) (b : Nat → Byte), s.hostRead size (0x1000 + a) = .next t ∧
      t.readData.toNat = ∑ k ∈ Finset.range (AccessSize.bytes size), (b k).toNat * 2 ^ (8 * k) ∧
      ∀ k, k < AccessSize.bytes size →
        (∀ old, Memory.get? s.dmem (a + k) = some old → b k = old) ∨
        ∃ l, RunningLookup s l ∧ l.dst ≤ a + k ∧ a + k < l.dst + l.lane.bytes ∧
          (s.promise l)[a + k - l.dst]? = some (b k)) ∧
  ∀ (s t : State) (l : Lookup), StateInv s → RunningLookup s l → step s = .next t →
    (t.busy = true → RunningLookup t l ∧ t.promise l = s.promise l) ∧
    (t.done = true → ∃ s1, s.hostStep s.nextTurn.event = .next s1 ∧
      ∀ a, l.dst ≤ a → a < l.dst + l.lane.bytes →
        Memory.get? t.dmem a = if a ∈ s1.outKeep then Memory.get? s1.dmem a else (s.promise l)[a - l.dst]?)

/-- R79, for a host write of any width during a running VLOOKUP (log 10). A written byte of the input chunk reaches the command
or does not: the command will read the new byte or the one it would have read before. At a written byte of the output chunk
the host's byte or the command's is there after the completion. At every other address of the output chunk the command's byte
is there, or the byte an earlier racing write has left (`outKeep`), and every other address is as if the command had not
run. -/
def Obligations.RacingWriteReachesOrNot : Prop :=
  ∀ (s : State) (l : Lookup) (size : AccessSize) (a : Nat) (v : Word), StateInv s → RunningLookup s l →
    a % AccessSize.bytes size = 0 → a + AccessSize.bytes size ≤ s.dmemSize.toNat →
    ∃ t u, s.hostWrite size (0x1000 + a) v = .next t ∧ exec (.vlookup l.lane) t = .next u ∧ u.errcode = .success ∧
      (∀ k, k < AccessSize.bytes size →
        Memory.get? t.dmem (a + k) = some (v.extractLsb' (8 * k) 8) ∧
        (l.src ≤ a + k → a + k < l.src + l.lane.bytes →
          (∀ n, t.engineByte n (a + k) = v.extractLsb' (8 * k) 8) ∨
          (∀ n, t.engineByte n (a + k) = s.engineByte s.draws (a + k))) ∧
        (l.dst ≤ a + k → a + k < l.dst + l.lane.bytes →
          Memory.get? u.dmem (a + k) = some (v.extractLsb' (8 * k) 8) ∨
          Memory.get? u.dmem (a + k) = (l.output t t.draws)[a + k - l.dst]?) ∧
        (a + k < l.dst ∨ l.dst + l.lane.bytes ≤ a + k →
          Memory.get? u.dmem (a + k) = some (v.extractLsb' (8 * k) 8))) ∧
      ∀ b, b < a ∨ a + AccessSize.bytes size ≤ b →
        Memory.get? t.dmem b = Memory.get? s.dmem b ∧ (∀ n, t.engineByte n b = s.engineByte n b) ∧
        Memory.get? u.dmem b =
          if l.dst ≤ b ∧ b < l.dst + l.lane.bytes ∧ b ∉ s.outKeep then (l.output t t.draws)[b - l.dst]?
          else Memory.get? s.dmem b

/-! ## Invariants of every step -/

/-- The invariant holds at reset (R10, R43, R48, R54). -/
def Obligations.ResetMeetsTheInvariant : Prop := StateInv State.reset

/-- Every step keeps the invariant: the canonical form and bounds of DMEM, the contents of every built table (R44, R48), and
the flags of a running command (R35, R50). -/
def Obligations.StepKeepsTheInvariant : Prop :=
  ∀ s t, StateInv s → step s = .next t → StateInv t

/-- R44, R281: a built context is immutable: after a step it is the same, or a reset has dropped it. -/
def Obligations.ContextsAreImmutableUntilReset : Prop :=
  ∀ (s t : State) (w : Width) (c : FieldCtx w.bits), step s = .next t → s.ctx w = some c →
    t.ctx w = some c ∨
      (t.ctx w = none ∧
        (s.nextTurn.event = .reset ∨ ∃ v, s.nextTurn.event = .write .b32 0x004 v ∧ v.getLsbD 1 = true))
end

