-- ==== Sys2Proof/Laws/State.lean ====
section
/-! SUPPORT. For each update of the state, one lemma per field: what it holds afterwards. With them no proof unfolds a
record update. -/

namespace Sys2Proof.Machine

section Accept

variable (s : State) (c : Word)

@[simp] theorem accept_irqEn : (s.accept c).irqEn = s.irqEn := rfl
@[simp] theorem accept_busy : (s.accept c).busy = true := rfl
@[simp] theorem accept_done : (s.accept c).done = false := rfl
@[simp] theorem accept_errcode : (s.accept c).errcode = .success := rfl
@[simp] theorem accept_oob : (s.accept c).oob = s.oob := rfl
@[simp] theorem accept_ovr : (s.accept c).ovr = s.ovr := rfl
@[simp] theorem accept_lcmd : (s.accept c).lcmd = c := rfl
@[simp] theorem accept_lopa : (s.accept c).lopa = s.opa := rfl
@[simp] theorem accept_lopb : (s.accept c).lopb = s.opb := rfl
@[simp] theorem accept_lopc : (s.accept c).lopc = s.opc := rfl
@[simp] theorem accept_opa : (s.accept c).opa = s.opa := rfl
@[simp] theorem accept_opb : (s.accept c).opb = s.opb := rfl
@[simp] theorem accept_opc : (s.accept c).opc = s.opc := rfl
@[simp] theorem accept_result : (s.accept c).result = s.result := rfl
@[simp] theorem accept_expTail : (s.accept c).expTail = s.expTail := rfl
@[simp] theorem accept_dmemSize : (s.accept c).dmemSize = s.dmemSize := rfl
@[simp] theorem accept_ctx8 : (s.accept c).ctx8 = s.ctx8 := rfl
@[simp] theorem accept_ctx16 : (s.accept c).ctx16 = s.ctx16 := rfl
@[simp] theorem accept_rt : (s.accept c).rt = s.rt := rfl
@[simp] theorem accept_spl : (s.accept c).spl = s.spl := rfl
@[simp] theorem accept_nib : (s.accept c).nib = s.nib := rfl
@[simp] theorem accept_dmem : (s.accept c).dmem = s.dmem := rfl
@[simp] theorem accept_inView : (s.accept c).inView = [] := rfl
@[simp] theorem accept_outKeep : (s.accept c).outKeep = [] := rfl
@[simp] theorem accept_turns : (s.accept c).turns = s.turns := rfl
@[simp] theorem accept_readData : (s.accept c).readData = s.readData := rfl
@[simp] theorem accept_draws : (s.accept c).draws = s.draws := rfl
@[simp] theorem accept_ctx (w : Width) : (s.accept c).ctx w = s.ctx w := by cases w <;> rfl

end Accept

section Complete

variable (s : State) (e : ErrCode)

@[simp] theorem complete_irqEn : (s.complete e).irqEn = s.irqEn := rfl
@[simp] theorem complete_busy : (s.complete e).busy = false := rfl
@[simp] theorem complete_done : (s.complete e).done = true := rfl
@[simp] theorem complete_errcode : (s.complete e).errcode = e := rfl
@[simp] theorem complete_oob : (s.complete e).oob = s.oob := rfl
@[simp] theorem complete_ovr : (s.complete e).ovr = s.ovr := rfl
@[simp] theorem complete_lcmd : (s.complete e).lcmd = s.lcmd := rfl
@[simp] theorem complete_lopa : (s.complete e).lopa = s.lopa := rfl
@[simp] theorem complete_lopb : (s.complete e).lopb = s.lopb := rfl
@[simp] theorem complete_lopc : (s.complete e).lopc = s.lopc := rfl
@[simp] theorem complete_opa : (s.complete e).opa = s.opa := rfl
@[simp] theorem complete_opb : (s.complete e).opb = s.opb := rfl
@[simp] theorem complete_opc : (s.complete e).opc = s.opc := rfl
@[simp] theorem complete_result : (s.complete e).result = s.result := rfl
@[simp] theorem complete_expTail : (s.complete e).expTail = s.expTail := rfl
@[simp] theorem complete_dmemSize : (s.complete e).dmemSize = s.dmemSize := rfl
@[simp] theorem complete_ctx8 : (s.complete e).ctx8 = s.ctx8 := rfl
@[simp] theorem complete_ctx16 : (s.complete e).ctx16 = s.ctx16 := rfl
@[simp] theorem complete_rt : (s.complete e).rt = s.rt := rfl
@[simp] theorem complete_spl : (s.complete e).spl = s.spl := rfl
@[simp] theorem complete_nib : (s.complete e).nib = s.nib := rfl
@[simp] theorem complete_dmem : (s.complete e).dmem = s.dmem := rfl
@[simp] theorem complete_inView : (s.complete e).inView = s.inView := rfl
@[simp] theorem complete_outKeep : (s.complete e).outKeep = s.outKeep := rfl
@[simp] theorem complete_turns : (s.complete e).turns = s.turns := rfl
@[simp] theorem complete_readData : (s.complete e).readData = s.readData := rfl
@[simp] theorem complete_draws : (s.complete e).draws = s.draws := rfl
@[simp] theorem complete_ctx (w : Width) : (s.complete e).ctx w = s.ctx w := by cases w <;> rfl

end Complete

section Raise

variable (s : State) (e : ErrCode)

@[simp] theorem raise_irqEn : (s.raise e).irqEn = s.irqEn := rfl
@[simp] theorem raise_busy : (s.raise e).busy = false := rfl
@[simp] theorem raise_done : (s.raise e).done = true := rfl
@[simp] theorem raise_errcode : (s.raise e).errcode = e := rfl
@[simp] theorem raise_oob : (s.raise e).oob = s.oob := rfl
@[simp] theorem raise_ovr : (s.raise e).ovr = s.ovr := rfl
@[simp] theorem raise_lcmd : (s.raise e).lcmd = s.lcmd := rfl
@[simp] theorem raise_lopa : (s.raise e).lopa = s.lopa := rfl
@[simp] theorem raise_lopb : (s.raise e).lopb = s.lopb := rfl
@[simp] theorem raise_lopc : (s.raise e).lopc = s.lopc := rfl
@[simp] theorem raise_opa : (s.raise e).opa = s.opa := rfl
@[simp] theorem raise_opb : (s.raise e).opb = s.opb := rfl
@[simp] theorem raise_opc : (s.raise e).opc = s.opc := rfl
@[simp] theorem raise_result : (s.raise e).result = s.result := rfl
@[simp] theorem raise_expTail : (s.raise e).expTail = s.expTail := rfl
@[simp] theorem raise_dmemSize : (s.raise e).dmemSize = s.dmemSize := rfl
@[simp] theorem raise_ctx8 : (s.raise e).ctx8 = s.ctx8 := rfl
@[simp] theorem raise_ctx16 : (s.raise e).ctx16 = s.ctx16 := rfl
@[simp] theorem raise_rt : (s.raise e).rt = s.rt := rfl
@[simp] theorem raise_spl : (s.raise e).spl = s.spl := rfl
@[simp] theorem raise_nib : (s.raise e).nib = s.nib := rfl
@[simp] theorem raise_dmem : (s.raise e).dmem = s.dmem := rfl
@[simp] theorem raise_inView : (s.raise e).inView = s.inView := rfl
@[simp] theorem raise_outKeep : (s.raise e).outKeep = s.outKeep := rfl
@[simp] theorem raise_turns : (s.raise e).turns = s.turns := rfl
@[simp] theorem raise_readData : (s.raise e).readData = s.readData := rfl
@[simp] theorem raise_draws : (s.raise e).draws = s.draws := rfl
@[simp] theorem raise_ctx (w : Width) : (s.raise e).ctx w = s.ctx w := by cases w <;> rfl

end Raise

section Succeed

variable (s : State)

@[simp] theorem succeed_irqEn : (s.succeed).irqEn = s.irqEn := rfl
@[simp] theorem succeed_busy : (s.succeed).busy = false := rfl
@[simp] theorem succeed_done : (s.succeed).done = true := rfl
@[simp] theorem succeed_errcode : (s.succeed).errcode = .success := rfl
@[simp] theorem succeed_oob : (s.succeed).oob = s.oob := rfl
@[simp] theorem succeed_ovr : (s.succeed).ovr = s.ovr := rfl
@[simp] theorem succeed_lcmd : (s.succeed).lcmd = s.lcmd := rfl
@[simp] theorem succeed_lopa : (s.succeed).lopa = s.lopa := rfl
@[simp] theorem succeed_lopb : (s.succeed).lopb = s.lopb := rfl
@[simp] theorem succeed_lopc : (s.succeed).lopc = s.lopc := rfl
@[simp] theorem succeed_opa : (s.succeed).opa = s.opa := rfl
@[simp] theorem succeed_opb : (s.succeed).opb = s.opb := rfl
@[simp] theorem succeed_opc : (s.succeed).opc = s.opc := rfl
@[simp] theorem succeed_result : (s.succeed).result = s.result := rfl
@[simp] theorem succeed_expTail : (s.succeed).expTail = s.expTail := rfl
@[simp] theorem succeed_dmemSize : (s.succeed).dmemSize = s.dmemSize := rfl
@[simp] theorem succeed_ctx8 : (s.succeed).ctx8 = s.ctx8 := rfl
@[simp] theorem succeed_ctx16 : (s.succeed).ctx16 = s.ctx16 := rfl
@[simp] theorem succeed_rt : (s.succeed).rt = s.rt := rfl
@[simp] theorem succeed_spl : (s.succeed).spl = s.spl := rfl
@[simp] theorem succeed_nib : (s.succeed).nib = s.nib := rfl
@[simp] theorem succeed_dmem : (s.succeed).dmem = s.dmem := rfl
@[simp] theorem succeed_inView : (s.succeed).inView = s.inView := rfl
@[simp] theorem succeed_outKeep : (s.succeed).outKeep = s.outKeep := rfl
@[simp] theorem succeed_turns : (s.succeed).turns = s.turns := rfl
@[simp] theorem succeed_readData : (s.succeed).readData = s.readData := rfl
@[simp] theorem succeed_draws : (s.succeed).draws = s.draws + 1 := rfl
@[simp] theorem succeed_ctx (w : Width) : (s.succeed).ctx w = s.ctx w := by cases w <;> rfl

end Succeed

section Answer

variable (s : State) (v : Word)

@[simp] theorem answer_irqEn : (s.answer v).irqEn = s.irqEn := rfl
@[simp] theorem answer_busy : (s.answer v).busy = false := rfl
@[simp] theorem answer_done : (s.answer v).done = true := rfl
@[simp] theorem answer_errcode : (s.answer v).errcode = .success := rfl
@[simp] theorem answer_oob : (s.answer v).oob = s.oob := rfl
@[simp] theorem answer_ovr : (s.answer v).ovr = s.ovr := rfl
@[simp] theorem answer_lcmd : (s.answer v).lcmd = s.lcmd := rfl
@[simp] theorem answer_lopa : (s.answer v).lopa = s.lopa := rfl
@[simp] theorem answer_lopb : (s.answer v).lopb = s.lopb := rfl
@[simp] theorem answer_lopc : (s.answer v).lopc = s.lopc := rfl
@[simp] theorem answer_opa : (s.answer v).opa = s.opa := rfl
@[simp] theorem answer_opb : (s.answer v).opb = s.opb := rfl
@[simp] theorem answer_opc : (s.answer v).opc = s.opc := rfl
@[simp] theorem answer_result : (s.answer v).result = v := rfl
@[simp] theorem answer_expTail : (s.answer v).expTail = s.expTail := rfl
@[simp] theorem answer_dmemSize : (s.answer v).dmemSize = s.dmemSize := rfl
@[simp] theorem answer_ctx8 : (s.answer v).ctx8 = s.ctx8 := rfl
@[simp] theorem answer_ctx16 : (s.answer v).ctx16 = s.ctx16 := rfl
@[simp] theorem answer_rt : (s.answer v).rt = s.rt := rfl
@[simp] theorem answer_spl : (s.answer v).spl = s.spl := rfl
@[simp] theorem answer_nib : (s.answer v).nib = s.nib := rfl
@[simp] theorem answer_dmem : (s.answer v).dmem = s.dmem := rfl
@[simp] theorem answer_inView : (s.answer v).inView = s.inView := rfl
@[simp] theorem answer_outKeep : (s.answer v).outKeep = s.outKeep := rfl
@[simp] theorem answer_turns : (s.answer v).turns = s.turns := rfl
@[simp] theorem answer_readData : (s.answer v).readData = s.readData := rfl
@[simp] theorem answer_draws : (s.answer v).draws = s.draws + 1 := rfl
@[simp] theorem answer_ctx (w : Width) : (s.answer v).ctx w = s.ctx w := by cases w <;> rfl

end Answer

section Acknowledge

variable (s : State)

@[simp] theorem acknowledge_irqEn : (s.acknowledge).irqEn = s.irqEn := rfl
@[simp] theorem acknowledge_busy : (s.acknowledge).busy = s.busy := rfl
@[simp] theorem acknowledge_done : (s.acknowledge).done = false := rfl
@[simp] theorem acknowledge_errcode : (s.acknowledge).errcode = .success := rfl
@[simp] theorem acknowledge_oob : (s.acknowledge).oob = s.oob := rfl
@[simp] theorem acknowledge_ovr : (s.acknowledge).ovr = s.ovr := rfl
@[simp] theorem acknowledge_lcmd : (s.acknowledge).lcmd = s.lcmd := rfl
@[simp] theorem acknowledge_lopa : (s.acknowledge).lopa = s.lopa := rfl
@[simp] theorem acknowledge_lopb : (s.acknowledge).lopb = s.lopb := rfl
@[simp] theorem acknowledge_lopc : (s.acknowledge).lopc = s.lopc := rfl
@[simp] theorem acknowledge_opa : (s.acknowledge).opa = s.opa := rfl
@[simp] theorem acknowledge_opb : (s.acknowledge).opb = s.opb := rfl
@[simp] theorem acknowledge_opc : (s.acknowledge).opc = s.opc := rfl
@[simp] theorem acknowledge_result : (s.acknowledge).result = s.result := rfl
@[simp] theorem acknowledge_expTail : (s.acknowledge).expTail = s.expTail := rfl
@[simp] theorem acknowledge_dmemSize : (s.acknowledge).dmemSize = s.dmemSize := rfl
@[simp] theorem acknowledge_ctx8 : (s.acknowledge).ctx8 = s.ctx8 := rfl
@[simp] theorem acknowledge_ctx16 : (s.acknowledge).ctx16 = s.ctx16 := rfl
@[simp] theorem acknowledge_rt : (s.acknowledge).rt = s.rt := rfl
@[simp] theorem acknowledge_spl : (s.acknowledge).spl = s.spl := rfl
@[simp] theorem acknowledge_nib : (s.acknowledge).nib = s.nib := rfl
@[simp] theorem acknowledge_dmem : (s.acknowledge).dmem = s.dmem := rfl
@[simp] theorem acknowledge_inView : (s.acknowledge).inView = s.inView := rfl
@[simp] theorem acknowledge_outKeep : (s.acknowledge).outKeep = s.outKeep := rfl
@[simp] theorem acknowledge_turns : (s.acknowledge).turns = s.turns := rfl
@[simp] theorem acknowledge_readData : (s.acknowledge).readData = s.readData := rfl
@[simp] theorem acknowledge_draws : (s.acknowledge).draws = s.draws := rfl
@[simp] theorem acknowledge_ctx (w : Width) : (s.acknowledge).ctx w = s.ctx w := by cases w <;> rfl

end Acknowledge

section Noteoob

variable (s : State) (m : Bool)

@[simp] theorem noteOob_irqEn : (s.noteOob m).irqEn = s.irqEn := rfl
@[simp] theorem noteOob_busy : (s.noteOob m).busy = s.busy := rfl
@[simp] theorem noteOob_done : (s.noteOob m).done = s.done := rfl
@[simp] theorem noteOob_errcode : (s.noteOob m).errcode = s.errcode := rfl
@[simp] theorem noteOob_oob : (s.noteOob m).oob = (s.oob || m) := rfl
@[simp] theorem noteOob_ovr : (s.noteOob m).ovr = s.ovr := rfl
@[simp] theorem noteOob_lcmd : (s.noteOob m).lcmd = s.lcmd := rfl
@[simp] theorem noteOob_lopa : (s.noteOob m).lopa = s.lopa := rfl
@[simp] theorem noteOob_lopb : (s.noteOob m).lopb = s.lopb := rfl
@[simp] theorem noteOob_lopc : (s.noteOob m).lopc = s.lopc := rfl
@[simp] theorem noteOob_opa : (s.noteOob m).opa = s.opa := rfl
@[simp] theorem noteOob_opb : (s.noteOob m).opb = s.opb := rfl
@[simp] theorem noteOob_opc : (s.noteOob m).opc = s.opc := rfl
@[simp] theorem noteOob_result : (s.noteOob m).result = s.result := rfl
@[simp] theorem noteOob_expTail : (s.noteOob m).expTail = s.expTail := rfl
@[simp] theorem noteOob_dmemSize : (s.noteOob m).dmemSize = s.dmemSize := rfl
@[simp] theorem noteOob_ctx8 : (s.noteOob m).ctx8 = s.ctx8 := rfl
@[simp] theorem noteOob_ctx16 : (s.noteOob m).ctx16 = s.ctx16 := rfl
@[simp] theorem noteOob_rt : (s.noteOob m).rt = s.rt := rfl
@[simp] theorem noteOob_spl : (s.noteOob m).spl = s.spl := rfl
@[simp] theorem noteOob_nib : (s.noteOob m).nib = s.nib := rfl
@[simp] theorem noteOob_dmem : (s.noteOob m).dmem = s.dmem := rfl
@[simp] theorem noteOob_inView : (s.noteOob m).inView = s.inView := rfl
@[simp] theorem noteOob_outKeep : (s.noteOob m).outKeep = s.outKeep := rfl
@[simp] theorem noteOob_turns : (s.noteOob m).turns = s.turns := rfl
@[simp] theorem noteOob_readData : (s.noteOob m).readData = s.readData := rfl
@[simp] theorem noteOob_draws : (s.noteOob m).draws = s.draws := rfl
@[simp] theorem noteOob_ctx (w : Width) : (s.noteOob m).ctx w = s.ctx w := by cases w <;> rfl

end Noteoob

section Popturn

variable (s : State)

@[simp] theorem popTurn_irqEn : (s.popTurn).irqEn = s.irqEn := rfl
@[simp] theorem popTurn_busy : (s.popTurn).busy = s.busy := rfl
@[simp] theorem popTurn_done : (s.popTurn).done = s.done := rfl
@[simp] theorem popTurn_errcode : (s.popTurn).errcode = s.errcode := rfl
@[simp] theorem popTurn_oob : (s.popTurn).oob = s.oob := rfl
@[simp] theorem popTurn_ovr : (s.popTurn).ovr = s.ovr := rfl
@[simp] theorem popTurn_lcmd : (s.popTurn).lcmd = s.lcmd := rfl
@[simp] theorem popTurn_lopa : (s.popTurn).lopa = s.lopa := rfl
@[simp] theorem popTurn_lopb : (s.popTurn).lopb = s.lopb := rfl
@[simp] theorem popTurn_lopc : (s.popTurn).lopc = s.lopc := rfl
@[simp] theorem popTurn_opa : (s.popTurn).opa = s.opa := rfl
@[simp] theorem popTurn_opb : (s.popTurn).opb = s.opb := rfl
@[simp] theorem popTurn_opc : (s.popTurn).opc = s.opc := rfl
@[simp] theorem popTurn_result : (s.popTurn).result = s.result := rfl
@[simp] theorem popTurn_expTail : (s.popTurn).expTail = s.expTail := rfl
@[simp] theorem popTurn_dmemSize : (s.popTurn).dmemSize = s.dmemSize := rfl
@[simp] theorem popTurn_ctx8 : (s.popTurn).ctx8 = s.ctx8 := rfl
@[simp] theorem popTurn_ctx16 : (s.popTurn).ctx16 = s.ctx16 := rfl
@[simp] theorem popTurn_rt : (s.popTurn).rt = s.rt := rfl
@[simp] theorem popTurn_spl : (s.popTurn).spl = s.spl := rfl
@[simp] theorem popTurn_nib : (s.popTurn).nib = s.nib := rfl
@[simp] theorem popTurn_dmem : (s.popTurn).dmem = s.dmem := rfl
@[simp] theorem popTurn_inView : (s.popTurn).inView = s.inView := rfl
@[simp] theorem popTurn_outKeep : (s.popTurn).outKeep = s.outKeep := rfl
@[simp] theorem popTurn_turns : (s.popTurn).turns = s.turns.tail := rfl
@[simp] theorem popTurn_readData : (s.popTurn).readData = s.readData := rfl
@[simp] theorem popTurn_draws : (s.popTurn).draws = s.draws := rfl
@[simp] theorem popTurn_ctx (w : Width) : (s.popTurn).ctx w = s.ctx w := by cases w <;> rfl

end Popturn

section Spenddraws

variable (s : State)

@[simp] theorem spendDraws_irqEn : (s.spendDraws).irqEn = s.irqEn := rfl
@[simp] theorem spendDraws_busy : (s.spendDraws).busy = s.busy := rfl
@[simp] theorem spendDraws_done : (s.spendDraws).done = s.done := rfl
@[simp] theorem spendDraws_errcode : (s.spendDraws).errcode = s.errcode := rfl
@[simp] theorem spendDraws_oob : (s.spendDraws).oob = s.oob := rfl
@[simp] theorem spendDraws_ovr : (s.spendDraws).ovr = s.ovr := rfl
@[simp] theorem spendDraws_lcmd : (s.spendDraws).lcmd = s.lcmd := rfl
@[simp] theorem spendDraws_lopa : (s.spendDraws).lopa = s.lopa := rfl
@[simp] theorem spendDraws_lopb : (s.spendDraws).lopb = s.lopb := rfl
@[simp] theorem spendDraws_lopc : (s.spendDraws).lopc = s.lopc := rfl
@[simp] theorem spendDraws_opa : (s.spendDraws).opa = s.opa := rfl
@[simp] theorem spendDraws_opb : (s.spendDraws).opb = s.opb := rfl
@[simp] theorem spendDraws_opc : (s.spendDraws).opc = s.opc := rfl
@[simp] theorem spendDraws_result : (s.spendDraws).result = s.result := rfl
@[simp] theorem spendDraws_expTail : (s.spendDraws).expTail = s.expTail := rfl
@[simp] theorem spendDraws_dmemSize : (s.spendDraws).dmemSize = s.dmemSize := rfl
@[simp] theorem spendDraws_ctx8 : (s.spendDraws).ctx8 = s.ctx8 := rfl
@[simp] theorem spendDraws_ctx16 : (s.spendDraws).ctx16 = s.ctx16 := rfl
@[simp] theorem spendDraws_rt : (s.spendDraws).rt = s.rt := rfl
@[simp] theorem spendDraws_spl : (s.spendDraws).spl = s.spl := rfl
@[simp] theorem spendDraws_nib : (s.spendDraws).nib = s.nib := rfl
@[simp] theorem spendDraws_dmem : (s.spendDraws).dmem = s.dmem := rfl
@[simp] theorem spendDraws_inView : (s.spendDraws).inView = s.inView := rfl
@[simp] theorem spendDraws_outKeep : (s.spendDraws).outKeep = s.outKeep := rfl
@[simp] theorem spendDraws_turns : (s.spendDraws).turns = s.turns := rfl
@[simp] theorem spendDraws_readData : (s.spendDraws).readData = s.readData := rfl
@[simp] theorem spendDraws_draws : (s.spendDraws).draws = s.draws + 2 := rfl
@[simp] theorem spendDraws_ctx (w : Width) : (s.spendDraws).ctx w = s.ctx w := by cases w <;> rfl

end Spenddraws

section SetCtx

variable (s : State) (w : Width) (c : FieldCtx w.bits)

@[simp] theorem setCtx_irqEn : (s.setCtx w c).irqEn = s.irqEn := by cases w <;> rfl
@[simp] theorem setCtx_busy : (s.setCtx w c).busy = s.busy := by cases w <;> rfl
@[simp] theorem setCtx_done : (s.setCtx w c).done = s.done := by cases w <;> rfl
@[simp] theorem setCtx_errcode : (s.setCtx w c).errcode = s.errcode := by cases w <;> rfl
@[simp] theorem setCtx_oob : (s.setCtx w c).oob = s.oob := by cases w <;> rfl
@[simp] theorem setCtx_ovr : (s.setCtx w c).ovr = s.ovr := by cases w <;> rfl
@[simp] theorem setCtx_lcmd : (s.setCtx w c).lcmd = s.lcmd := by cases w <;> rfl
@[simp] theorem setCtx_lopa : (s.setCtx w c).lopa = s.lopa := by cases w <;> rfl
@[simp] theorem setCtx_lopb : (s.setCtx w c).lopb = s.lopb := by cases w <;> rfl
@[simp] theorem setCtx_lopc : (s.setCtx w c).lopc = s.lopc := by cases w <;> rfl
@[simp] theorem setCtx_opa : (s.setCtx w c).opa = s.opa := by cases w <;> rfl
@[simp] theorem setCtx_opb : (s.setCtx w c).opb = s.opb := by cases w <;> rfl
@[simp] theorem setCtx_opc : (s.setCtx w c).opc = s.opc := by cases w <;> rfl
@[simp] theorem setCtx_result : (s.setCtx w c).result = s.result := by cases w <;> rfl
@[simp] theorem setCtx_expTail : (s.setCtx w c).expTail = s.expTail := by cases w <;> rfl
@[simp] theorem setCtx_dmemSize : (s.setCtx w c).dmemSize = s.dmemSize := by cases w <;> rfl
@[simp] theorem setCtx_rt : (s.setCtx w c).rt = s.rt := by cases w <;> rfl
@[simp] theorem setCtx_spl : (s.setCtx w c).spl = s.spl := by cases w <;> rfl
@[simp] theorem setCtx_nib : (s.setCtx w c).nib = s.nib := by cases w <;> rfl
@[simp] theorem setCtx_dmem : (s.setCtx w c).dmem = s.dmem := by cases w <;> rfl
@[simp] theorem setCtx_inView : (s.setCtx w c).inView = s.inView := by cases w <;> rfl
@[simp] theorem setCtx_outKeep : (s.setCtx w c).outKeep = s.outKeep := by cases w <;> rfl
@[simp] theorem setCtx_turns : (s.setCtx w c).turns = s.turns := by cases w <;> rfl
@[simp] theorem setCtx_readData : (s.setCtx w c).readData = s.readData := by cases w <;> rfl
@[simp] theorem setCtx_draws : (s.setCtx w c).draws = s.draws := by cases w <;> rfl
@[simp] theorem setCtx_ctx_self : (s.setCtx w c).ctx w = some c := by cases w <;> rfl
theorem setCtx_ctx_other (w' : Width) (h : w' ≠ w) : (s.setCtx w c).ctx w' = s.ctx w' := by
  cases w <;> cases w' <;> first | rfl | exact absurd rfl h

end SetCtx

section HardReset

variable (s : State)

@[simp] theorem hardReset_irqEn : s.hardReset.irqEn = false := rfl
@[simp] theorem hardReset_busy : s.hardReset.busy = false := rfl
@[simp] theorem hardReset_done : s.hardReset.done = false := rfl
@[simp] theorem hardReset_errcode : s.hardReset.errcode = .success := rfl
@[simp] theorem hardReset_oob : s.hardReset.oob = false := rfl
@[simp] theorem hardReset_ovr : s.hardReset.ovr = false := rfl
@[simp] theorem hardReset_lcmd : s.hardReset.lcmd = 0#32 := rfl
@[simp] theorem hardReset_lopa : s.hardReset.lopa = 0#32 := rfl
@[simp] theorem hardReset_lopb : s.hardReset.lopb = 0#32 := rfl
@[simp] theorem hardReset_lopc : s.hardReset.lopc = 0#32 := rfl
@[simp] theorem hardReset_opa : s.hardReset.opa = 0#32 := rfl
@[simp] theorem hardReset_opb : s.hardReset.opb = 0#32 := rfl
@[simp] theorem hardReset_opc : s.hardReset.opc = 0#32 := rfl
@[simp] theorem hardReset_result : s.hardReset.result = 0#32 := rfl
@[simp] theorem hardReset_expTail : s.hardReset.expTail = s.expTail := rfl
@[simp] theorem hardReset_dmemSize : s.hardReset.dmemSize = s.dmemSize := rfl
@[simp] theorem hardReset_ctx8 : s.hardReset.ctx8 = none := rfl
@[simp] theorem hardReset_ctx16 : s.hardReset.ctx16 = none := rfl
@[simp] theorem hardReset_rt : s.hardReset.rt = none := rfl
@[simp] theorem hardReset_spl : s.hardReset.spl = none := rfl
@[simp] theorem hardReset_nib : s.hardReset.nib = none := rfl
@[simp] theorem hardReset_dmem : s.hardReset.dmem = [] := rfl
@[simp] theorem hardReset_inView : s.hardReset.inView = [] := rfl
@[simp] theorem hardReset_outKeep : s.hardReset.outKeep = [] := rfl
@[simp] theorem hardReset_turns : s.hardReset.turns = s.turns := rfl
@[simp] theorem hardReset_readData : s.hardReset.readData = s.readData := rfl
@[simp] theorem hardReset_draws : s.hardReset.draws = s.draws + 1 := rfl
@[simp] theorem hardReset_ctx (w : Width) : s.hardReset.ctx w = none := by cases w <;> rfl

end HardReset

end Sys2Proof.Machine
end

