-- ==== Sys2Proof/Laws/Field.lean ====
section
/-! SUPPORT. The field numerics: the doubling step is linear and invertible, the element 2 has order N-1 for both
polynomials (R8), and so the construction check never fails (R134); the loop of R18 multiplies powers of 2 by adding their
exponents. -/

namespace Sys2Proof.Machine

theorem order_pos (w : Width) : 0 < w.order := by cases w <;> decide

theorem poly_bit_top (w : Width) : (Width.poly w).testBit w.bits = true := by cases w <;> decide

theorem poly_lt (w : Width) : Width.poly w < 2 ^ (w.bits + 1) := by cases w <;> decide

theorem bits_pos (w : Width) : 0 < w.bits := by cases w <;> decide

/-- The doubling step bit by bit: shift, then add P when the top bit falls out. -/
theorem xtimes_eq (w : Width) (t : Nat) (h : t < w.order) :
    xtimes w t = t <<< 1 ^^^ (if t.testBit (w.bits - 1) then Width.poly w else 0) := by
  have hb := bits_pos w
  have key : w.order ≤ t <<< 1 ↔ t.testBit (w.bits - 1) = true := by
    obtain ⟨k, hk⟩ : ∃ k, w.bits = k + 1 := ⟨w.bits - 1, by omega⟩
    simp only [Width.order, hk] at h ⊢
    rw [Nat.shiftLeft_eq, Nat.add_sub_cancel, pow_succ]
    rw [pow_succ] at h
    constructor
    · intro h2
      have h3 : 2 ^ k ≤ t := by omega
      rw [Nat.testBit_eq_decide_div_mod_eq, decide_eq_true_eq]
      have : t / 2 ^ k = 1 := by
        apply Nat.div_eq_of_lt_le <;> omega
      rw [this]
    · intro h2
      have := Nat.ge_two_pow_of_testBit h2
      omega
  unfold xtimes
  by_cases h1 : w.order ≤ t <<< 1
  · rw [if_pos h1, if_pos (key.1 h1)]
  · rw [if_neg h1, if_neg (fun h2 => h1 (key.2 h2)), Nat.xor_zero]

@[simp] theorem xtimes_zero (w : Width) : xtimes w 0 = 0 := by cases w <;> rfl

theorem xtimes_lt (w : Width) (t : Nat) (h : t < w.order) : xtimes w t < w.order := by
  have hb := bits_pos w
  rw [xtimes_eq w t h]
  apply Nat.lt_pow_two_of_testBit
  intro i hi
  rw [Nat.testBit_xor, Nat.testBit_shiftLeft]
  have h1 : decide (i ≥ 1) = true := by simp; omega
  rw [h1, Bool.true_and]
  by_cases hiw : i = w.bits
  · subst hiw
    by_cases ht : t.testBit (w.bits - 1) = true
    · simp [ht, poly_bit_top]
    · simp [ht]
  · have h2 : t.testBit (i - 1) = false :=
      Nat.testBit_lt_two_pow (lt_of_lt_of_le h (Nat.pow_le_pow_right (by omega) (by omega)))
    have h3 : (Width.poly w).testBit i = false :=
      Nat.testBit_lt_two_pow (lt_of_lt_of_le (poly_lt w) (Nat.pow_le_pow_right (by omega) (by omega)))
    rw [h2, Bool.false_xor]
    split
    · exact h3
    · simp

theorem xor_lt_order (w : Width) (a b : Nat) (ha : a < w.order) (hb : b < w.order) :
    a ^^^ b < w.order := Nat.xor_lt_two_pow ha hb

/-- The doubling step is linear over XOR (R18). -/
theorem xtimes_xor (w : Width) (a b : Nat) (ha : a < w.order) (hb : b < w.order) :
    xtimes w (a ^^^ b) = xtimes w a ^^^ xtimes w b := by
  rw [xtimes_eq w _ (xor_lt_order w a b ha hb), xtimes_eq w a ha, xtimes_eq w b hb,
    Nat.testBit_xor, Nat.shiftLeft_xor_distrib]
  generalize a <<< 1 = x
  generalize b <<< 1 = y
  generalize Width.poly w = p
  cases a.testBit (w.bits - 1) <;> cases b.testBit (w.bits - 1) <;> simp
  · rw [Nat.xor_assoc]
  · rw [Nat.xor_assoc, Nat.xor_comm y p, ← Nat.xor_assoc]
  · rw [Nat.xor_assoc, ← Nat.xor_assoc p, Nat.xor_comm p y, Nat.xor_assoc y, Nat.xor_self, Nat.xor_zero]

theorem xtimes_ne_zero (w : Width) (t : Nat) (h : t < w.order) (h0 : t ≠ 0) : xtimes w t ≠ 0 := by
  intro hz
  rw [xtimes_eq w t h] at hz
  by_cases ht : t.testBit (w.bits - 1) = true
  · rw [if_pos ht] at hz
    have h1 : t <<< 1 = Width.poly w := Nat.xor_eq_zero_iff.1 hz
    have h2 : Width.poly w % 2 = 1 := by cases w <;> rfl
    rw [Nat.shiftLeft_eq] at h1
    omega
  · rw [if_neg ht, Nat.xor_zero, Nat.shiftLeft_eq] at hz
    omega

theorem xtimes_inj (w : Width) (a b : Nat) (ha : a < w.order) (hb : b < w.order)
    (h : xtimes w a = xtimes w b) : a = b := by
  by_contra hne
  have h1 : a ^^^ b ≠ 0 := fun h0 => hne (Nat.xor_eq_zero_iff.1 h0)
  apply xtimes_ne_zero w _ (xor_lt_order w a b ha hb) h1
  rw [xtimes_xor w a b ha hb, h, Nat.xor_self]

theorem iter_zero (w : Width) (i : Nat) : (xtimes w)^[i] 0 = 0 := by
  induction i with
  | zero => rfl
  | succ i ih => rw [Function.iterate_succ_apply', ih, xtimes_zero]

theorem iter_lt (w : Width) (i t : Nat) (h : t < w.order) : (xtimes w)^[i] t < w.order := by
  induction i with
  | zero => exact h
  | succ i ih => rw [Function.iterate_succ_apply']; exact xtimes_lt w _ ih

theorem iter_ne_zero (w : Width) (i t : Nat) (h : t < w.order) (h0 : t ≠ 0) : (xtimes w)^[i] t ≠ 0 := by
  induction i with
  | zero => exact h0
  | succ i ih => rw [Function.iterate_succ_apply']; exact xtimes_ne_zero w _ (iter_lt w i t h) ih

theorem iter_xor (w : Width) (i a b : Nat) (ha : a < w.order) (hb : b < w.order) :
    (xtimes w)^[i] (a ^^^ b) = (xtimes w)^[i] a ^^^ (xtimes w)^[i] b := by
  induction i with
  | zero => rfl
  | succ i ih =>
    rw [Function.iterate_succ_apply', ih, xtimes_xor w _ _ (iter_lt w i a ha) (iter_lt w i b hb),
      Function.iterate_succ_apply', Function.iterate_succ_apply']

/-- The i-th power of the element 2 (R131). -/
def xpow (w : Width) (i : Nat) : Nat := (xtimes w)^[i] 1

theorem one_lt_order (w : Width) : 1 < w.order := by cases w <;> decide

theorem xpow_lt (w : Width) (i : Nat) : xpow w i < w.order := iter_lt w i 1 (one_lt_order w)

theorem xpow_ne_zero (w : Width) (i : Nat) : xpow w i ≠ 0 :=
  iter_ne_zero w i 1 (one_lt_order w) (by decide)

theorem xpow_succ (w : Width) (i : Nat) : xpow w (i + 1) = xtimes w (xpow w i) :=
  Function.iterate_succ_apply' _ _ _

theorem iter_xpow (w : Width) (i j : Nat) : (xtimes w)^[i] (xpow w j) = xpow w (i + j) :=
  (Function.iterate_add_apply _ _ _ _).symm

/-- The loop of R18 commutes with doubling its multiplicand. -/
theorem gfmulLoop_xtimes (w : Width) (b k a r : Nat) (ha : a < w.order) (hr : r < w.order) :
    gfmulLoop w b k (xtimes w a) (xtimes w r) = xtimes w (gfmulLoop w b k a r) := by
  induction k generalizing a r with
  | zero => rfl
  | succ k ih =>
    simp only [gfmulLoop]
    split
    · rw [← xtimes_xor w r a hr ha]
      exact ih _ _ (xtimes_lt w a ha) (xor_lt_order w r a hr ha)
    · exact ih _ _ (xtimes_lt w a ha) hr

theorem gfmulLoop_lt (w : Width) (b k a r : Nat) (ha : a < w.order) (hr : r < w.order) :
    gfmulLoop w b k a r < w.order := by
  induction k generalizing a r with
  | zero => exact hr
  | succ k ih =>
    simp only [gfmulLoop]
    split
    · exact ih _ _ (xtimes_lt w a ha) (xor_lt_order w r a hr ha)
    · exact ih _ _ (xtimes_lt w a ha) hr

theorem gfmul_lt (w : Width) (a b : Nat) (ha : a < w.order) : gfmul w a b < w.order :=
  gfmulLoop_lt w b _ a 0 ha (order_pos w)

theorem gfmul_xtimes (w : Width) (a b : Nat) (ha : a < w.order) :
    gfmul w (xtimes w a) b = xtimes w (gfmul w a b) := by
  simpa [gfmul] using gfmulLoop_xtimes w b w.bits a 0 ha (order_pos w)

theorem xtimes_two_pow (w : Width) (j : Nat) (h : j + 1 < w.bits) : xtimes w (2 ^ j) = 2 ^ (j + 1) := by
  unfold xtimes
  have h1 : 2 ^ (j + 1) < w.order := Nat.pow_lt_pow_right (by decide) h
  rw [Nat.shiftLeft_eq, ← pow_succ, if_neg (by omega)]

theorem gfmulLoop_one (w : Width) (b : Nat) (hb : b < w.order) (k a r : Nat) (hk : k ≤ w.bits)
    (ha : 0 < k → a = 2 ^ (w.bits - k)) (hr : r = b % 2 ^ (w.bits - k)) :
    gfmulLoop w b k a r = b := by
  induction k generalizing a r with
  | zero =>
    simp only [gfmulLoop, hr, Nat.sub_zero]
    exact Nat.mod_eq_of_lt hb
  | succ k ih =>
    simp only [gfmulLoop]
    have e : w.bits - k = w.bits - (k + 1) + 1 := by omega
    apply ih _ _ (by omega)
    · intro hk0
      rw [ha (by omega), xtimes_two_pow w _ (by omega), e]
    · rw [hr, ha (by omega), e]
      apply Nat.eq_of_testBit_eq
      intro i
      generalize w.bits - (k + 1) = j
      split
      · rename_i hbit
        simp only [Nat.testBit_xor, Nat.testBit_mod_two_pow, Nat.testBit_two_pow]
        rcases lt_trichotomy i j with h | h | h
        · simp [h, Nat.lt_succ_of_lt h, (Nat.ne_of_gt h)]
        · subst h; simp [hbit]
        · simp [show ¬ i < j by omega, show ¬ i < j + 1 by omega, show ¬ j = i by omega]
      · rename_i hbit
        simp only [Nat.testBit_mod_two_pow]
        rcases lt_trichotomy i j with h | h | h
        · simp [h, Nat.lt_succ_of_lt h]
        · subst h; simp [hbit]
        · simp [show ¬ i < j by omega, show ¬ i < j + 1 by omega]

theorem gfmul_one (w : Width) (b : Nat) (hb : b < w.order) : gfmul w 1 b = b := by
  apply gfmulLoop_one w b hb _ _ _ le_rfl
  · intro _; simp
  · simp [Nat.mod_one]

/-- Multiplying by a power of 2 is doubling that often (R18, R131). -/
theorem gfmul_xpow_left (w : Width) (i b : Nat) (hb : b < w.order) :
    gfmul w (xpow w i) b = (xtimes w)^[i] b := by
  induction i with
  | zero => exact gfmul_one w b hb
  | succ i ih => rw [xpow_succ, gfmul_xtimes w _ _ (xpow_lt w i), ih, Function.iterate_succ_apply']

/-- Exponents add (R20). -/
theorem gfmul_xpow (w : Width) (i j : Nat) : gfmul w (xpow w i) (xpow w j) = xpow w (i + j) := by
  rw [gfmul_xpow_left w i _ (xpow_lt w j), iter_xpow]

theorem gfmulLoop_zero (w : Width) (b k : Nat) : gfmulLoop w b k 0 0 = 0 := by
  induction k with
  | zero => rfl
  | succ k ih => simp [gfmulLoop, ih]

theorem gfmul_zero_left (w : Width) (b : Nat) : gfmul w 0 b = 0 := gfmulLoop_zero w b _

/-- The power of 2 with exponent `n` extended by the bits of a list, by squaring and doubling. -/
def powBits (w : Width) : List Bool → Nat → Nat
  | [], p => p
  | b :: bs, p => powBits w bs (if b then xtimes w (gfmul w p p) else gfmul w p p)

/-- The number whose binary digits are those of `n` and then the list. -/
def bitsVal : List Bool → Nat → Nat
  | [], n => n
  | b :: bs, n => bitsVal bs (if b then 2 * n + 1 else 2 * n)

theorem powBits_eq (w : Width) (bs : List Bool) (n : Nat) :
    powBits w bs (xpow w n) = xpow w (bitsVal bs n) := by
  induction bs generalizing n with
  | nil => rfl
  | cons b bs ih =>
    simp only [powBits, bitsVal, gfmul_xpow, ← xpow_succ, ← two_mul]
    cases b <;> exact ih _

/-- The power with the exponent of a list of binary digits, computed. -/
theorem xpow_bits (w : Width) (bs : List Bool) : xpow w (bitsVal bs 0) = powBits w bs 1 :=
  (powBits_eq w bs 0).symm

end Sys2Proof.Machine
end

