-- ==== Sys2Proof/Laws/Order.lean ====
section
/-! SUPPORT. The element 2 has order N-1 in both fields (R8): its first N-1 powers are all the nonzero elements, each once.
So INIT's construction check passes (R134). -/

namespace Sys2Proof.Machine

theorem period8 : xpow .w8 255 = 1 := by
  have h := xpow_bits .w8 (List.replicate 8 true)
  rw [show bitsVal (List.replicate 8 true) 0 = 255 by decide] at h
  rw [h]; decide +kernel

theorem period16 : xpow .w16 65535 = 1 := by
  have h := xpow_bits .w16 (List.replicate 16 true)
  rw [show bitsVal (List.replicate 16 true) 0 = 65535 by decide] at h
  rw [h]; decide +kernel

theorem period (w : Width) : xpow w (w.order - 1) = 1 := by
  cases w
  · exact period8
  · exact period16

/-- No proper divisor of N-1 is a period: for each of its primes p, 2 to the power (N-1)/p is not 1. -/
theorem notPeriod8 : xpow .w8 85 ≠ 1 ∧ xpow .w8 51 ≠ 1 ∧ xpow .w8 15 ≠ 1 := by
  have h1 := xpow_bits .w8 [true, false, true, false, true, false, true]
  have h2 := xpow_bits .w8 [true, true, false, false, true, true]
  have h3 := xpow_bits .w8 [true, true, true, true]
  rw [show bitsVal [true, false, true, false, true, false, true] 0 = 85 by decide] at h1
  rw [show bitsVal [true, true, false, false, true, true] 0 = 51 by decide] at h2
  rw [show bitsVal [true, true, true, true] 0 = 15 by decide] at h3
  rw [h1, h2, h3]; decide +kernel

theorem notPeriod16 :
    xpow .w16 21845 ≠ 1 ∧ xpow .w16 13107 ≠ 1 ∧ xpow .w16 3855 ≠ 1 ∧ xpow .w16 255 ≠ 1 := by
  have h1 := xpow_bits .w16
    [true, false, true, false, true, false, true, false, true, false, true, false, true, false, true]
  have h2 := xpow_bits .w16
    [true, true, false, false, true, true, false, false, true, true, false, false, true, true]
  have h3 := xpow_bits .w16 [true, true, true, true, false, false, false, false, true, true, true, true]
  have h4 := xpow_bits .w16 (List.replicate 8 true)
  rw [show bitsVal _ 0 = 21845 by decide] at h1
  rw [show bitsVal _ 0 = 13107 by decide] at h2
  rw [show bitsVal _ 0 = 3855 by decide] at h3
  rw [show bitsVal _ 0 = 255 by decide] at h4
  rw [h1, h2, h3, h4]; decide +kernel

/-- A period that divides n and none of the n/p is n. -/
theorem eq_of_dvd_of_primes {m n : Nat} (hn : n ≠ 0) (h : m ∣ n)
    (hp : ∀ p, p.Prime → p ∣ n → ¬ m ∣ n / p) : m = n := by
  obtain ⟨q, rfl⟩ := h
  by_contra hne
  have hq : q ≠ 1 := fun h1 => hne (by simp [h1])
  obtain ⟨p, hpp, r, rfl⟩ := Nat.exists_prime_and_dvd hq
  apply hp p hpp ⟨m * r, by ring⟩
  rw [show m * (p * r) = m * r * p by ring, Nat.mul_div_cancel _ hpp.pos]
  exact dvd_mul_right _ _

theorem periodic_of_dvd (w : Width) (k : Nat) (h : Function.minimalPeriod (xtimes w) 1 ∣ k) :
    xpow w k = 1 := by
  obtain ⟨q, rfl⟩ := h
  exact (Function.isPeriodicPt_minimalPeriod (xtimes w) 1).mul_const q

/-- The order of the element 2 is N-1. -/
theorem minimalPeriod_eq (w : Width) : Function.minimalPeriod (xtimes w) 1 = w.order - 1 := by
  have hd : Function.minimalPeriod (xtimes w) 1 ∣ w.order - 1 :=
    Function.IsPeriodicPt.minimalPeriod_dvd (period w)
  refine eq_of_dvd_of_primes (by cases w <;> decide) hd fun p hp hpn hm => ?_
  have h1 := periodic_of_dvd w _ hm
  cases w
  · have h2 : p ∣ 3 * 5 * 17 := hpn
    rw [hp.dvd_mul, hp.dvd_mul, Nat.prime_dvd_prime_iff_eq hp (by norm_num),
      Nat.prime_dvd_prime_iff_eq hp (by norm_num), Nat.prime_dvd_prime_iff_eq hp (by norm_num)] at h2
    obtain ⟨a, b, c⟩ := notPeriod8
    rcases h2 with (h2 | h2) | h2 <;> subst h2
    · exact a h1
    · exact b h1
    · exact c h1
  · have h2 : p ∣ 3 * 5 * 17 * 257 := hpn
    rw [hp.dvd_mul, hp.dvd_mul, hp.dvd_mul, Nat.prime_dvd_prime_iff_eq hp (by norm_num),
      Nat.prime_dvd_prime_iff_eq hp (by norm_num), Nat.prime_dvd_prime_iff_eq hp (by norm_num),
      Nat.prime_dvd_prime_iff_eq hp (by norm_num)] at h2
    obtain ⟨a, b, c, d⟩ := notPeriod16
    rcases h2 with ((h2 | h2) | h2) | h2 <;> subst h2
    · exact a h1
    · exact b h1
    · exact c h1
    · exact d h1

/-- The first N-1 powers of 2 are distinct. -/
theorem xpow_inj (w : Width) (i j : Nat) (hi : i < w.order - 1) (hj : j < w.order - 1)
    (h : xpow w i = xpow w j) : i = j := by
  rw [← minimalPeriod_eq w] at hi hj
  exact Function.iterate_injOn_Iio_minimalPeriod hi hj h

theorem xpow_add_period (w : Width) (i : Nat) : xpow w (i + (w.order - 1)) = xpow w i := by
  rw [← iter_xpow, period]; rfl

theorem length_orbit (f : Nat → Nat) (n t : Nat) : (orbit f n t).length = n := by
  induction n generalizing t with
  | zero => rfl
  | succ n ih => simp [orbit, ih]

theorem getElem?_orbit (f : Nat → Nat) (n t i : Nat) (h : i < n) : (orbit f n t)[i]? = some (f^[i] t) := by
  induction n generalizing t i with
  | zero => omega
  | succ n ih =>
    cases i with
    | zero => rfl
    | succ i => rw [orbit, List.getElem?_cons_succ, ih _ _ (by omega)]; rfl

theorem length_powersOfX (w : Width) : (powersOfX w).length = w.order - 1 := length_orbit _ _ _

theorem getElem?_powersOfX (w : Width) (i : Nat) (h : i < w.order - 1) :
    (powersOfX w)[i]? = some (xpow w i) := getElem?_orbit _ _ _ _ h

theorem getElem_powersOfX (w : Width) (i : Nat) (h : i < (powersOfX w).length) :
    (powersOfX w)[i] = xpow w i := by
  have h1 := getElem?_powersOfX w i (by rwa [length_powersOfX] at h)
  rw [List.getElem?_eq_getElem h] at h1
  exact Option.some.inj h1

theorem nodup_powersOfX (w : Width) : (powersOfX w).Nodup := by
  rw [List.nodup_iff_injective_get]
  intro i j h
  simp only [List.get_eq_getElem, getElem_powersOfX] at h
  exact Fin.ext (xpow_inj w _ _ (lt_of_lt_of_eq i.2 (length_powersOfX w))
    (lt_of_lt_of_eq j.2 (length_powersOfX w)) h)

/-- Every nonzero element is a power of 2 (R8: the polynomial is primitive). -/
theorem mem_powersOfX (w : Width) (v : Nat) (hv : v < w.order) (h0 : v ≠ 0) : v ∈ powersOfX w := by
  have hsub : (powersOfX w).toFinset ⊆ Finset.Ico 1 w.order := by
    intro x hx
    rw [List.mem_toFinset, List.mem_iff_getElem] at hx
    obtain ⟨i, hi, rfl⟩ := hx
    rw [getElem_powersOfX, Finset.mem_Ico]
    exact ⟨Nat.one_le_iff_ne_zero.2 (xpow_ne_zero w i), xpow_lt w i⟩
  have hcard : (powersOfX w).toFinset.card = (Finset.Ico 1 w.order).card := by
    rw [List.toFinset_card_of_nodup (nodup_powersOfX w), length_powersOfX, Nat.card_Ico]
  have := Finset.eq_of_subset_of_card_le hsub hcard.ge
  rw [← List.mem_toFinset, this, Finset.mem_Ico]
  omega

/-- Each nonzero element is 2 to a power below N-1 (R132). -/
theorem exists_xpow (w : Width) (v : Nat) (hv : v < w.order) (h0 : v ≠ 0) :
    ∃ i, i < w.order - 1 ∧ xpow w i = v := by
  obtain ⟨i, hi, h⟩ := List.mem_iff_getElem.1 (mem_powersOfX w v hv h0)
  exact ⟨i, by rwa [length_powersOfX] at hi, by rw [← h, getElem_powersOfX]⟩

theorem constructLoop_passes (w : Width) (k j seen : Nat) (hk : j + k ≤ w.order - 2)
    (hs : ∀ v, seen.testBit v = true → ∃ i ≤ j, v = xpow w i) :
    constructLoop w k (xpow w j) seen = true := by
  induction k generalizing j seen with
  | zero => rfl
  | succ k ih =>
    simp only [constructLoop, ← xpow_succ]
    have h1 : ¬(xpow w (j + 1) = 0 ∨ seen.testBit (xpow w (j + 1)) = true) := by
      rintro (h | h)
      · exact xpow_ne_zero w _ h
      · obtain ⟨i, hi, he⟩ := hs _ h
        have := xpow_inj w _ _ (by omega) (by omega) he
        omega
    rw [if_neg h1]
    refine ih (j + 1) _ (by omega) fun v hv => ?_
    rw [Nat.testBit_or, Bool.or_eq_true] at hv
    rcases hv with hv | hv
    · obtain ⟨i, hi, he⟩ := hs v hv
      exact ⟨i, by omega, he⟩
    · rw [Nat.one_shiftLeft, Nat.testBit_two_pow, decide_eq_true_eq] at hv
      exact ⟨j + 1, le_rfl, hv.symm⟩

/-- The construction check of INIT passes for both polynomials (R134). -/
theorem constructOk_true (w : Width) : constructOk w = true := by
  refine constructLoop_passes w (w.order - 2) 0 (1 <<< 1) (by omega) fun v hv => ⟨0, le_rfl, ?_⟩
  rw [Nat.one_shiftLeft, Nat.testBit_two_pow, decide_eq_true_eq] at hv
  exact hv.symm

end Sys2Proof.Machine
end

