-- ==== Sys2Proof/Laws/Tables.lean ====
section
/-! SUPPORT. What the tables INIT builds hold (R131, R132), that the table formulas are the field operations for nonzero
operands (R20), and that the exact entry function G of R191 multiplies by a constant. -/

namespace Sys2Proof.Machine

theorem buildCtx_eq (w : Width) (tail : Nat) :
    buildCtx w tail = some ⟨expTable w tail (powersOfX w), idxTable w (powersOfX w)⟩ := by
  rw [buildCtx, if_pos (constructOk_true w)]

theorem exp_of_built {w : Width} {tail : Nat} {c : FieldCtx w.bits} (h : buildCtx w tail = some c) :
    c.exp = expTable w tail (powersOfX w) := by
  rw [buildCtx_eq] at h; rw [← Option.some.inj h]

theorem idx_of_built {w : Width} {tail : Nat} {c : FieldCtx w.bits} (h : buildCtx w tail = some c) :
    c.idx = idxTable w (powersOfX w) := by
  rw [buildCtx_eq] at h; rw [← Option.some.inj h]

theorem size_exp_of_built {w : Width} {tail : Nat} {c : FieldCtx w.bits} (h : buildCtx w tail = some c) :
    c.exp.size = expLen w tail := by
  rw [exp_of_built h]; simp [expTable, expLen, length_powersOfX]; omega

theorem expAt_neg {w : Nat} (c : FieldCtx w) (i : Int) (h : i < 0) : c.expAt i = none := by
  simp [FieldCtx.expAt, h]

theorem expAt_nat {w : Nat} (c : FieldCtx w) (i : Nat) : c.expAt (i : Int) = c.exp[i]? := by
  simp [FieldCtx.expAt, Int.not_lt.2 (Int.natCast_nonneg i)]

/-- The doubled part of the exponent table holds the powers of 2 (R131). -/
theorem expAt_power {w : Width} {tail : Nat} {c : FieldCtx w.bits} (h : buildCtx w tail = some c)
    (i : Nat) (hi : i < 2 * (w.order - 1)) :
    c.expAt (i : Int) = some (BitVec.ofNat w.bits (xpow w i)) := by
  have hp : (powersOfX w ++ powersOfX w)[i]? = some (xpow w i) := by
    by_cases h1 : i < w.order - 1
    · rw [List.getElem?_append_left (by rwa [length_powersOfX]), getElem?_powersOfX w i h1]
    · rw [List.getElem?_append_right (by rw [length_powersOfX]; omega), length_powersOfX,
        getElem?_powersOfX w _ (by omega), ← xpow_add_period, Nat.sub_add_cancel (by omega)]
  rw [expAt_nat, exp_of_built h, expTable, List.getElem?_toArray, List.getElem?_map,
    List.getElem?_append_left (by simp [length_powersOfX]; omega), hp]
  rfl

/-- The tail of the exponent table is zero (R131, R136). -/
theorem expAt_tail {w : Width} {tail : Nat} {c : FieldCtx w.bits} (h : buildCtx w tail = some c)
    (i : Nat) (h1 : 2 * (w.order - 1) ≤ i) (h2 : i < expLen w tail) :
    c.expAt (i : Int) = some 0#w.bits := by
  have hl : (powersOfX w ++ powersOfX w).length = 2 * (w.order - 1) := by
    simp [length_powersOfX]; omega
  rw [expAt_nat, exp_of_built h, expTable, List.getElem?_toArray, List.getElem?_map,
    List.getElem?_append_right (by rw [hl]; exact h1), hl, List.getElem?_replicate,
    if_pos (by unfold expLen at h2; omega)]
  rfl

/-- Past its physical length the table has no entry (R9, R16). -/
theorem expAt_past {w : Width} {tail : Nat} {c : FieldCtx w.bits} (h : buildCtx w tail = some c)
    (i : Nat) (hi : expLen w tail ≤ i) : c.expAt (i : Int) = none := by
  rw [expAt_nat]
  exact Array.getElem?_eq_none (by rw [size_exp_of_built h]; exact hi)

theorem expAt_isSome_iff {w : Width} {tail : Nat} {c : FieldCtx w.bits} (h : buildCtx w tail = some c)
    (i : Nat) : (c.expAt (i : Int)).isSome = true ↔ i < expLen w tail := by
  rw [expAt_nat, ← size_exp_of_built h]
  simp

theorem sentinel_lt (w : Width) : sentinel w < 2 ^ (w.bits + 1) := by cases w <;> decide

/-- The sentinel (R132). -/
theorem idxAt_zero {w : Width} {tail : Nat} {c : FieldCtx w.bits} (h : buildCtx w tail = some c) :
    c.idxAt 0#w.bits = sentinel w := by
  simp [FieldCtx.idxAt, idx_of_built h, idxTable, tabulate, Nat.mod_eq_of_lt (sentinel_lt w)]

theorem toNat_ne_zero {n : Nat} {v : BitVec n} (h : v ≠ 0#n) : v.toNat ≠ 0 := fun h0 =>
  h (BitVec.eq_of_toNat_eq (by simpa using h0))

theorem idxAt_nonzero {w : Width} {tail : Nat} {c : FieldCtx w.bits} (h : buildCtx w tail = some c)
    (v : BitVec w.bits) (hv : v ≠ 0#w.bits) :
    c.idxAt v < w.order - 1 ∧ xpow w (c.idxAt v) = v.toNat := by
  have h0 := toNat_ne_zero hv
  have hm := mem_powersOfX w v.toNat v.isLt h0
  have hlt : (powersOfX w).idxOf v.toNat < w.order - 1 := by
    rw [← length_powersOfX]; exact List.idxOf_lt_length_of_mem hm
  have hb : w.order - 1 < 2 ^ (w.bits + 1) := by cases w <;> decide
  have he : c.idxAt v = (powersOfX w).idxOf v.toNat := by
    have hz : v.toFin ≠ 0 := fun hz => h0 (congrArg Fin.val hz)
    simp [FieldCtx.idxAt, idx_of_built h, idxTable, tabulate, hz,
      Nat.mod_eq_of_lt (hlt.trans hb)]
  rw [he]
  refine ⟨hlt, ?_⟩
  rw [← getElem_powersOfX w _ (by rw [length_powersOfX]; exact hlt)]
  exact List.getElem_idxOf _

/-- The index of an element is the one exponent below N-1 that gives it (R132). -/
theorem idxAt_unique {w : Width} {tail : Nat} {c : FieldCtx w.bits} (h : buildCtx w tail = some c)
    (v : BitVec w.bits) (i : Nat) (hi : i < w.order - 1) (hx : xpow w i = v.toNat) : c.idxAt v = i := by
  have hv : v ≠ 0#w.bits := by
    rintro rfl
    exact xpow_ne_zero w i (by simpa using hx)
  obtain ⟨h1, h2⟩ := idxAt_nonzero h v hv
  exact xpow_inj w _ _ h1 hi (h2.trans hx.symm)

/-- For nonzero operands the product's table entry is the field product (R20). -/
theorem expAt_mulIndex {w : Width} {tail : Nat} {c : FieldCtx w.bits} (h : buildCtx w tail = some c)
    (a b : BitVec w.bits) (ha : a ≠ 0#w.bits) (hb : b ≠ 0#w.bits) :
    c.expAt (c.mulIndex a b) = some (BitVec.ofNat w.bits (gfmul w a.toNat b.toNat)) := by
  obtain ⟨a1, a2⟩ := idxAt_nonzero h a ha
  obtain ⟨b1, b2⟩ := idxAt_nonzero h b hb
  have : c.mulIndex a b = ((c.idxAt a + c.idxAt b : Nat) : Int) := by simp [FieldCtx.mulIndex]
  rw [this, expAt_power h _ (by omega), ← gfmul_xpow, a2, b2]

/-- For nonzero operands the quotient's table entry, times the divisor, is the dividend (R20). -/
theorem expAt_divIndex {w : Width} {tail : Nat} {c : FieldCtx w.bits} (h : buildCtx w tail = some c)
    (a b : BitVec w.bits) (ha : a ≠ 0#w.bits) (hb : b ≠ 0#w.bits) :
    ∃ q, c.expAt (c.divIndex a b) = some q ∧ isGfdiv w a.toNat b.toNat q.toNat := by
  obtain ⟨a1, a2⟩ := idxAt_nonzero h a ha
  obtain ⟨b1, b2⟩ := idxAt_nonzero h b hb
  have hN : (2 ^ w.bits - 1 : Nat) = w.order - 1 := rfl
  have e : c.divIndex a b = ((c.idxAt a + (w.order - 1) - c.idxAt b : Nat) : Int) := by
    rw [FieldCtx.divIndex, hN]; omega
  have hlt : _ < 2 ^ w.bits := xpow_lt w (c.idxAt a + (w.order - 1) - c.idxAt b)
  refine ⟨_, by rw [e]; exact expAt_power h _ (by omega), toNat_ne_zero hb, BitVec.isLt _, ?_⟩
  rw [BitVec.toNat_ofNat, Nat.mod_eq_of_lt hlt, ← b2, gfmul_xpow, Nat.add_sub_cancel' (by omega),
    xpow_add_period, a2]

theorem gfmul_zero_right (w : Width) (a : Nat) (ha : a < w.order) : gfmul w a 0 = 0 := by
  by_cases h0 : a = 0
  · rw [h0, gfmul_zero_left]
  · obtain ⟨i, -, rfl⟩ := exists_xpow w a ha h0
    rw [gfmul_xpow_left w i 0 (order_pos w), iter_zero]

/-- The field product is linear over XOR in its second operand (R18). -/
theorem gfmul_xor (w : Width) (a b c : Nat) (ha : a < w.order) (hb : b < w.order) (hc : c < w.order) :
    gfmul w a (b ^^^ c) = gfmul w a b ^^^ gfmul w a c := by
  by_cases h0 : a = 0
  · simp [h0, gfmul_zero_left]
  · obtain ⟨i, -, rfl⟩ := exists_xpow w a ha h0
    rw [gfmul_xpow_left w i _ (xor_lt_order w b c hb hc), gfmul_xpow_left w i b hb,
      gfmul_xpow_left w i c hc, iter_xor w i b c hb hc]

/-- The field product is commutative. -/
theorem gfmul_comm (w : Width) (a b : Nat) (ha : a < w.order) (hb : b < w.order) :
    gfmul w a b = gfmul w b a := by
  by_cases h0 : a = 0
  · rw [h0, gfmul_zero_left, gfmul_zero_right w b hb]
  · by_cases h1 : b = 0
    · rw [h1, gfmul_zero_left, gfmul_zero_right w a ha]
    · obtain ⟨i, -, rfl⟩ := exists_xpow w a ha h0
      obtain ⟨j, -, rfl⟩ := exists_xpow w b hb h1
      rw [gfmul_xpow, gfmul_xpow, Nat.add_comm]

/-- The field product is associative. -/
theorem gfmul_assoc (w : Width) (a b c : Nat) (ha : a < w.order) (hb : b < w.order) (hc : c < w.order) :
    gfmul w (gfmul w a b) c = gfmul w a (gfmul w b c) := by
  by_cases h0 : a = 0
  · simp [h0, gfmul_zero_left]
  · by_cases h1 : b = 0
    · rw [h1, gfmul_zero_right w a ha, gfmul_zero_left, gfmul_zero_right w a ha]
    · by_cases h2 : c = 0
      · rw [h2, gfmul_zero_right w b hb, gfmul_zero_right w a ha, gfmul_zero_right w _ (gfmul_lt w a b ha)]
      · obtain ⟨i, -, rfl⟩ := exists_xpow w a ha h0
        obtain ⟨j, -, rfl⟩ := exists_xpow w b hb h1
        obtain ⟨k, -, rfl⟩ := exists_xpow w c hc h2
        simp only [gfmul_xpow, Nat.add_assoc]

/-- A product of nonzero elements is nonzero, so a quotient is unique (R19). -/
theorem gfmul_cancel (w : Width) (a b c : Nat) (ha : a < w.order) (h0 : a ≠ 0) (hb : b < w.order)
    (hc : c < w.order) (h : gfmul w a b = gfmul w a c) : b = c := by
  obtain ⟨i, -, rfl⟩ := exists_xpow w a ha h0
  rw [gfmul_xpow_left w i b hb, gfmul_xpow_left w i c hc] at h
  by_contra hne
  have hx : b ^^^ c ≠ 0 := fun h0 => hne (Nat.xor_eq_zero_iff.1 h0)
  apply iter_ne_zero w i _ (xor_lt_order w b c hb hc) hx
  rw [iter_xor w i b c hb hc, h, Nat.xor_self]

/-- The checked product is the field product for every pair of operands (R152). -/
theorem exactMul_built {w : Width} {tail : Nat} {c : FieldCtx w.bits} (h : buildCtx w tail = some c)
    (a b : BitVec w.bits) (n x : Nat) : (c.exactMul a b n x).toNat = gfmul w a.toNat b.toNat := by
  unfold FieldCtx.exactMul
  by_cases ha : a = 0#w.bits
  · simp [ha, gfmul_zero_left]
  · by_cases hb : b = 0#w.bits
    · simp [hb, gfmul_zero_right w a.toNat a.isLt]
    · rw [if_neg (by simp [ha, hb]), FieldCtx.expRead, expAt_mulIndex h a b ha hb, Option.getD_some,
        BitVec.toNat_ofNat]
      exact Nat.mod_eq_of_lt (gfmul_lt w _ _ a.isLt)

/-- The checked quotient is the field quotient for every divisor but 0 (R153). -/
theorem exactDiv_built {w : Width} {tail : Nat} {c : FieldCtx w.bits} (h : buildCtx w tail = some c)
    (a b : BitVec w.bits) (hb : b ≠ 0#w.bits) (n x : Nat) :
    isGfdiv w a.toNat b.toNat (c.exactDiv a b n x).toNat := by
  unfold FieldCtx.exactDiv
  by_cases ha : a = 0#w.bits
  · simp [ha, isGfdiv, toNat_ne_zero hb, order_pos, gfmul_zero_right w b.toNat b.isLt]
  · obtain ⟨q, h1, h2⟩ := expAt_divIndex h a b ha hb
    rwa [if_neg ha, FieldCtx.expRead, h1]

/-- The multiplier of a linear kind with a coefficient: a itself, or its inverse (R192). -/
def isMultiplier (k : LinKind) (a m : Nat) : Prop :=
  m < Width.order .w16 ∧
    match k with
    | .mul => m = a
    | .divXByA => gfmul .w16 a m = 1

/-- Every linear kind has a multiplier. -/
theorem exists_multiplier (k : LinKind) (a : BitVec 16) (hk : k = .divXByA → a ≠ 0#16) :
    ∃ m, isMultiplier k a.toNat m := by
  cases k
  · exact ⟨a.toNat, a.isLt, rfl⟩
  · obtain ⟨i, hi, he⟩ := exists_xpow .w16 a.toNat a.isLt (toNat_ne_zero (hk rfl))
    refine ⟨xpow .w16 (Width.order .w16 - 1 - i), xpow_lt _ _, ?_⟩
    show gfmul .w16 a.toNat _ = 1
    rw [← he, gfmul_xpow, Nat.add_sub_cancel' (by omega), period]

/-- The exact entry function is the product with the multiplier (R191). -/
theorem exactEntry_built {tail : Nat} {c : FieldCtx 16} (h : buildCtx .w16 tail = some c)
    (k : LinKind) (a x : BitVec 16) (hk : k = .divXByA → a ≠ 0#16) (m n : Nat)
    (hm : isMultiplier k a.toNat m) :
    (c.exactEntry k a x n).toNat = gfmul .w16 m x.toNat := by
  cases k
  · obtain ⟨_, rfl⟩ := hm
    exact exactMul_built (w := .w16) h a x n _
  · obtain ⟨hlt, hinv⟩ := hm
    have ha := hk rfl
    obtain ⟨-, hq, he⟩ := exactDiv_built (w := .w16) h x a ha n x.toNat
    apply gfmul_cancel .w16 a.toNat _ _ a.isLt (toNat_ne_zero ha) hq (gfmul_lt _ _ _ hlt)
    have hinv' : gfmul .w16 a.toNat m = 1 := hinv
    refine he.trans ?_
    rw [← gfmul_assoc .w16 _ _ _ a.isLt hlt x.isLt, hinv', gfmul_one .w16 _ x.isLt]
    rfl

end Sys2Proof.Machine
end

