-- ==== Sys2Proof/Laws/Ops.lean ====
section
/-! SUPPORT. What each shared operation can do: the operand forms, the two shared check chains, the end of a command, and
that a completion step always answers a next state. -/

namespace Sys2Proof.Machine

theorem ctx_eq_of_ready {s : State} {w : Width} (h : s.ready w = true) : ∃ c, s.ctx w = some c :=
  Option.isSome_iff_exists.1 h

theorem ready_eq_false {s : State} {w : Width} : s.ready w = false ↔ s.ctx w = none := by
  simp [State.ready]

theorem ctx_congr {s t : State} (h8 : t.ctx8 = s.ctx8) (h16 : t.ctx16 = s.ctx16) (w : Width) :
    t.ctx w = s.ctx w := by
  cases w
  · exact h8
  · exact h16

theorem element?_of_lt {w : Width} {v : Word} (h : v.toNat < w.order) :
    element? w v = some (v.setWidth w.bits) := if_pos h

theorem element?_of_le {w : Width} {v : Word} (h : w.order ≤ v.toNat) : element? w v = none :=
  if_neg (Nat.not_lt.2 h)

theorem toNat_setWidth_of_lt {w : Width} {v : Word} (h : v.toNat < w.order) :
    (v.setWidth w.bits).toNat = v.toNat := by
  rw [BitVec.toNat_setWidth]; exact Nat.mod_eq_of_lt h

theorem setWidth_ne_zero {w : Width} {v : Word} (h : v.toNat < w.order) (h0 : v ≠ 0#32) :
    v.setWidth w.bits ≠ 0#w.bits := by
  intro hz
  have h1 := congrArg BitVec.toNat hz
  rw [toNat_setWidth_of_lt h] at h1
  exact h0 (BitVec.eq_of_toNat_eq (by simpa using h1))

theorem indexBelow_of_lt {n : Nat} {v : Word} (h : v.toNat < n) : indexBelow n v = some ⟨v.toNat, h⟩ :=
  dif_pos h

theorem indexBelow_of_le {n : Nat} {v : Word} (h : n ≤ v.toNat) : indexBelow n v = none :=
  dif_neg (Nat.not_lt.2 h)

/-- A zero-extended entry is the entry's number. -/
theorem toNat_zext32 {n : Nat} (v : BitVec n) (h : n ≤ 32) : (zext32 v).toNat = v.toNat := by
  rw [zext32, BitVec.toNat_setWidth]
  exact Nat.mod_eq_of_lt (lt_of_lt_of_le v.isLt (Nat.pow_le_pow_right (by decide) h))

theorem bits_le_32 (w : Width) : w.bits ≤ 32 := by cases w <;> decide

@[simp] theorem getElem?_tabulate {α : Type} (n : Nat) (f : Fin n → α) (i : Nat) (h : i < n) :
    (tabulate n f)[i]? = some (f ⟨i, h⟩) := by
  simp [tabulate, h]

@[simp] theorem getElem_tabulate {α : Type} (n : Nat) (f : Fin n → α) (i : Nat) (h : i < n) :
    (tabulate n f)[i] = f ⟨i, h⟩ := by
  simp [tabulate]

/-- The scalar checks when they pass. -/
theorem withPair_pass {s : State} {w : Width} {c : FieldCtx w.bits} (hc : s.ctx w = some c)
    (ha : s.lopa.toNat < w.order) (hb : s.lopb.toNat < w.order)
    (f : FieldCtx w.bits → BitVec w.bits → BitVec w.bits → State) :
    s.withPair w f = f c (s.lopa.setWidth w.bits) (s.lopb.setWidth w.bits) := by
  simp [State.withPair, hc, State.elementA, State.elementB, element?_of_lt ha, element?_of_lt hb]

/-- The scalar checks: one of two errors, or they pass. -/
theorem withPair_cases (s : State) (w : Width)
    (f : FieldCtx w.bits → BitVec w.bits → BitVec w.bits → State) :
    (s.ctx w = none ∧ s.withPair w f = s.raise .notReady) ∨
    (s.ready w = true ∧ (w.order ≤ s.lopa.toNat ∨ w.order ≤ s.lopb.toNat) ∧ s.withPair w f = s.raise .range) ∨
    (∃ c, s.ctx w = some c ∧ s.lopa.toNat < w.order ∧ s.lopb.toNat < w.order ∧
      s.withPair w f = f c (s.lopa.setWidth w.bits) (s.lopb.setWidth w.bits)) := by
  cases hc : s.ctx w with
  | none => left; simp [State.withPair, hc]
  | some c =>
    right
    have hr : s.ready w = true := by simp [State.ready, hc]
    by_cases ha : s.lopa.toNat < w.order
    · by_cases hb : s.lopb.toNat < w.order
      · exact .inr ⟨c, rfl, ha, hb, withPair_pass hc ha hb f⟩
      · left
        simp [State.withPair, hc, State.elementA, State.elementB, element?_of_lt ha,
          element?_of_le (Nat.not_lt.1 hb), hr, Nat.not_lt.1 hb]
    · left
      simp [State.withPair, hc, State.elementA, element?_of_le (Nat.not_lt.1 ha), hr, Nat.not_lt.1 ha]

theorem elementA16_of_lt {s : State} (h : s.lopa.toNat < 65536) : s.elementA16 = some (s.lopa.setWidth 16) :=
  if_pos h

theorem elementA16_of_le {s : State} (h : 65536 ≤ s.lopa.toNat) : s.elementA16 = none :=
  if_neg (Nat.not_lt.2 h)

theorem elementB16_of_lt {s : State} (h : s.lopb.toNat < 65536) : s.elementB16 = some (s.lopb.setWidth 16) :=
  if_pos h

theorem elementB16_of_le {s : State} (h : 65536 ≤ s.lopb.toNat) : s.elementB16 = none :=
  if_neg (Nat.not_lt.2 h)

theorem setWidth16_eq_zero {v : Word} (h : v.toNat < 65536) : v.setWidth 16 = 0#16 ↔ v = 0#32 := by
  constructor
  · intro hz
    by_contra h0
    exact setWidth_ne_zero (w := .w16) h h0 hz
  · rintro rfl; rfl

/-- The split and nibble builds' checks when they pass. -/
theorem withLinear_pass {s : State} {k : Kind} {lk : LinKind} {c : FieldCtx 16} (hk : k.linear? = some lk)
    (hc : s.ctx16 = some c) (ha : s.lopa.toNat < 65536) (h0 : ¬(lk = .divXByA ∧ s.lopa = 0#32))
    (f : FieldCtx 16 → LinKind → BitVec 16 → State) :
    s.withLinear .w16 (some k) false f = f c lk (s.lopa.setWidth 16) := by
  simp only [State.withLinear, Option.bind_some, hk, hc, elementA16_of_lt ha, setWidth16_eq_zero ha]
  simp [h0]

/-- The split and nibble builds' checks, in their order. -/
theorem withLinear_cases (s : State) (w : Width) (kind : Option Kind) (held : Bool)
    (f : FieldCtx 16 → LinKind → BitVec 16 → State) :
    (kind.bind Kind.linear? = none ∧ s.withLinear w kind held f = s.raise .kind) ∨
    ∃ lk, kind.bind Kind.linear? = some lk ∧
      ((w = .w8 ∧ s.withLinear w kind held f = s.raise .width) ∨
       (w = .w16 ∧
        ((s.ctx16 = none ∧ s.withLinear w kind held f = s.raise .notReady) ∨
         ∃ c, s.ctx16 = some c ∧
          ((held = true ∧ s.withLinear w kind held f = s.raise .alloc) ∨
           (held = false ∧
            ((65536 ≤ s.lopa.toNat ∧ s.withLinear w kind held f = s.raise .range) ∨
             (s.lopa.toNat < 65536 ∧
              ((lk = .divXByA ∧ s.lopa = 0#32 ∧ s.withLinear w kind held f = s.raise .div0) ∨
               (¬(lk = .divXByA ∧ s.lopa = 0#32) ∧
                s.withLinear w kind held f = f c lk (s.lopa.setWidth 16)))))))))) := by
  cases hk : kind.bind Kind.linear? with
  | none => left; simp [State.withLinear, hk]
  | some lk =>
    right
    refine ⟨lk, rfl, ?_⟩
    cases w with
    | w8 => left; simp [State.withLinear, hk]
    | w16 =>
      right
      refine ⟨rfl, ?_⟩
      cases hc : s.ctx16 with
      | none => left; simp [State.withLinear, hk, hc]
      | some c =>
        right
        refine ⟨c, rfl, ?_⟩
        cases held with
        | true => left; simp [State.withLinear, hk, hc]
        | false =>
          right
          refine ⟨rfl, ?_⟩
          by_cases ha : s.lopa.toNat < 65536
          · right
            refine ⟨ha, ?_⟩
            by_cases h0 : lk = .divXByA ∧ s.lopa = 0#32
            · left
              simp [State.withLinear, hk, hc, elementA16_of_lt ha, h0]
            · right
              refine ⟨h0, ?_⟩
              have h1 : ¬(lk = .divXByA ∧ s.lopa.setWidth 16 = 0#16) := by
                rwa [setWidth16_eq_zero ha]
              simp only [State.withLinear, hk, hc, elementA16_of_lt ha, if_neg h1]
              simp
          · left
            simp [State.withLinear, hk, hc, elementA16_of_le (Nat.not_lt.1 ha), Nat.not_lt.1 ha]

/-- The checks of VLOOKUP when they pass. -/
theorem lookupSetup_pass {s : State} {lane : Lane} {t : NibTable} (hn : s.nib = some t)
    (h1 : s.lopb.toNat % 2 = 0) (h2 : s.lopc.toNat % 2 = 0)
    (h3 : s.lopb.toNat + lane.bytes ≤ s.dmemSize.toNat) (h4 : s.lopc.toNat + lane.bytes ≤ s.dmemSize.toNat) :
    s.lookupSetup lane = .ok ⟨t, lane, s.lopb.toNat, s.lopc.toNat⟩ := by
  simp only [State.lookupSetup, hn]
  rw [if_neg (by omega), if_neg (by omega)]

/-- What a VLOOKUP whose checks pass is. -/
theorem lookupSetup_ok {s : State} {lane : Lane} {l : Lookup} (h : s.lookupSetup lane = .ok l) :
    s.nib = some l.table ∧ l.lane = lane ∧ l.src = s.lopb.toNat ∧ l.dst = s.lopc.toNat ∧
      l.src % 2 = 0 ∧ l.dst % 2 = 0 ∧
      l.src + lane.bytes ≤ s.dmemSize.toNat ∧ l.dst + lane.bytes ≤ s.dmemSize.toNat := by
  unfold State.lookupSetup at h
  split at h
  · cases h
  · rename_i t ht
    simp only at h
    split at h
    · cases h
    · split at h
      · cases h
      · cases h
        refine ⟨ht, rfl, rfl, rfl, ?_, ?_, ?_, ?_⟩ <;> simp only <;> omega

/-- The output chunk has its full length. -/
theorem length_output (l : Lookup) (s : State) (n : Nat) : (l.output s n).length = l.lane.bytes := by
  simp [Lookup.output, List.length_flatMap, Lane.bytes, Nat.mul_comm]

/-- A list of pairs, flattened: element j gives the places 2j and 2j + 1. -/
theorem getElem?_flatMap_pair {α : Type} (f g : Nat → α) (n j : Nat) (h : j < n) :
    ((List.range n).flatMap fun j => [f j, g j])[2 * j]? = some (f j) ∧
    ((List.range n).flatMap fun j => [f j, g j])[2 * j + 1]? = some (g j) := by
  induction n with
  | zero => omega
  | succ n ih =>
    have hl : ((List.range n).flatMap fun j => [f j, g j]).length = 2 * n := by
      simp [List.length_flatMap, Nat.mul_comm]
    rw [List.range_succ, List.flatMap_append]
    by_cases hj : j < n
    · rw [List.getElem?_append_left (by omega), List.getElem?_append_left (by omega)]
      exact ih hj
    · obtain rfl : j = n := by omega
      rw [List.getElem?_append_right (by omega), List.getElem?_append_right (by omega), hl]
      simp

/-- The two bytes of output element j (R230). -/
theorem getElem?_output (l : Lookup) (s : State) (n j : Nat) (h : j < l.lane.elements) :
    (l.output s n)[2 * j]? = some ((l.table.lookup (s.engineElement n l.src j)).extractLsb' 0 8) ∧
    (l.output s n)[2 * j + 1]? = some ((l.table.lookup (s.engineElement n l.src j)).extractLsb' 8 8) :=
  getElem?_flatMap_pair
    (fun j => (l.table.lookup (s.engineElement n l.src j)).extractLsb' 0 8)
    (fun j => (l.table.lookup (s.engineElement n l.src j)).extractLsb' 8 8) _ _ h

/-- The completion step of a command answers a next state (R50). -/
theorem exec_answers_next (i : Instr) (s : State) : ∃ t, exec i s = .next t := by
  cases i <;> exact ⟨_, rfl⟩

end Sys2Proof.Machine
end

