-- ==== Sys2Proof/Laws/Commands.lean ====
section
/-! SUPPORT. Everything the completion step of a command can do, said once: it raises an error, or it succeeds with the
effects that command may have. -/

namespace Sys2Proof.Machine

/-- What a successful command `i` may have changed of `s` before the completion itself: the frame of R38, R39, R43 to R48. -/
structure Effect (i : Instr) (s u : State) : Prop where
  result : producesValue i = false → u.result = s.result
  oob : maySetOob i = false → u.oob = s.oob
  sticky : s.oob = true → u.oob = true
  ctx : ∀ w, i ≠ .init w → u.ctx w = s.ctx w
  rt : (∀ w k, i ≠ .rtBuild w k) → i ≠ .rtRel → u.rt = s.rt
  spl : (∀ w k, i ≠ .splBuild w k) → i ≠ .splRel → u.spl = s.spl
  nib : (∀ w k, i ≠ .nibBuild w k) → i ≠ .nibRel → u.nib = s.nib
  dmem : (∀ l, i ≠ .vlookup l) → u.dmem = s.dmem
  host : u.ovr = s.ovr ∧ u.irqEn = s.irqEn ∧ u.lcmd = s.lcmd ∧ u.lopa = s.lopa ∧ u.lopb = s.lopb ∧ u.lopc = s.lopc ∧
    u.opa = s.opa ∧ u.opb = s.opb ∧ u.opc = s.opc ∧ u.expTail = s.expTail ∧ u.dmemSize = s.dmemSize ∧
    u.inView = s.inView ∧ u.outKeep = s.outKeep ∧ u.turns = s.turns ∧ u.readData = s.readData

/-- The two ways in which a command can end. -/
def Ends (i : Instr) (s t : State) : Prop :=
  (∃ e, e ≠ .success ∧ t = s.raise e) ∨ ∃ u, Effect i s u ∧ t = u.succeed

theorem Ends.error {i : Instr} {s : State} {e : ErrCode} (h : e ≠ .success) : Ends i s (s.raise e) :=
  .inl ⟨e, h, rfl⟩

/-- A command that only produces a value. -/
theorem Effect.value {i : Instr} {s : State} {v : Word} (h : producesValue i = true) :
    Effect i s { s with result := v } := by
  (constructor <;> simp [h]); all_goals (intros; rfl)

/-- A command that produces a value read from the exponent table. -/
theorem Effect.exp {i : Instr} {s : State} {v : Word} {b : Bool} (h : producesValue i = true) (h2 : maySetOob i = true) :
    Effect i s { s.noteOob b with result := v } := by
  (constructor <;> simp [h, h2]); all_goals (intros; first | rfl | simp_all)

theorem lookupSetup_error {s : State} {lane : Lane} {e : ErrCode} (h : s.lookupSetup lane = .error e) :
    e ≠ .success := by
  unfold State.lookupSetup at h
  dsimp only at h
  repeat' split at h
  all_goals first | cases h; decide | cases h

theorem ends_withPair {i : Instr} {s : State} {w : Width}
    {f : FieldCtx w.bits → BitVec w.bits → BitVec w.bits → State} (h : ∀ c a b, Ends i s (f c a b)) :
    Ends i s (s.withPair w f) := by
  rcases withPair_cases s w f with ⟨-, e⟩ | ⟨-, -, e⟩ | ⟨c, -, -, -, e⟩ <;> rw [e]
  · exact .error (by decide)
  · exact .error (by decide)
  · exact h _ _ _

theorem ends_withLinear {i : Instr} {s : State} {w : Width} {kind : Option Kind} {held : Bool}
    {f : FieldCtx 16 → LinKind → BitVec 16 → State} (h : ∀ c k a, Ends i s (f c k a)) :
    Ends i s (s.withLinear w kind held f) := by
  unfold State.withLinear
  repeat' split
  all_goals first | exact h _ _ _ | exact .error (by decide)

/-- The end of every command. -/
theorem exec_ends (i : Instr) (s t : State) (h : exec i s = .next t) : Ends i s t := by
  cases i <;> cases h
  case mul w | div w =>
    exact ends_withPair fun c a b => .inr ⟨_, .exp rfl rfl, rfl⟩
  case mulz w =>
    exact ends_withPair fun c a b => .inr ⟨_, .value rfl, rfl⟩
  case divz w =>
    refine ends_withPair fun c a b => ?_
    split
    · exact .error (by decide)
    · exact .inr ⟨_, .value rfl, rfl⟩
  case splBuild w k =>
    exact ends_withLinear fun c k a => .inr ⟨_, by (constructor <;> simp); all_goals (intros; rfl), rfl⟩
  case nibBuild w k =>
    exact ends_withLinear fun c k a => .inr ⟨_, by (constructor <;> simp); all_goals (intros; rfl), rfl⟩
  case init w =>
    repeat' split
    · exact .error (by decide)
    · exact .error (by decide)
    · refine .inr ⟨_, ?_, rfl⟩
      cases w <;> constructor <;> simp [State.setCtx]
      all_goals (intro w hw; cases w <;> simp_all [State.ctx]; all_goals rfl)
  case vlookup lane =>
    split
    · exact .error (lookupSetup_error ‹_›)
    · exact .inr ⟨_, by constructor <;> simp [State.ctx], rfl⟩
  all_goals
    repeat' split
    all_goals first
      | exact .error (by decide)
      | exact .inr ⟨_, .value rfl, rfl⟩
      | exact .inr ⟨_, by (constructor <;> simp [maySetOob]); all_goals (intros; first | rfl | simp_all), rfl⟩

end Sys2Proof.Machine
end

