-- ==== Sys2Proof/Laws/Memory.lean ====
section
/-! SUPPORT. The laws of DMEM: what a read gives after a write, that every memory operation keeps the canonical form, and
which bytes a chunk of writes changes. -/

namespace Sys2Proof.Machine

theorem get?_set (m : List Host.Cell) (a b : Nat) (v : Byte) (h : Memory.wf m = true) :
    Memory.get? (Memory.set m a v) b = if b = a then some v else Memory.get? m b := by
  induction m with
  | nil => simp [Memory.set, Memory.get?]
  | cons c m ih =>
    obtain ⟨k, x⟩ := c
    simp only [Memory.wf, Bool.and_eq_true] at h
    simp only [Memory.set]
    by_cases h1 : a < k
    · simp [h1, Memory.get?]
    · by_cases h2 : a = k
      · subst h2; by_cases hb : b = a <;> simp [Memory.get?, hb]
      · simp only [h1, h2, if_false, Memory.get?, ih h.2]
        by_cases hb : b = k
        · simp [hb, Ne.symm h2]
        · simp [hb]

theorem get?_set_self (m : List Host.Cell) (a : Nat) (v : Byte) (h : Memory.wf m = true) :
    Memory.get? (Memory.set m a v) a = some v := by simp [get?_set m a a v h]

theorem mem_set (m : List Host.Cell) (a : Nat) (v : Byte) (c : Host.Cell) (h : c ∈ Memory.set m a v) :
    c = (a, v) ∨ c ∈ m := by
  induction m with
  | nil => simpa [Memory.set] using h
  | cons d m ih =>
    obtain ⟨k, x⟩ := d
    simp only [Memory.set] at h
    split at h
    · simpa using h
    · split at h
      · rcases List.mem_cons.1 h with h | h
        · exact .inl h
        · exact .inr (List.mem_cons_of_mem _ h)
      · rcases List.mem_cons.1 h with h | h
        · exact .inr (h ▸ List.mem_cons_self)
        · exact (ih h).imp_right (List.mem_cons_of_mem _)

theorem set_keeps_wf (m : List Host.Cell) (a : Nat) (v : Byte) (h : Memory.wf m = true) :
    Memory.wf (Memory.set m a v) = true := by
  induction m with
  | nil => rfl
  | cons d m ih =>
    obtain ⟨k, x⟩ := d
    have hw := h
    simp only [Memory.wf, Bool.and_eq_true, List.all_eq_true, decide_eq_true_eq] at h
    simp only [Memory.set]
    split
    · rename_i hlt
      simp only [Memory.wf, Bool.and_eq_true, List.all_eq_true, decide_eq_true_eq]
      refine ⟨fun c hc => ?_, h⟩
      rcases List.mem_cons.1 hc with hc | hc
      · exact hc ▸ hlt
      · exact hlt.trans (h.1 c hc)
    · split
      · rename_i heq
        subst heq
        simpa [Memory.wf] using h
      · rename_i h1 h2
        simp only [Memory.wf, Bool.and_eq_true, List.all_eq_true, decide_eq_true_eq]
        refine ⟨fun c hc => ?_, ih h.2⟩
        rcases mem_set m a v c hc with hc | hc
        · subst hc; simp only; omega
        · exact h.1 c hc

/-- One write of a chunk, which the addresses in `keep` do not get. -/
theorem writeFrom_cons (keep : List Nat) (b : Byte) (bs : List Byte) (a : Nat) (m : List Host.Cell) :
    Memory.writeFrom keep (b :: bs) a m =
      Memory.writeFrom keep bs (a + 1) (if a ∈ keep then m else Memory.set m a b) := rfl

theorem writeFrom_keeps_wf (keep : List Nat) (bs : List Byte) (a : Nat) (m : List Host.Cell)
    (h : Memory.wf m = true) : Memory.wf (Memory.writeFrom keep bs a m) = true := by
  induction bs generalizing a m with
  | nil => exact h
  | cons b bs ih =>
    rw [writeFrom_cons]
    apply ih
    split
    · exact h
    · exact set_keeps_wf m a b h

theorem mem_writeFrom (keep : List Nat) (bs : List Byte) (a : Nat) (m : List Host.Cell)
    (c : Host.Cell) (h : c ∈ Memory.writeFrom keep bs a m) :
    (a ≤ c.1 ∧ c.1 < a + bs.length) ∨ c ∈ m := by
  induction bs generalizing a m with
  | nil => exact .inr h
  | cons b bs ih =>
    rw [writeFrom_cons] at h
    rcases ih _ _ h with h | h
    · left; simp only [List.length_cons]; omega
    · split at h
      · exact .inr h
      · rcases mem_set m a b c h with h | h
        · left; subst h; simp
        · exact .inr h

/-- What a byte of DMEM holds after a chunk of writes: byte `b - a` of the chunk inside it, unless it is kept, and what it
held before everywhere else. -/
theorem get?_writeFrom (keep : List Nat) (bs : List Byte) (a b : Nat) (m : List Host.Cell)
    (h : Memory.wf m = true) :
    Memory.get? (Memory.writeFrom keep bs a m) b =
      if a ≤ b ∧ b < a + bs.length ∧ b ∉ keep then bs[b - a]? else Memory.get? m b := by
  induction bs generalizing a m with
  | nil => simp [Memory.writeFrom]; omega
  | cons x bs ih =>
    rw [writeFrom_cons]
    have hw : Memory.wf (if a ∈ keep then m else Memory.set m a x) = true := by
      split
      · exact h
      · exact set_keeps_wf m a x h
    rw [ih (a + 1) _ hw]
    simp only [List.length_cons]
    by_cases hk : b ∈ keep
    · have : a ∈ keep ∨ b ≠ a := by
        by_cases hba : b = a
        · exact .inl (hba ▸ hk)
        · exact .inr hba
      simp only [hk, not_true_eq_false, and_false, if_false]
      split
      · rfl
      · rw [get?_set m a b x h, if_neg (this.resolve_left ‹_›)]
    · by_cases hin : a + 1 ≤ b ∧ b < a + 1 + bs.length
      · have h1 : a + 1 ≤ b ∧ b < a + 1 + bs.length ∧ b ∉ keep := ⟨hin.1, hin.2, hk⟩
        have h2 : a ≤ b ∧ b < a + (bs.length + 1) ∧ b ∉ keep := ⟨by omega, by omega, hk⟩
        rw [if_pos h1, if_pos h2]
        obtain ⟨d, rfl⟩ : ∃ d, b = a + 1 + d := ⟨b - (a + 1), by omega⟩
        have e1 : a + 1 + d - (a + 1) = d := by omega
        have e2 : a + 1 + d - a = d + 1 := by omega
        rw [e1, e2, List.getElem?_cons_succ]
      · have h1 : ¬(a + 1 ≤ b ∧ b < a + 1 + bs.length ∧ b ∉ keep) := fun hh => hin ⟨hh.1, hh.2.1⟩
        rw [if_neg h1]
        by_cases hba : b = a
        · subst hba
          simp [hk, get?_set_self m b x h]
        · have h2 : ¬(a ≤ b ∧ b < a + (bs.length + 1) ∧ b ∉ keep) := by
            rintro ⟨h3, h4, -⟩; omega
          rw [if_neg h2]
          split
          · rfl
          · rw [get?_set m a b x h, if_neg hba]

end Sys2Proof.Machine
end

