-- ==== Sys2Proof/Laws/PerInstr.lean ====
section
/-! SUPPORT. What holds of the word of each command: it lies within the bits its opcode uses (R102, R106), and its OP field
names that opcode (R105). -/

namespace Sys2Proof.Laws

/-- The word of a well-formed command names an opcode of the table and has no bit outside those the opcode uses. -/
def EncodingFits.Statement (i : Instr) : Prop :=
  i.wellFormed = true →
    ∃ o, opcodeOf ((encode i).extractLsb' 0 8).toNat = some o ∧ encode i &&& ~~~o.used = 0#32

theorem EncodingFits.init (w : Width) : EncodingFits.Statement (.init w) := fun _ => ⟨.init, by cases w <;> decide⟩

theorem EncodingFits.expRd (w : Width) : EncodingFits.Statement (.expRd w) := fun _ => ⟨.expRd, by cases w <;> decide⟩

theorem EncodingFits.idxRd (w : Width) : EncodingFits.Statement (.idxRd w) := fun _ => ⟨.idxRd, by cases w <;> decide⟩

theorem EncodingFits.mul (w : Width) : EncodingFits.Statement (.mul w) := fun _ => ⟨.mul, by cases w <;> decide⟩

theorem EncodingFits.div (w : Width) : EncodingFits.Statement (.div w) := fun _ => ⟨.div, by cases w <;> decide⟩

theorem EncodingFits.mulz (w : Width) : EncodingFits.Statement (.mulz w) := fun _ => ⟨.mulz, by cases w <;> decide⟩

theorem EncodingFits.divz (w : Width) : EncodingFits.Statement (.divz w) := fun _ => ⟨.divz, by cases w <;> decide⟩

theorem EncodingFits.rtBuild (w : Width) (kind : Option Kind) : EncodingFits.Statement (.rtBuild w kind) := fun _ =>
  ⟨.rtBuild, by cases w <;> rcases kind with _ | _ | _ | _ <;> decide⟩

theorem EncodingFits.rtRd : EncodingFits.Statement .rtRd := fun _ => ⟨.rtRd, by decide⟩

theorem EncodingFits.rtRel : EncodingFits.Statement .rtRel := fun _ => ⟨.rtRel, by decide⟩

theorem EncodingFits.splBuild (w : Width) (kind : Option Kind) : EncodingFits.Statement (.splBuild w kind) := fun _ =>
  ⟨.splBuild, by cases w <;> rcases kind with _ | _ | _ | _ <;> decide⟩

theorem EncodingFits.splRd (sel : BitVec 4) : EncodingFits.Statement (.splRd sel) := fun h =>
  ⟨.splRd, by revert h; revert sel; decide⟩

theorem EncodingFits.splLookup : EncodingFits.Statement .splLookup := fun _ => ⟨.splLookup, by decide⟩

theorem EncodingFits.splRel : EncodingFits.Statement .splRel := fun _ => ⟨.splRel, by decide⟩

theorem EncodingFits.nibBuild (w : Width) (kind : Option Kind) : EncodingFits.Statement (.nibBuild w kind) := fun _ =>
  ⟨.nibBuild, by cases w <;> rcases kind with _ | _ | _ | _ <;> decide⟩

theorem EncodingFits.nibRd (sel : BitVec 4) : EncodingFits.Statement (.nibRd sel) := fun h =>
  ⟨.nibRd, by revert h; revert sel; decide⟩

theorem EncodingFits.nibRel : EncodingFits.Statement .nibRel := fun _ => ⟨.nibRel, by decide⟩

theorem EncodingFits.vlookup (lane : Lane) : EncodingFits.Statement (.vlookup lane) := fun _ =>
  ⟨.vlookup, by cases lane <;> decide⟩

end Sys2Proof.Laws
end

