-- ==== Sys2Proof/Laws/Port.lean ====
section
/-! SUPPORT. What the host port can do: where an access lands, what a run of byte writes leaves, and the running VLOOKUP. -/

namespace Sys2Proof.Machine

/-- The model refuses exactly the accesses the spec does not define (R76). -/
theorem target_undefined_iff (s : State) (size : AccessSize) (off : Nat) :
    s.target size off = .undefinedAccess ↔ ¬AccessDefined s size off := by
  unfold State.target AccessDefined
  by_cases h : off < 0x1000
  · by_cases h2 : size = .b32 ∧ off % 4 = 0 <;> simp [h, h2]
  · by_cases h2 : s.dmemSize.toNat ≤ off - 0x1000
    · simp [h, h2]
    · by_cases h3 : (off - 0x1000) % AccessSize.bytes size = 0 ∧
          off - 0x1000 + AccessSize.bytes size ≤ s.dmemSize.toNat <;> simp [h, h2, h3]

theorem target_register_iff (s : State) (size : AccessSize) (off : Nat) (r : Option HostReg) :
    s.target size off = .register r ↔ off < 0x1000 ∧ size = .b32 ∧ off % 4 = 0 ∧ hostRegAt off = r := by
  unfold State.target
  by_cases h : off < 0x1000
  · by_cases h2 : size = .b32 ∧ off % 4 = 0 <;> simp [h, h2]
    tauto
  · by_cases h2 : s.dmemSize.toNat ≤ off - 0x1000
    · simp [h, h2]
    · by_cases h3 : (off - 0x1000) % AccessSize.bytes size = 0 ∧
          off - 0x1000 + AccessSize.bytes size ≤ s.dmemSize.toNat <;> simp [h, h2, h3]

/-- An access that lands in DMEM stays inside it. -/
theorem target_dmem {s : State} {size : AccessSize} {off a : Nat} (h : s.target size off = .dmem a) :
    off = 0x1000 + a ∧ a % AccessSize.bytes size = 0 ∧ a + AccessSize.bytes size ≤ s.dmemSize.toNat := by
  unfold State.target at h
  split at h
  · split at h <;> cases h
  · dsimp only at h
    split at h
    · cases h
    · split at h
      · rename_i h2
        obtain rfl : off - 0x1000 = a := Target.dmem.inj h
        exact ⟨by omega, h2⟩
      · cases h

theorem target_of_dmem {s : State} {size : AccessSize} {a : Nat} (h1 : a % AccessSize.bytes size = 0)
    (h2 : a + AccessSize.bytes size ≤ s.dmemSize.toNat) : s.target size (0x1000 + a) = .dmem a := by
  have : 0 < AccessSize.bytes size := by cases size <;> decide
  unfold State.target
  rw [if_neg (by omega), Nat.add_sub_cancel_left, if_neg (by omega), if_pos ⟨h1, h2⟩]

theorem target_past {s : State} {size : AccessSize} {off : Nat} (h : 0x1000 + s.dmemSize.toNat ≤ off) :
    s.target size off = .pastEnd := by
  unfold State.target
  rw [if_neg (by omega), if_pos (by omega)]

/-- The CTRL register stands at offset 4 and nowhere else (R32). -/
theorem hostRegAt_ctrl {off : Nat} (h : hostRegAt off = some .ctrl) : off = 0x004 := by
  unfold hostRegAt at h
  split at h <;> first | rfl | cases h

theorem runningLookup_iff (s : State) (l : Lookup) : s.runningLookup = some l ↔ RunningLookup s l := by
  unfold State.runningLookup RunningLookup
  cases hb : s.busy
  · simp
  · simp only [if_true, true_and]
    split
    · rename_i lane hd
      rw [hd]
      cases hs : s.lookupSetup lane with
      | error e =>
        simp only [Except.toOption, reduceCtorEq, false_iff]
        rintro ⟨h1, h2⟩
        cases h1
        rw [hs] at h2; cases h2
      | ok m =>
        have hm := (lookupSetup_ok hs).2.1
        simp only [Except.toOption, Option.some.injEq, DecodeResult.ok.injEq, Instr.vlookup.injEq]
        constructor
        · rintro rfl; subst hm; exact ⟨rfl, hs⟩
        · rintro ⟨rfl, h⟩; rw [hs] at h; exact Except.ok.inj h
    · rename_i hd
      simp only [reduceCtorEq, false_iff]
      rintro ⟨h, -⟩
      exact hd _ h

/-- What a host write of DMEM bytes leaves as it was. -/
structure DmemOnly (s t : State) : Prop where
  rest : t = { s with dmem := t.dmem, inView := t.inView, outKeep := t.outKeep, draws := t.draws }

theorem hostWriteByte_rest (s : State) (a : Nat) (b : Byte) : DmemOnly s (s.hostWriteByte a b) := by
  unfold State.hostWriteByte
  split <;> exact ⟨rfl⟩

@[simp] theorem hostWriteByte_dmem (s : State) (a : Nat) (b : Byte) :
    (s.hostWriteByte a b).dmem = Memory.set s.dmem a b := by
  unfold State.hostWriteByte
  split <;> rfl

@[simp] theorem hostWriteByte_dmemSize (s : State) (a : Nat) (b : Byte) :
    (s.hostWriteByte a b).dmemSize = s.dmemSize := by
  rw [(hostWriteByte_rest s a b).rest]

theorem hostWriteByte_viewWf (s : State) (a : Nat) (b : Byte) (h : Memory.wf s.inView = true) :
    Memory.wf (s.hostWriteByte a b).inView = true := by
  unfold State.hostWriteByte
  split
  · exact h
  · dsimp only
    split
    · exact set_keeps_wf _ _ _ h
    · exact h

theorem hostWriteBytes_rest (s : State) (a : Nat) (bs : List Byte) : DmemOnly s (s.hostWriteBytes a bs) := by
  induction bs generalizing s a with
  | nil => exact ⟨rfl⟩
  | cons b bs ih =>
    constructor
    have h1 := (hostWriteByte_rest s a b).rest
    have h2 := (ih (s.hostWriteByte a b) (a + 1)).rest
    rw [State.hostWriteBytes, h2, h1]

/-- A run of byte writes writes its bytes at rising addresses (R75). -/
theorem hostWriteBytes_dmem (s : State) (a : Nat) (bs : List Byte) :
    (s.hostWriteBytes a bs).dmem = Memory.writeFrom [] bs a s.dmem := by
  induction bs generalizing s a with
  | nil => rfl
  | cons b bs ih => simp [State.hostWriteBytes, ih, Memory.writeFrom]

theorem hostWriteBytes_viewWf (s : State) (a : Nat) (bs : List Byte) (h : Memory.wf s.inView = true) :
    Memory.wf (s.hostWriteBytes a bs).inView = true := by
  induction bs generalizing s a with
  | nil => exact h
  | cons b bs ih => exact ih _ _ (hostWriteByte_viewWf s a b h)

theorem length_bytesLE (n : Nat) (v : Word) : (bytesLE n v).length = n := by simp [bytesLE]

theorem getElem?_bytesLE (n : Nat) (v : Word) (k : Nat) (h : k < n) :
    (bytesLE n v)[k]? = some (v.extractLsb' (8 * k) 8) := by
  simp [bytesLE, h]

end Sys2Proof.Machine
end

