-- ==== Sys2Proof/Laws/Race.lean ====
section
/-! SUPPORT. What one step can do, and what a race of host accesses with a running VLOOKUP depends on (R79): two states that
agree on it write the same bytes, now and after the same inputs. -/

namespace Sys2Proof.Machine

/-- What one step can do: the access of its turn, and then the completion of the running command or nothing. -/
theorem step_cases {s t : State} (h : step s = .next t) :
    ∃ s1, s.hostStep s.nextTurn.event = .next s1 ∧
      ((s.busy = true ∧ s1.busy = true ∧ s.nextTurn.completes = true ∧ runCommand s1.popTurn = .next t) ∨
       ((s.busy = false ∨ s1.busy = false ∨ s.nextTurn.completes = false) ∧ t = s1.popTurn)) := by
  simp only [step, advance] at h
  split at h
  · rename_i s1 h1
    refine ⟨s1, h1, ?_⟩
    split at h
    · rename_i hc
      simp only [completesNow, Bool.and_eq_true] at hc
      exact .inl ⟨hc.1.1, hc.1.2, hc.2, h⟩
    · rename_i hc
      cases h
      refine .inr ⟨?_, rfl⟩
      simp only [completesNow, Bool.and_eq_true, not_and_or, Bool.not_eq_true] at hc
      tauto
  · cases h
  · cases h

/-- Two states agree on everything that a race depends on. -/
structure SameRace (s t : State) : Prop where
  busy : s.busy = t.busy
  lcmd : s.lcmd = t.lcmd
  lopb : s.lopb = t.lopb
  lopc : s.lopc = t.lopc
  nib : s.nib = t.nib
  dmemSize : s.dmemSize = t.dmemSize
  dmem : s.dmem = t.dmem
  inView : s.inView = t.inView
  draws : s.draws = t.draws

theorem SameRace.refl (s : State) : SameRace s s := ⟨rfl, rfl, rfl, rfl, rfl, rfl, rfl, rfl, rfl⟩

variable {s t : State}

theorem SameRace.lookupSetup (h : SameRace s t) (lane : Lane) : s.lookupSetup lane = t.lookupSetup lane := by
  simp only [State.lookupSetup, h.lopb, h.lopc, h.nib, h.dmemSize]

theorem SameRace.runningLookup (h : SameRace s t) : s.runningLookup = t.runningLookup := by
  simp only [State.runningLookup, h.busy, h.lcmd, h.lookupSetup]

theorem SameRace.running (h : SameRace s t) {l : Lookup} (hl : RunningLookup s l) : RunningLookup t l :=
  (runningLookup_iff t l).1 (h.runningLookup ▸ (runningLookup_iff s l).2 hl)

theorem SameRace.engineByte (h : SameRace s t) (n a : Nat) : s.engineByte n a = t.engineByte n a := by
  simp only [State.engineByte, h.inView, h.dmem]

theorem SameRace.output (h : SameRace s t) (l : Lookup) (n : Nat) : l.output s n = l.output t n := by
  simp only [Lookup.output, State.engineElement, h.engineByte]

theorem SameRace.target (h : SameRace s t) (size : AccessSize) (off : Nat) : s.target size off = t.target size off := by
  simp only [State.target, h.dmemSize]

theorem SameRace.spendDraws (h : SameRace s t) : SameRace s.spendDraws t.spendDraws :=
  ⟨h.busy, h.lcmd, h.lopb, h.lopc, h.nib, h.dmemSize, h.dmem, h.inView, congrArg (· + 2) h.draws⟩

theorem SameRace.hostWriteByte (h : SameRace s t) (a : Nat) (b : Byte) :
    SameRace (s.hostWriteByte a b) (t.hostWriteByte a b) := by
  unfold State.hostWriteByte
  rw [h.runningLookup]
  split
  · exact ⟨h.busy, h.lcmd, h.lopb, h.lopc, h.nib, h.dmemSize, by simp only [h.dmem], h.inView, h.draws⟩
  · exact ⟨h.busy, h.lcmd, h.lopb, h.lopc, h.nib, h.dmemSize, by simp only [h.dmem],
      by simp only [h.inView, h.draws, h.engineByte], h.draws⟩

theorem SameRace.hostWriteBytes (h : SameRace s t) (a : Nat) (bs : List Byte) :
    SameRace (s.hostWriteBytes a bs) (t.hostWriteBytes a bs) := by
  induction bs generalizing s t a with
  | nil => exact h
  | cons b bs ih => exact ih (h.hostWriteByte a b) (a + 1)

theorem SameRace.dmemWrite (h : SameRace s t) (n a : Nat) (v : Word) : SameRace (s.dmemWrite n a v) (t.dmemWrite n a v) :=
  (h.hostWriteBytes a _).spendDraws

/-- The look ahead over one input depends on nothing else. -/
theorem SameRace.pastInput (h : SameRace s t) (e : HostEvent) : Option.Rel SameRace (s.pastInput e) (t.pastInput e) := by
  cases e with
  | idle => exact .some h
  | reset => exact .none
  | read size off =>
    simp only [State.pastInput, h.target]
    cases t.target size off
    · exact .some h
    · exact .some h.spendDraws
    · exact .some h
    · exact .none
  | write size off v =>
    simp only [State.pastInput, h.target]
    cases t.target size off
    · dsimp only
      split
      · exact .none
      · exact .some h
    · exact .some (h.dmemWrite _ _ _)
    · exact .some h
    · exact .none

theorem SameRace.atCompletion (h : SameRace s t) (ts : List Turn) : SameRace (s.atCompletion ts) (t.atCompletion ts) := by
  induction ts generalizing s t with
  | nil => exact h
  | cons u ts ih =>
    have hp := h.pastInput u.event
    rw [State.atCompletion, State.atCompletion]
    cases hs : s.pastInput u.event <;> cases ht : t.pastInput u.event <;> rw [hs, ht] at hp <;> cases hp
    · exact h
    · rename_i hp
      dsimp only
      split
      · exact hp
      · exact ih hp

theorem SameRace.promise (h : SameRace s t) (ht : s.turns = t.turns) (l : Lookup) : s.promise l = t.promise l := by
  have hc := h.atCompletion t.turns
  rw [State.promise, State.promise, ht, hc.output, hc.draws]

/-- A register write that leaves a command running is no soft reset, and changes only these registers. -/
theorem regWrite_running {v : Word} {r : Option HostReg} (hb : s.busy = true) (h : (s.regWrite v r).busy = true) :
    ¬(r = some .ctrl ∧ v.getLsbD 1 = true) ∧
    s.regWrite v r = { s with
      irqEn := (s.regWrite v r).irqEn, done := (s.regWrite v r).done, errcode := (s.regWrite v r).errcode,
      oob := (s.regWrite v r).oob, ovr := (s.regWrite v r).ovr,
      opa := (s.regWrite v r).opa, opb := (s.regWrite v r).opb, opc := (s.regWrite v r).opc } := by
  rcases r with _ | r
  · exact ⟨by simp, rfl⟩
  · cases r
    case ctrl =>
      cases hv : v.getLsbD 1
      · exact ⟨fun h => (nomatch h.2), by simp only [State.regWrite, hv]; rfl⟩
      · simp only [State.regWrite, hv, if_true, State.softReset] at h
        split at h <;> cases h
    case status =>
      refine ⟨by simp, ?_⟩
      simp only [State.regWrite, State.writeStatus]
      split <;> rfl
    case cmd => exact ⟨by simp, by simp only [State.regWrite, hb, if_true]⟩
    all_goals exact ⟨by simp, rfl⟩

/-- A host access that leaves a command running does to a race what the look ahead says. -/
theorem hostStep_pastInput {e : HostEvent} {s1 : State} (h : s.hostStep e = .next s1) (hb : s.busy = true)
    (hb1 : s1.busy = true) : ∃ f, s.pastInput e = some f ∧ SameRace f s1 ∧ s1.turns = s.turns := by
  cases e with
  | idle => cases h; exact ⟨s, rfl, .refl s, rfl⟩
  | reset => cases h; cases hb1
  | read size off =>
    simp only [State.hostStep, State.hostRead] at h
    simp only [State.pastInput]
    cases ht : s.target size off <;> rw [ht] at h <;> cases h
    · exact ⟨s, rfl, ⟨rfl, rfl, rfl, rfl, rfl, rfl, rfl, rfl, rfl⟩, rfl⟩
    · exact ⟨_, rfl, ⟨rfl, rfl, rfl, rfl, rfl, rfl, rfl, rfl, rfl⟩, rfl⟩
    · exact ⟨s, rfl, ⟨rfl, rfl, rfl, rfl, rfl, rfl, rfl, rfl, rfl⟩, rfl⟩
  | write size off v =>
    simp only [State.hostStep, State.hostWrite] at h
    simp only [State.pastInput]
    cases ht : s.target size off <;> rw [ht] at h <;> cases h
    · obtain ⟨hn, he⟩ := regWrite_running hb hb1
      rw [he]
      exact ⟨s, if_neg hn, ⟨rfl, rfl, rfl, rfl, rfl, rfl, rfl, rfl, rfl⟩, rfl⟩
    · refine ⟨_, rfl, .refl _, ?_⟩
      rw [State.dmemWrite, State.spendDraws, (hostWriteBytes_rest s _ _).rest]
    · exact ⟨s, rfl, .refl s, rfl⟩

/-- The look ahead over one input changes only what a host access to DMEM changes. -/
theorem pastInput_rest {e : HostEvent} {f : State} (h : s.pastInput e = some f) : DmemOnly s f := by
  cases e with
  | idle => cases h; exact ⟨rfl⟩
  | reset => cases h
  | read size off =>
    simp only [State.pastInput] at h
    split at h <;> cases h <;> exact ⟨rfl⟩
  | write size off v =>
    simp only [State.pastInput] at h
    split at h
    · cases h
      refine ⟨?_⟩
      rw [State.dmemWrite, State.spendDraws, (hostWriteBytes_rest s _ _).rest]
    · split at h <;> cases h
      exact ⟨rfl⟩
    · cases h; exact ⟨rfl⟩
    · cases h

/-- A VLOOKUP that a host access leaves running is the same VLOOKUP. -/
theorem hostStep_running {e : HostEvent} {s1 : State} {l : Lookup} (h : s.hostStep e = .next s1) (hl : RunningLookup s l)
    (hb1 : s1.busy = true) : RunningLookup s1 l := by
  obtain ⟨f, hf, hr, -⟩ := hostStep_pastInput h hl.1 hb1
  refine hr.running ?_
  rw [(pastInput_rest hf).rest]
  exact hl

/-- What a host write of one byte does to a running VLOOKUP (R79): an input byte at that address becomes the written byte or
stays what the command would have read, and every other address is left alone. -/
theorem hostWriteByte_race {l : Lookup} (hl : RunningLookup s l) (hm : Memory.wf s.dmem = true)
    (hv : Memory.wf s.inView = true) (a : Nat) (b : Byte) :
    (∀ x, x ≠ a → (∀ n, (s.hostWriteByte a b).engineByte n x = s.engineByte n x) ∧
      (x ∈ (s.hostWriteByte a b).outKeep ↔ x ∈ s.outKeep)) ∧
    (l.reads a = true → (∀ n, (s.hostWriteByte a b).engineByte n a = b) ∨
      ∀ n, (s.hostWriteByte a b).engineByte n a = s.engineByte s.draws a) := by
  have h := (runningLookup_iff s l).2 hl
  simp only [State.hostWriteByte, h]
  refine ⟨fun x hx => ⟨fun n => ?_, ?_⟩, fun hr => ?_⟩
  · simp only [State.engineByte, get?_set _ _ _ _ hm, if_neg hx]
    split
    · rw [get?_set _ _ _ _ hv, if_neg hx]
    · rfl
  · split
    · split <;> simp [hx]
    · rfl
  · simp only [State.engineByte, hr, if_true, get?_set_self _ _ _ hv]
    cases Config.freePick s.draws a <;> simp

theorem hostWriteByte_draws (a : Nat) (b : Byte) : (s.hostWriteByte a b).draws = s.draws := by
  unfold State.hostWriteByte
  split <;> rfl

/-- The same for a run of bytes. -/
theorem hostWriteBytes_race {l : Lookup} (hl : RunningLookup s l) (hm : Memory.wf s.dmem = true)
    (hv : Memory.wf s.inView = true) (a : Nat) (bs : List Byte) :
    (∀ x, x < a ∨ a + bs.length ≤ x → (∀ n, (s.hostWriteBytes a bs).engineByte n x = s.engineByte n x) ∧
      (x ∈ (s.hostWriteBytes a bs).outKeep ↔ x ∈ s.outKeep)) ∧
    (∀ k y, bs[k]? = some y → l.reads (a + k) = true → (∀ n, (s.hostWriteBytes a bs).engineByte n (a + k) = y) ∨
      ∀ n, (s.hostWriteBytes a bs).engineByte n (a + k) = s.engineByte s.draws (a + k)) := by
  induction bs generalizing s a with
  | nil => exact ⟨fun _ _ => ⟨fun _ => rfl, .rfl⟩, by simp⟩
  | cons b bs ih =>
    obtain ⟨h1, h2⟩ := hostWriteByte_race hl hm hv a b
    have hl' : RunningLookup (s.hostWriteByte a b) l := by rw [(hostWriteByte_rest s a b).rest]; exact hl
    obtain ⟨i1, i2⟩ := ih hl' (by rw [hostWriteByte_dmem]; exact set_keeps_wf _ _ _ hm) (hostWriteByte_viewWf s a b hv) (a + 1)
    simp only [State.hostWriteBytes, List.length_cons]
    refine ⟨fun x hx => ?_, fun k y hk hr => ?_⟩
    · obtain ⟨j1, j2⟩ := i1 x (by omega)
      obtain ⟨k1, k2⟩ := h1 x (by omega)
      exact ⟨fun n => (j1 n).trans (k1 n), j2.trans k2⟩
    · cases k with
      | zero =>
        obtain rfl : b = y := by simpa using hk
        simpa only [Nat.add_zero, (i1 a (by omega)).1] using h2 hr
      | succ k =>
        have e : a + 1 + k = a + (k + 1) := by omega
        have hi := i2 k y (by simpa using hk) (by rw [e]; exact hr)
        rw [e, hostWriteByte_draws, (h1 _ (by omega)).1] at hi
        exact hi

end Sys2Proof.Machine
end

