-- ==== Sys2Proof/Tests/Slice0.lean ====
section
/-! SUPPORT. The model's own tests: ill-formed commands, command words written out from the encoding tables, single steps
against the spec's test vectors (95_test_vectors.md), and a witness for the hypotheses of each statement. -/

namespace Sys2Proof.Tests

open Sys2Proof Sys2Proof.Machine

/-! ## Well-formedness: each check refuses an ill-formed term and passes the terms at its edge (R102, R106) -/

theorem test_splRd_wellFormed :
    (Instr.splRd 2#4).wellFormed = false ∧ (Instr.splRd 8#4).wellFormed = false ∧
    (Instr.splRd 0#4).wellFormed = true ∧ (Instr.splRd 1#4).wellFormed = true := by decide

theorem test_nibRd_wellFormed :
    (Instr.nibRd 8#4).wellFormed = false ∧ (Instr.nibRd 15#4).wellFormed = false ∧
    (Instr.nibRd 0#4).wellFormed = true ∧ (Instr.nibRd 7#4).wellFormed = true := by decide

/-- The reserved KIND and the widths that raise E_WIDTH are words of the table (R103, R108). -/
theorem test_reserved_kind_wellFormed :
    (Instr.rtBuild .w8 none).wellFormed = true ∧ (Instr.splBuild .w8 (some .divAByX)).wellFormed = true := by decide

/-! ## Decoding: for every constructor a word written out bit by bit (R102 to R105, R108)

The fields from the top: 16 reserved bits, SEL, LANE, KIND, WSEL, OP. -/

/-- A command word from its fields (R102). -/
def word (sel : BitVec 4) (lane : BitVec 1) (kind : BitVec 2) (wsel : BitVec 1) (op : BitVec 8) : Word :=
  0#16 ++ sel ++ lane ++ kind ++ wsel ++ op

theorem test_decode_init :
    decode (word 0 0 0 0b0 0b00000001) = .ok (.init .w8) ∧ decode (word 0 0 0 0b1 0b00000001) = .ok (.init .w16) := by decide

theorem test_decode_expRd :
    decode (word 0 0 0 0b0 0b00000010) = .ok (.expRd .w8) ∧ decode (word 0 0 0 0b1 0b00000010) = .ok (.expRd .w16) := by decide

theorem test_decode_idxRd :
    decode (word 0 0 0 0b0 0b00000011) = .ok (.idxRd .w8) ∧ decode (word 0 0 0 0b1 0b00000011) = .ok (.idxRd .w16) := by decide

theorem test_decode_mul :
    decode (word 0 0 0 0b0 0b00010000) = .ok (.mul .w8) ∧ decode (word 0 0 0 0b1 0b00010000) = .ok (.mul .w16) := by decide

theorem test_decode_div :
    decode (word 0 0 0 0b0 0b00010001) = .ok (.div .w8) ∧ decode (word 0 0 0 0b1 0b00010001) = .ok (.div .w16) := by decide

theorem test_decode_mulz :
    decode (word 0 0 0 0b0 0b00010010) = .ok (.mulz .w8) ∧ decode (word 0 0 0 0b1 0b00010010) = .ok (.mulz .w16) := by decide

theorem test_decode_divz :
    decode (word 0 0 0 0b0 0b00010011) = .ok (.divz .w8) ∧ decode (word 0 0 0 0b1 0b00010011) = .ok (.divz .w16) := by decide

theorem test_decode_rtBuild :
    decode (word 0 0 0b00 0b1 0b00100000) = .ok (.rtBuild .w16 (some .mul)) ∧
    decode (word 0 0 0b01 0b0 0b00100000) = .ok (.rtBuild .w8 (some .divAByX)) ∧
    decode (word 0 0 0b11 0b1 0b00100000) = .ok (.rtBuild .w16 none) := by decide

theorem test_decode_rtRd : decode (word 0 0 0 0 0b00100001) = .ok .rtRd := by decide

theorem test_decode_rtRel : decode (word 0 0 0 0 0b00100010) = .ok .rtRel := by decide

theorem test_decode_splBuild :
    decode (word 0 0 0b00 0b1 0b00101000) = .ok (.splBuild .w16 (some .mul)) ∧
    decode (word 0 0 0b10 0b1 0b00101000) = .ok (.splBuild .w16 (some .divXByA)) := by decide

theorem test_decode_splRd :
    decode (word 0b0000 0 0 0 0b00101001) = .ok (.splRd 0) ∧ decode (word 0b0001 0 0 0 0b00101001) = .ok (.splRd 1) ∧
    decode (word 0b0010 0 0 0 0b00101001) = .error .rsvd := by decide

theorem test_decode_splLookup : decode (word 0 0 0 0 0b00101010) = .ok .splLookup := by decide

theorem test_decode_splRel : decode (word 0 0 0 0 0b00101011) = .ok .splRel := by decide

theorem test_decode_nibBuild :
    decode (word 0 0 0b00 0b1 0b00110000) = .ok (.nibBuild .w16 (some .mul)) ∧
    decode (word 0 0 0b01 0b0 0b00110000) = .ok (.nibBuild .w8 (some .divAByX)) := by decide

theorem test_decode_nibRd :
    decode (word 0b0101 0 0 0 0b00110001) = .ok (.nibRd 5) ∧ decode (word 0b0111 0 0 0 0b00110001) = .ok (.nibRd 7) ∧
    decode (word 0b1000 0 0 0 0b00110001) = .error .rsvd := by decide

theorem test_decode_nibRel : decode (word 0 0 0 0 0b00110010) = .ok .nibRel := by decide

theorem test_decode_vlookup :
    decode (word 0 0b0 0 0 0b00111000) = .ok (.vlookup .l128) ∧ decode (word 0 0b1 0 0 0b00111000) = .ok (.vlookup .l256) := by
  decide

/-- 95_test_vectors.md section 9: undefined opcodes. -/
theorem test_decode_illegal :
    decode 0x00000000#32 = .error .illegal ∧ decode 0x00000004#32 = .error .illegal ∧
    decode 0x000000FF#32 = .error .illegal := by decide

/-- 95_test_vectors.md sections 5, 8 and 9: bits an opcode does not use. -/
theorem test_decode_rsvd :
    decode 0x00010110#32 = .error .rsvd ∧ decode 0x00000121#32 = .error .rsvd ∧
    decode 0x00000238#32 = .error .rsvd := by decide

theorem test_decodeTableWord :
    decodeTableWord 32 0x00001029 = some (.splRd 1) ∧ decodeTableWord 32 0x00000121 = none ∧
    decodeTableWord 16 0x0110 = some (.mul .w16) ∧ decodeTableWord 8 0x11 = some (.div .w8) := by decide

/-! ## Single steps against the vectors of 95_test_vectors.md (EXP_TAIL = 32, DMEM_BYTES = 256) -/

/-- A block with the vectors' parameters, the given latched operands and contents. -/
def block (a b c : Word) (m : List Host.Cell) : State :=
  { State.powerOn 32#32 256#32 with lopa := a, lopb := b, lopc := c, dmem := m }

/-- The block after INIT.8. -/
def block8 (a b : Word) : State := { block a b 0 [] with ctx8 := buildCtx .w8 32 }

/-- What a test looks at in the next state, nothing where there is none. -/
def after {α : Type} (f : State → α) : Host.Outcome State Fault Refusal → Option α
  | .next t => some (f t)
  | .fault _ | .refused _ => none

/-- RESULT, OOB and ERRCODE after a step. -/
def seen (o : Host.Outcome State Fault Refusal) : Option (Word × Bool × ErrCode) :=
  after (fun t => (t.result, t.oob, t.errcode)) o

/-- Section 3: INIT.8 from reset, STATUS = DONE and RDY8. -/
theorem test_init8_status :
    after (fun t => t.status) (exec (.init .w8) (block 0 0 0 [])) = some (0x00010002#32) := by decide +kernel

/-- Section 3: INIT of a context that is ready. -/
theorem test_init8_twice : seen (exec (.init .w8) (block8 0 0)) = some (0, false, .reinit) := by decide +kernel

/-- Section 3: Exp_8[8], the first reduced entry, and Exp_8[541], the last of the tail. -/
theorem test_expRd8 :
    seen (exec (.expRd .w8) (block8 0 8)) = some (0xE7, false, .success) ∧
    seen (exec (.expRd .w8) (block8 0 541)) = some (0, false, .success) := by decide +kernel

/-- Section 3: past the tail, and before INIT. -/
theorem test_expRd8_errors :
    seen (exec (.expRd .w8) (block8 0 542)) = some (0, false, .range) ∧
    seen (exec (.expRd .w8) (block 0 0 0 [])) = some (0, false, .notReady) := by decide +kernel

/-- Section 3: the sentinel, and Idx_8[0xF3] = 254. -/
theorem test_idxRd8 :
    seen (exec (.idxRd .w8) (block8 0 0)) = some (509, false, .success) ∧
    seen (exec (.idxRd .w8) (block8 0 0xF3)) = some (254, false, .success) := by decide +kernel

/-- Section 4: MUL 0x53, 0xCA and MUL 1, 0. -/
theorem test_mul8 :
    seen (exec (.mul .w8) (block8 0x53 0xCA)) = some (0x50, false, .success) ∧
    seen (exec (.mul .w8) (block8 1 0)) = some (0xF3, false, .success) := by decide +kernel

/-- Section 4: MUL 3, 0 reads out of range, so OOB is set and no error is raised. -/
theorem test_mul8_oob :
    (seen (exec (.mul .w8) (block8 3 0))).map (·.2) = some (true, .success) := by decide +kernel

/-- Section 4: DIV 3, 7 and DIV 0xF3, 0. -/
theorem test_div8 :
    seen (exec (.div .w8) (block8 3 7)) = some (0x4C, false, .success) ∧
    seen (exec (.div .w8) (block8 0xF3 0)) = some (1, false, .success) := by decide +kernel

/-- Section 4: DIV 5, 0 reads at a negative index. -/
theorem test_div8_oob :
    (seen (exec (.div .w8) (block8 5 0))).map (·.2) = some (true, .success) := by decide +kernel

/-- Section 4: MULZ of a zero operand is 0. -/
theorem test_mulz8 :
    seen (exec (.mulz .w8) (block8 0xFF 0xFF)) = some (0xDA, false, .success) ∧
    seen (exec (.mulz .w8) (block8 3 0)) = some (0, false, .success) := by decide +kernel

/-- Section 4: DIVZ by 0, and DIVZ 0x50, 0xCA. -/
theorem test_divz8 :
    seen (exec (.divz .w8) (block8 5 0)) = some (0, false, .div0) ∧
    seen (exec (.divz .w8) (block8 0x50 0xCA)) = some (0x53, false, .success) := by decide +kernel

/-- The entry of the full table at a place. -/
def entryAt (x : Nat) (o : Host.Outcome State Fault Refusal) : Option (Option (BitVec 16)) :=
  after (fun t => t.rt.bind fun r => r.entries[x]?) o

/-- Section 5: RT_BUILD.8.DIVAX 2 at 3, RT_BUILD.8.DIVXA 2 at 3. -/
theorem test_rtBuild8 :
    entryAt 3 (exec (.rtBuild .w8 (some .divAByX)) (block8 2 0)) = some (some 0xA3) ∧
    entryAt 3 (exec (.rtBuild .w8 (some .divXByA)) (block8 2 0)) = some (some 0xF2) := by decide +kernel

/-- Section 9: E_KIND comes before E_NOTREADY. -/
theorem test_rtBuild_kind : seen (exec (.rtBuild .w16 none) (block 0 0 0 [])) = some (0, false, .kind) := by decide

/-- The full table of RT_BUILD.8.MUL 2, by section 5 for the entries tested. -/
def heldTable : FullTable := ⟨.w8, .mul, 2, Vector.ofFn fun x => if x.val = 0x80 then 0xE7 else 0⟩

/-- Section 5: RT_RD of an entry and past the table. -/
theorem test_rtRd :
    seen (exec .rtRd { block 0 0x80 0 [] with rt := some heldTable }) = some (0xE7, false, .success) ∧
    seen (exec .rtRd { block 0 0x100 0 [] with rt := some heldTable }) = some (0, false, .range) := by decide +kernel

/-- Section 5: RT_REL of an empty slot. -/
theorem test_rtRel_empty : seen (exec .rtRel (block 0 0 0 [])) = some (0, false, .noTable) := by decide

/-- Section 6: the width and the kind of SPL_BUILD. -/
theorem test_splBuild_errors :
    seen (exec (.splBuild .w8 (some .mul)) (block 0 0 0 [])) = some (0, false, .width) ∧
    seen (exec (.splBuild .w16 (some .divAByX)) (block 0 0 0 [])) = some (0, false, .kind) := by decide

/-- A split table with the entries of section 6 (MUL 0x3f29) for 0x34 in the low and 0x12 in the high table. -/
def heldSplit : SplitTable :=
  ⟨.mul, 0x3F29, Vector.ofFn fun v => if v.val = 0x34 then 0xAB38 else 0,
    Vector.ofFn fun v => if v.val = 0x12 then 0xAB61 else 0⟩

/-- Section 6: SPL_RD.LO and SPL_RD.HI. -/
theorem test_splRd :
    seen (exec (.splRd 0) { block 0 0x34 0 [] with spl := some heldSplit }) = some (0xAB38, false, .success) ∧
    seen (exec (.splRd 1) { block 0 0x12 0 [] with spl := some heldSplit }) = some (0xAB61, false, .success) := by
  decide +kernel

/-- Section 6: SPL_LOOKUP 0x1234 = 0x0059, and a 17-bit operand. -/
theorem test_splLookup :
    seen (exec .splLookup { block 0 0x1234 0 [] with spl := some heldSplit }) = some (0x0059, false, .success) ∧
    seen (exec .splLookup { block 0 0x10000 0 [] with spl := some heldSplit }) = some (0, false, .range) := by
  decide +kernel

/-- Section 6: SPL_REL of an empty slot. -/
theorem test_splRel_empty : seen (exec .splRel (block 0 0 0 [])) = some (0, false, .noTable) := by decide

/-- Section 7: E_KIND comes before E_WIDTH. -/
theorem test_nibBuild_kind :
    seen (exec (.nibBuild .w8 (some .divAByX)) (block 0 0 0 [])) = some (0, false, .kind) := by decide

/-- A table row of section 7, its first entry the most significant byte. -/
def row (v : BitVec 128) : Vector Byte 16 := Vector.ofFn fun i => v.extractLsb' (8 * (15 - i.val)) 8

/-- The nibble tables of section 7 for MUL 0x3f29. -/
def heldNibbles : NibTable :=
  ⟨.mul, 0x3F29, #v[row 0x0029527ba48df6df436a1138e7ceb59c, row 0x003f7e41fcc382bde9d697a8152a6b54,
    row 0x008d119c29a438b552df43ce7bf66ae7, row 0x00c295573af8af6d74b6e1234e8cdb19,
    row 0x00a443e78d29ce6a11b552f69c38df7b, row 0x00e8c129927a53bb35ddf41ca74f668e,
    row 0x0022446683a1c7e50d2f496b8eaccae8, row 0x006ad4beb8d26c06610bb5dfd9b30d67]⟩

/-- Section 7: NIB_RD.1 1 and NIB_RD.7 15. -/
theorem test_nibRd :
    seen (exec (.nibRd 1) { block 0 1 0 [] with nib := some heldNibbles }) = some (0x3F, false, .success) ∧
    seen (exec (.nibRd 7) { block 0 15 0 [] with nib := some heldNibbles }) = some (0x67, false, .success) := by
  decide +kernel

/-- Section 7: a SEL of which the opcode uses only three bits, and an entry past the table. -/
theorem test_nibRd_errors :
    seen (exec (.nibRd 8) { block 0 0 0 [] with nib := some heldNibbles }) = some (0, false, .rsvd) ∧
    seen (exec (.nibRd 7) { block 0 16 0 [] with nib := some heldNibbles }) = some (0, false, .range) := by decide +kernel

/-- Section 7: NIB_REL of an empty slot. -/
theorem test_nibRel_empty : seen (exec .nibRel (block 0 0 0 [])) = some (0, false, .noTable) := by decide

/-- Two DMEM bytes after a step. -/
def bytesAt (a : Nat) (o : Host.Outcome State Fault Refusal) : Option (Option Byte × Option Byte) :=
  after (fun t => (Memory.get? t.dmem a, Memory.get? t.dmem (a + 1))) o

/-- Section 8, the lane walk: element 0x0015 gives 0x0100, little-endian; here in place at the last chunk that fits. -/
theorem test_vlookup_element :
    bytesAt 0xE0 (exec (.vlookup .l128)
      { block 0 0xE0 0xE0 [(0xE0, 0x15), (0xE1, 0x00)] with nib := some heldNibbles }) = some (some 0x00, some 0x01) := by
  decide +kernel

/-- R79: what a racing read may be promised is what the same VLOOKUP writes: element 0x0015 gives 0x0100. -/
theorem test_promise :
    (({ block 0 0 0xE0 [(0, 0x15), (1, 0x00)] with
        nib := some heldNibbles, busy := true, lcmd := 0x38#32, turns := [⟨.read .b32 0x10E0, false⟩] }).promise
      ⟨heldNibbles, .l128, 0, 0xE0⟩).take 2 = [0x00, 0x01] := by decide +kernel

/-- Section 8, the address vectors. -/
theorem test_vlookup_errors :
    seen (exec (.vlookup .l128) { block 0 0x01 0x200 [] with nib := some heldNibbles }) = some (0, false, .align) ∧
    seen (exec (.vlookup .l256) { block 0 0x00 0xC2 [] with nib := some heldNibbles }) = some (0, false, .bounds) := by
  decide +kernel

/-- Section 4 and 6: the reference product of R18 for W = 16. -/
theorem test_gfmul16 :
    gfmul .w16 0x3F29 0x3F29 = 0x7366 ∧ gfmul .w16 0x1234 0x5678 = 0x6324 ∧ gfmul .w16 0x3F29 0x1234 = 0x0059 := by
  decide +kernel

/-! ## The host port -/

/-- Program P1: STATUS after a DIVZ by zero is 0x000100A2. -/
theorem test_status_word :
    ({ block8 0 0 with done := true, errcode := .div0 }).status = 0x000100A2#32 := by decide +kernel

/-- R75: a 32-bit DMEM write, least significant byte first. -/
theorem test_dmem_write :
    after (fun t => t.dmem) ((block 0 0 0 []).hostWrite .b32 0x1004 0x44332211#32) = some ([(4, 0x11), (5, 0x22), (6, 0x33), (7, 0x44)]) := by decide

/-- R75: and a 16-bit read of two of them. -/
theorem test_dmem_read :
    after (fun t => t.readData) ((block 0 0 0 [(4, 0x11), (5, 0x22), (6, 0x33), (7, 0x44)]).hostRead .b16 0x1006) = some (0x4433#32) := by decide

/-- R51: a CMD write while BUSY = 1 sets OVR and keeps LCMD. -/
theorem test_cmd_dropped :
    after (fun t => (t.ovr, t.lcmd)) (({ block 0 0 0 [] with busy := true, lcmd := 0x38#32 }).hostWrite .b32 0x00C 1#32) = some ((true, 0x38#32)) := by decide

/-- R50: a command completes in the first step after its acceptance. -/
theorem test_withFetchWord_runs :
    after (fun t => (t.busy, t.done, t.errcode)) (step ((block 0 0 0 []).withFetchWord 32 0x22)) = some ((false, true, .noTable)) := by decide

/-! ## Witnesses: for each statement with hypotheses, states and operands that meet all of them together -/

/-- The context INIT builds with EXP_TAIL = 32. -/
@[irreducible] def ctxOf (w : Width) : FieldCtx w.bits := ⟨expTable w 32 (powersOfX w), idxTable w (powersOfX w)⟩

theorem ctxOf_built (w : Width) : buildCtx w 32 = some (ctxOf w) := by
  unfold ctxOf; exact buildCtx_eq w 32

/-- Both contexts built, no table held, no command running. -/
def ready (a b c : Word) (m : List Host.Cell) : State :=
  { block a b c m with ctx8 := some (ctxOf .w8), ctx16 := some (ctxOf .w16) }

/-- The full table RT_BUILD.8.MUL 2 makes. -/
def fullOf : FullTable := fullTable .w8 (ctxOf .w8) .mul 2 0

/-- The tables SPL_BUILD.16.DIVXA 2 makes. -/
def splitOf : SplitTable := splitTable (ctxOf .w16) .divXByA 2 0

/-- The tables NIB_BUILD.16.MUL 0x3f29 makes. -/
def nibblesOf : NibTable := nibbleTable (ctxOf .w16) .mul 0x3F29 0

/-- Both contexts built and every slot full. -/
def holding (a b c : Word) (m : List Host.Cell) : State :=
  { ready a b c m with rt := some fullOf, spl := some splitOf, nib := some nibblesOf }

/-- The same with a command running. -/
def running (cmd a b c : Word) (m : List Host.Cell) : State := { holding a b c m with busy := true, lcmd := cmd }

/-- The contexts and tables the witnesses hold meet the invariant. -/
theorem inv_of (s : State) (hm : Memory.wf s.dmem = true) (hin : ∀ c ∈ s.dmem, c.1 < 256) (hv : s.inView = [])
    (hd : s.dmemSize = 256#32) (he : s.expTail = 32#32) (h8 : s.ctx8 = some (ctxOf .w8))
    (h16 : s.ctx16 = some (ctxOf .w16)) (hr : ∀ t, s.rt = some t → t = fullOf) (hs : ∀ t, s.spl = some t → t = splitOf)
    (hn : ∀ t, s.nib = some t → t = nibblesOf) (hdone : s.done = false) (herr : s.errcode = .success) : StateInv s := by
  refine ⟨hm, by rw [hd]; exact hin, by rw [hv]; rfl, by rw [hd]; decide, ?_, ?_, ?_, ?_, fun _ => hdone, fun _ => herr⟩
  · intro w c h
    rw [he]
    cases w
    · rw [← Option.some.inj (h8.symm.trans h)]; exact ctxOf_built .w8
    · rw [← Option.some.inj (h16.symm.trans h)]; exact ctxOf_built .w16
  · intro t h
    rw [hr t h]
    exact ⟨ctxOf .w8, 2, 0, h8, rfl⟩
  · intro t h
    rw [hs t h]
    exact ⟨ctxOf .w16, 0, h16, fun _ => (by decide : (2#16) ≠ 0#16), rfl⟩
  · intro t h
    rw [hn t h]
    exact ⟨ctxOf .w16, 0, h16, fun h => (nomatch h), rfl⟩

theorem ready_inv (a b c : Word) (m : List Host.Cell) (hm : Memory.wf m = true) (hin : ∀ c ∈ m, c.1 < 256) :
    StateInv (ready a b c m) :=
  inv_of _ hm hin rfl rfl rfl rfl rfl (fun _ h => (nomatch h)) (fun _ h => (nomatch h)) (fun _ h => (nomatch h)) rfl rfl

theorem holding_inv (a b c : Word) (m : List Host.Cell) (hm : Memory.wf m = true) (hin : ∀ c ∈ m, c.1 < 256) :
    StateInv (holding a b c m) :=
  inv_of _ hm hin rfl rfl rfl rfl rfl (fun _ h => (Option.some.inj h).symm) (fun _ h => (Option.some.inj h).symm)
    (fun _ h => (Option.some.inj h).symm) rfl rfl

theorem running_inv (cmd a b c : Word) (m : List Host.Cell) (hm : Memory.wf m = true) (hin : ∀ c ∈ m, c.1 < 256) :
    StateInv (running cmd a b c m) :=
  inv_of _ hm hin rfl rfl rfl rfl rfl (fun _ h => (Option.some.inj h).symm) (fun _ h => (Option.some.inj h).symm)
    (fun _ h => (Option.some.inj h).symm) rfl rfl

/-- A VLOOKUP.128 that runs with its input at 0 and its output at the last chunk of DMEM. -/
def runningVector : State := running 0x38#32 0 0 0xE0 []

/-- The lookup it carries out. -/
def vectorLookup : Lookup := ⟨nibblesOf, .l128, 0, 0xE0⟩

theorem runningVector_lookup : RunningLookup runningVector vectorLookup := ⟨rfl, by decide, rfl⟩

/-- The same with inputs to come. -/
def vectorWith (ts : List Turn) : State := { runningVector with turns := ts }

theorem vectorWith_inv (ts : List Turn) : StateInv (vectorWith ts) :=
  inv_of _ rfl (fun _ h => (nomatch h)) rfl rfl rfl rfl rfl (fun _ h => (Option.some.inj h).symm)
    (fun _ h => (Option.some.inj h).symm) (fun _ h => (Option.some.inj h).symm) rfl rfl

theorem vectorWith_lookup (ts : List Turn) : RunningLookup (vectorWith ts) vectorLookup :=
  ⟨rfl, runningVector_lookup.2.1, runningVector_lookup.2.2⟩

/-- No other VLOOKUP runs there. -/
theorem lookup_unique {s : State} {l m : Lookup} (hl : RunningLookup s l) (hm : RunningLookup s m) : m = l :=
  Option.some.inj (((runningLookup_iff s m).2 hm).symm.trans ((runningLookup_iff s l).2 hl))

/-- RegisterReadsAfterReset: a listed register. -/
theorem witness_register_read :
    ((0x000, 0x47465445#32) : Nat × Word) ∈ [(0x000, 0x47465445#32), (0x004, 0#32)] := by decide

/-- ReservedOffsetsReadZero: both ends of the reserved range, a wrong width and a wrong alignment. -/
theorem witness_reserved :
    (0x028 < 0x1000 ∧ (AccessSize.b32 = .b32 ∧ 0x028 % 4 = 0) ∧ 0x028 ≤ 0x028) ∧
    (0xFFC < 0x1000 ∧ (AccessSize.b32 = .b32 ∧ 0xFFC % 4 = 0) ∧ 0x028 ≤ 0xFFC) ∧
    (0x008 < 0x1000 ∧ ¬(AccessSize.b8 = .b32 ∧ 0x008 % 4 = 0)) ∧
    (0x002 < 0x1000 ∧ ¬(AccessSize.b32 = .b32 ∧ 0x002 % 4 = 0)) := by decide

/-- ParametersNeverChange, StepKeepsTheInvariant: a step that answers a next state from a state of the invariant. -/
theorem witness_step : StateInv (ready 0 0 0 []) ∧ ∃ t, step (ready 0 0 0 []) = .next t :=
  ⟨ready_inv _ _ _ _ rfl (by decide), _, rfl⟩

/-- ControlRegisterHoldsIrqEnable: a CTRL value without SRST. -/
theorem witness_ctrl : (0xFFFFFFFD#32).getLsbD 1 = false ∧ (0x00000000#32).getLsbD 1 = false := by decide

/-- StatusBitsStandWhereR35SaysSo: the largest code, and a place of each reserved range. -/
theorem witness_status :
    ((ErrCode.construct, 13) ∈ [(ErrCode.bounds, 12), (ErrCode.construct, 13)] ∧
      ({ ready 0 0 0 [] with done := true, errcode := .construct }).errcode = .construct) ∧
    ((2 ≤ 3 ∧ 3 ≤ 3) ∧ (10 ≤ 15 ∧ 15 ≤ 15) ∧ 21 ≤ 21) := ⟨⟨by decide, rfl⟩, by decide⟩

/-- AcceptanceLatchesTheCommand and CommandWriteWhileBusyIsDropped: an idle and a busy engine. -/
theorem witness_idle_and_busy : (ready 0 0 0 []).busy = false ∧ runningVector.busy = true := ⟨rfl, rfl⟩

/-- HostReadsHaveNoSideEffect: a read that answers. -/
theorem witness_host_read :
    (∃ t, runningVector.hostRead .b8 0x1000 = .next t) ∧ ∃ t, runningVector.hostRead .b32 0x008 = .next t :=
  ⟨⟨_, rfl⟩, ⟨_, rfl⟩⟩

/-- StepStopsOnlyOnUndefinedAccess: an access the spec defines, and one it does not. -/
theorem witness_input :
    InputDefined { ready 0 0 0 [] with turns := [⟨.write .b16 0x10FE 1, true⟩] } ∧
    ¬InputDefined { ready 0 0 0 [] with turns := [⟨.write .b16 0x10FF 1, true⟩] } := by
  simp [InputDefined, AccessDefined, State.nextTurn, ready, block, State.powerOn, AccessSize.bytes]

/-- DmemReadIsLittleEndian: the last halfword of DMEM while no command runs, and the word right below the output chunk of a
VLOOKUP that runs. -/
theorem witness_dmem_read :
    ((∀ l k, RunningLookup (ready 0 0 0 [(0xFE, 1), (0xFF, 2)]) l → k < AccessSize.bytes .b16 →
        0xFE + k < l.dst ∨ l.dst + l.lane.bytes ≤ 0xFE + k) ∧
      (0xFE % AccessSize.bytes .b16 = 0 ∧
        0xFE + AccessSize.bytes .b16 ≤ (ready 0 0 0 [(0xFE, 1), (0xFF, 2)]).dmemSize.toNat) ∧
      ∀ k, k < AccessSize.bytes .b16 →
        Memory.get? (ready 0 0 0 [(0xFE, 1), (0xFF, 2)]).dmem (0xFE + k) = some (if k = 0 then 1 else 2)) ∧
    ((∀ l k, RunningLookup (running 0x38#32 0 0 0xE0 [(0xDC, 1), (0xDD, 1), (0xDE, 1), (0xDF, 1)]) l →
        k < AccessSize.bytes .b32 → 0xDC + k < l.dst ∨ l.dst + l.lane.bytes ≤ 0xDC + k) ∧
      (0xDC % AccessSize.bytes .b32 = 0 ∧ 0xDC + AccessSize.bytes .b32 ≤ 256) ∧
      ∀ k, k < AccessSize.bytes .b32 →
        Memory.get? [(0xDC, 1), (0xDD, 1), (0xDE, 1), (0xDF, 1)] (0xDC + k) = some (1 : Byte)) := by
  refine ⟨⟨fun l k h => (nomatch h.1), ⟨rfl, by decide⟩, ?_⟩, fun l k h hk => ?_, by decide, ?_⟩
  · show ∀ k, k < 2 → Memory.get? [(0xFE, 1), (0xFF, 2)] (0xFE + k) = _
    decide
  · rw [lookup_unique (l := vectorLookup) ⟨rfl, by decide, rfl⟩ h]
    exact .inl (Nat.add_lt_add_left hk 0xDC)
  · show ∀ k, k < 4 → Memory.get? [(0xDC, 1), (0xDD, 1), (0xDE, 1), (0xDF, 1)] (0xDC + k) = _
    decide

/-- DmemWriteStoresItsBytes: the first and the last word of DMEM. -/
theorem witness_dmem_write :
    StateInv (ready 0 0 0 []) ∧ (0 % AccessSize.bytes .b32 = 0 ∧ 0 + AccessSize.bytes .b32 ≤ (ready 0 0 0 []).dmemSize.toNat) ∧
    (0xFC % AccessSize.bytes .b32 = 0 ∧ 0xFC + AccessSize.bytes .b32 ≤ (ready 0 0 0 []).dmemSize.toNat) :=
  ⟨ready_inv _ _ _ _ rfl (by decide), by decide, by decide⟩

/-- AccessPastDmemReadsZero: the first offset past DMEM. -/
theorem witness_past_dmem : 0x1000 + (ready 0 0 0 []).dmemSize.toNat ≤ 0x1100 := by decide

/-- SoftResetKeepsDmem: SRST with and without a VLOOKUP that runs. -/
theorem witness_soft_reset :
    (StateInv (ready 0 0 0 []) ∧ (0x00000002#32).getLsbD 1 = true) ∧
    (StateInv runningVector ∧ RunningLookup runningVector vectorLookup ∧ vectorLookup.dst ≤ 0xFF ∧
      0xFF < vectorLookup.dst + vectorLookup.lane.bytes) :=
  ⟨⟨ready_inv _ _ _ _ rfl (by decide), by decide⟩,
    running_inv _ _ _ _ _ rfl (by decide), runningVector_lookup, by decide, by decide⟩

/-- HardwareResetResetsEverything: the reset input while a command runs. -/
theorem witness_hard_reset : ({ runningVector with turns := [⟨.reset, false⟩] }).nextTurn.event = .reset := rfl

/-- InterruptIsDoneAndEnabled: an acknowledge, an idle engine, a CTRL value that clears IRQ_EN. -/
theorem witness_irq :
    (0x00000002#32).getLsbD 1 = true ∧ (ready 0 0 0 []).busy = false ∧
    ((0#32).getLsbD 1 = false ∧ (0#32).getLsbD 0 = false) := ⟨by decide, rfl, by decide⟩

/-- SimultaneousEventsBothTakeEffect: both events of R259. -/
theorem witness_simultaneous :
    (({ runningVector with turns := [⟨.write .b32 0x00C 1, true⟩] }).busy = true ∧
      ({ runningVector with turns := [⟨.write .b32 0x00C 1, true⟩] }).nextTurn = ⟨.write .b32 0x00C 1, true⟩) ∧
    (({ runningVector with turns := [⟨.write .b32 0x008 2, true⟩] }).busy = true ∧
      ({ runningVector with turns := [⟨.write .b32 0x008 2, true⟩] }).nextTurn = ⟨.write .b32 0x008 2, true⟩) :=
  ⟨⟨rfl, rfl⟩, rfl, rfl⟩

/-- StepRunsTheDecodedCommand: each event, a command that completes in the step of a host write, a command that an idle block
accepts, one left running, one that a reset ends, and a refused access. -/
theorem witness_step_runs :
    ((vectorWith []).nextTurn.event = .idle ∧ (vectorWith [⟨.reset, true⟩]).nextTurn.event = .reset ∧
      (vectorWith [⟨.read .b8 0x1000, true⟩]).nextTurn.event = .read .b8 0x1000 ∧
      (vectorWith [⟨.write .b32 0x010 7, true⟩]).nextTurn.event = .write .b32 0x010 7) ∧
    (∃ s1, (vectorWith [⟨.write .b32 0x010 7, true⟩]).hostStep (.write .b32 0x010 7) = .next s1 ∧
      (vectorWith [⟨.write .b32 0x010 7, true⟩]).busy = true ∧ s1.busy = true ∧
      (vectorWith [⟨.write .b32 0x010 7, true⟩]).nextTurn.completes = true ∧ decode s1.lcmd = .ok (.vlookup .l128)) ∧
    ((∃ s1, (ready 0 0 0 []).hostStep (.write .b32 0x00C 1) = .next s1) ∧ (ready 0 0 0 []).busy = false) ∧
    ((∃ s1, (vectorWith [⟨.idle, false⟩]).hostStep .idle = .next s1) ∧
      (vectorWith [⟨.idle, false⟩]).nextTurn.completes = false) ∧
    (∃ s1, (vectorWith [⟨.write .b32 0x004 2, true⟩]).hostStep (.write .b32 0x004 2) = .next s1 ∧ s1.busy = false) ∧
    (vectorWith [⟨.read .b8 0x004, true⟩]).hostStep (.read .b8 0x004) = .refused .undefinedHostAccess :=
  ⟨⟨rfl, rfl, rfl, rfl⟩, ⟨_, rfl, rfl, rfl, rfl, by decide⟩, ⟨⟨_, rfl⟩, rfl⟩, ⟨⟨_, rfl⟩, rfl⟩, ⟨_, rfl, rfl⟩, rfl⟩

/-- UndefinedWordsReportAnError: a word of each kind, alone and with a host read in the same step. -/
theorem witness_undefined_words :
    (∃ s1, (running 0x0#32 0 0 0 []).hostStep (running 0x0#32 0 0 0 []).nextTurn.event = .next s1 ∧
      (running 0x0#32 0 0 0 []).busy = true ∧ s1.busy = true ∧ (running 0x0#32 0 0 0 []).nextTurn.completes = true ∧
      decode s1.lcmd = .error .illegal) ∧
    (∃ s1, ({ running 0x10110#32 0 0 0 [] with turns := [⟨.read .b32 0x008, true⟩] }).hostStep (.read .b32 0x008) = .next s1 ∧
      s1.busy = true ∧ decode s1.lcmd = .error .rsvd) :=
  ⟨⟨_, rfl, rfl, rfl, rfl, by decide⟩, _, rfl, rfl, by decide⟩

/-- EveryAcceptedCommandCompletes: three steps of running on. -/
theorem witness_completes :
    ({ runningVector with turns := List.replicate 3 ⟨.idle, false⟩ }).busy = true ∧
    ({ runningVector with turns := List.replicate 3 ⟨.idle, false⟩ }).turns = List.replicate 3 ⟨.idle, false⟩ := ⟨rfl, rfl⟩

/-- OnlyTheNamedCommandsChangeState: a next state, and for each clause a command it speaks of. -/
theorem witness_frame :
    (∃ t, exec .rtRel (holding 0 0 0 []) = .next t) ∧ producesValue .rtRel = false ∧ maySetOob (.mulz .w8) = false ∧
    (∀ w, Instr.rtRel ≠ .init w) ∧ ((∀ w k, Instr.splRel ≠ .rtBuild w k) ∧ Instr.splRel ≠ .rtRel) ∧
    ((∀ w k, Instr.rtRel ≠ .splBuild w k) ∧ Instr.rtRel ≠ .splRel) ∧
    ((∀ w k, Instr.rtRel ≠ .nibBuild w k) ∧ Instr.rtRel ≠ .nibRel) ∧ ∀ l, Instr.rtRel ≠ .vlookup l :=
  ⟨⟨_, rfl⟩, rfl, rfl, fun _ h => (nomatch h), ⟨fun _ _ h => (nomatch h), fun h => (nomatch h)⟩,
    ⟨fun _ _ h => (nomatch h), fun h => (nomatch h)⟩, ⟨fun _ _ h => (nomatch h), fun h => (nomatch h)⟩,
    fun _ h => (nomatch h)⟩

/-- FailedCommandChangesNothingElse: a release of an empty slot, and a word that is no command. -/
theorem witness_failed :
    (∃ t, exec .rtRel (ready 0 0 0 []) = .next t ∧ t.errcode ≠ .success) ∧
    ∃ t, runCommand (running 0x00010110#32 0 0 0 []) = .next t ∧ t.errcode ≠ .success :=
  ⟨⟨_, rfl, fun h => (nomatch h)⟩, _, rfl, fun h => (nomatch h)⟩

/-- CommandReportsTheFirstFailingCheck, ResetMeetsTheInvariant's shape: a state of the invariant with every slot full. -/
theorem witness_invariant : StateInv (holding 1 1 0 []) := holding_inv _ _ _ _ rfl (by decide)

/-- DecodeOfEncodeIsTheCommand, EncodeOfDecodeIsTheWord: the largest usable SEL. -/
theorem witness_encoding : (Instr.nibRd 7).wellFormed = true ∧ decode 0x7031#32 = .ok (.nibRd 7) := by decide

/-- OpcodeTableMatchesAndMasks: a row of the table. -/
theorem witness_table_row :
    ((0x00000038, 0xFFFFF7FF, .vlookup .l256) : Word × Word × Instr) ∈
      [(0x00000038, 0xFFFFF7FF, .vlookup .l256)] ∧ 0x00000838#32 &&& 0xFFFFF7FF#32 = 0x00000038#32 :=
  ⟨List.mem_singleton.2 rfl, by decide⟩

/-- InitBuildsPowersAndLogarithms: a context not built, the ends of its index ranges, and an element. -/
theorem witness_init :
    (block 0 0 0 []).ready .w16 = false ∧ 65534 < Width.order .w16 - 1 ∧
    (2 * (Width.order .w16 - 1) ≤ 131101 ∧ 131101 < 2 * (Width.order .w16 - 1) + (block 0 0 0 []).expTail.toNat) ∧
    (0xFFFF : BitVec (Width.bits .w16)) ≠ 0 ∧ Width.w8 ≠ .w16 := ⟨rfl, by decide, by decide, by decide, by decide⟩

/-- ExponentAndIndexTablesAreInverse: a built context, its largest element and its last index. -/
theorem witness_inverse :
    StateInv (ready 0 0 0 []) ∧ (ready 0 0 0 []).ctx .w8 = some (ctxOf .w8) ∧ (0xFF : BitVec (Width.bits .w8)) ≠ 0 ∧
    254 < Width.order .w8 - 1 := ⟨ready_inv _ _ _ _ rfl (by decide), rfl, by decide, by decide⟩

/-- ExpRdReadsThePowerTable: the last index of each of its ranges, and the first past the table. -/
theorem witness_expRd :
    (StateInv (ready 0 509 0 []) ∧ (ready 0 509 0 []).ready .w8 = true ∧
      (ready 0 509 0 []).lopb.toNat < 2 * (Width.order .w8 - 1)) ∧
    (StateInv (ready 0 541 0 []) ∧ ¬(ready 0 541 0 []).lopb.toNat < 2 * (Width.order .w8 - 1) ∧
      (ready 0 541 0 []).lopb.toNat < 2 * (Width.order .w8 - 1) + (ready 0 541 0 []).expTail.toNat) ∧
    (StateInv (ready 0 542 0 []) ∧
      ¬(ready 0 542 0 []).lopb.toNat < 2 * (Width.order .w8 - 1) + (ready 0 542 0 []).expTail.toNat) :=
  ⟨⟨ready_inv _ _ _ _ rfl (by decide), rfl, by decide⟩, ⟨ready_inv _ _ _ _ rfl (by decide), by decide, by decide⟩,
    ready_inv _ _ _ _ rfl (by decide), by decide⟩

/-- IdxRdReadsTheLogarithm: the operand 0, the largest element, the first operand out of range. -/
theorem witness_idxRd :
    (StateInv (ready 0 0 0 []) ∧ (ready 0 0 0 []).ready .w16 = true ∧ (ready 0 0 0 []).lopb.toNat = 0) ∧
    (StateInv (ready 0 0xFFFF 0 []) ∧ (ready 0 0xFFFF 0 []).lopb.toNat < Width.order .w16) ∧
    (StateInv (ready 0 0x10000 0 []) ∧ ¬(ready 0 0x10000 0 []).lopb.toNat < Width.order .w16) :=
  ⟨⟨ready_inv _ _ _ _ rfl (by decide), rfl, rfl⟩, ⟨ready_inv _ _ _ _ rfl (by decide), by decide⟩,
    ready_inv _ _ _ _ rfl (by decide), by decide⟩

/-- The statements about two nonzero operands (MUL, DIV, MULZ, DIVZ, DivisionUndoesMultiplication): the largest elements. -/
theorem witness_pair :
    StateInv (ready 0xFFFF 0xFFFF 0 []) ∧ (ready 0xFFFF 0xFFFF 0 []).ready .w16 = true ∧
    (ready 0xFFFF 0xFFFF 0 []).lopa.toNat < Width.order .w16 ∧ (ready 0xFFFF 0xFFFF 0 []).lopb.toNat < Width.order .w16 ∧
    (ready 0xFFFF 0xFFFF 0 []).lopa ≠ 0#32 ∧ (ready 0xFFFF 0xFFFF 0 []).lopb ≠ 0#32 :=
  ⟨ready_inv _ _ _ _ rfl (by decide), rfl, by decide, by decide, by decide, by decide⟩

/-- DivzIsTheFieldQuotient: the divisor 0. -/
theorem witness_divz_zero :
    StateInv (ready 1 0 0 []) ∧ (ready 1 0 0 []).ready .w8 = true ∧ (ready 1 0 0 []).lopa.toNat < Width.order .w8 ∧
    (ready 1 0 0 []).lopb.toNat < Width.order .w8 ∧ (ready 1 0 0 []).lopb = 0#32 :=
  ⟨ready_inv _ _ _ _ rfl (by decide), rfl, by decide, by decide, rfl⟩

/-- MulWithAZeroOperand: i = 0, the last i in the tail and the first past it, on either side, and two zeros. -/
theorem witness_mul_zero :
    (StateInv (ready 0 1 0 []) ∧ (ready 0 1 0 []).ready .w8 = true ∧ 0 < Width.order .w8 - 1 ∧
      (ready 0 1 0 []).lopa = 0#32 ∧ (ready 0 1 0 []).lopb.toNat = (xtimes .w8)^[0] 1) ∧
    (StateInv (ready 0 75 0 []) ∧ 32 < Width.order .w8 - 1 ∧ 32 ≤ (ready 0 75 0 []).expTail.toNat ∧
      (ready 0 75 0 []).lopa = 0#32 ∧ (ready 0 75 0 []).lopb.toNat = (xtimes .w8)^[32] 1) ∧
    (StateInv (ready 150 0 0 []) ∧ 33 < Width.order .w8 - 1 ∧ ¬33 ≤ (ready 150 0 0 []).expTail.toNat ∧
      (ready 150 0 0 []).lopb = 0#32 ∧ (ready 150 0 0 []).lopa.toNat = (xtimes .w8)^[33] 1) ∧
    (StateInv (ready 0 0 0 []) ∧ (ready 0 0 0 []).lopa = 0#32 ∧ (ready 0 0 0 []).lopb = 0#32) :=
  ⟨⟨ready_inv _ _ _ _ rfl (by decide), rfl, by decide, rfl, rfl⟩,
    ⟨ready_inv _ _ _ _ rfl (by decide), by decide, by decide, rfl, by decide⟩,
    ⟨ready_inv _ _ _ _ rfl (by decide), by decide, by decide, rfl, by decide⟩,
    ready_inv _ _ _ _ rfl (by decide), rfl, rfl⟩

/-- DivWithAZeroOperand: each clause on both sides of its edge. -/
theorem witness_div_zero :
    (StateInv (ready 0 243 0 []) ∧ (ready 0 243 0 []).ready .w8 = true ∧ 254 < Width.order .w8 - 1 ∧
      (ready 0 243 0 []).lopa = 0#32 ∧ (ready 0 243 0 []).lopb.toNat = (xtimes .w8)^[254] 1 ∧
      Width.order .w8 - 2 < 254 + (ready 0 243 0 []).expTail.toNat) ∧
    (StateInv (ready 0 1 0 []) ∧ (ready 0 1 0 []).lopa = 0#32 ∧ (ready 0 1 0 []).lopb.toNat = (xtimes .w8)^[0] 1 ∧
      ¬Width.order .w8 - 2 < 0 + (ready 0 1 0 []).expTail.toNat) ∧
    (StateInv (ready 243 0 0 []) ∧ (ready 243 0 0 []).lopb = 0#32 ∧
      (ready 243 0 0 []).lopa.toNat = (xtimes .w8)^[254] 1 ∧ 254 = Width.order .w8 - 2) ∧
    (StateInv (ready 1 0 0 []) ∧ (ready 1 0 0 []).lopb = 0#32 ∧ (ready 1 0 0 []).lopa.toNat = (xtimes .w8)^[0] 1 ∧
      0 ≠ Width.order .w8 - 2) ∧
    (StateInv (ready 0 0 0 []) ∧ (ready 0 0 0 []).lopa = 0#32 ∧ (ready 0 0 0 []).lopb = 0#32) :=
  ⟨⟨ready_inv _ _ _ _ rfl (by decide), rfl, by decide, rfl, by decide +kernel, by decide⟩,
    ⟨ready_inv _ _ _ _ rfl (by decide), rfl, rfl, by decide⟩,
    ⟨ready_inv _ _ _ _ rfl (by decide), rfl, by decide +kernel, by decide⟩,
    ⟨ready_inv _ _ _ _ rfl (by decide), rfl, rfl, by decide⟩,
    ready_inv _ _ _ _ rfl (by decide), rfl, rfl⟩

/-- FullTableHoldsExactResults, FullTableAgreesWithTheFastPath: an empty slot, with a coefficient and with 0. -/
theorem witness_rtBuild :
    (StateInv (ready 0xFFFF 0 0 []) ∧ (ready 0xFFFF 0 0 []).ready .w16 = true ∧ (ready 0xFFFF 0 0 []).rt = none ∧
      (ready 0xFFFF 0 0 []).lopa.toNat < Width.order .w16 ∧ (ready 0xFFFF 0 0 []).lopa ≠ 0#32 ∧
      0xFFFF < Width.order .w16 ∧ 0xFFFF ≠ 0) ∧
    (StateInv (ready 0 0 0 []) ∧ (ready 0 0 0 []).rt = none ∧ (ready 0 0 0 []).lopa.toNat < Width.order .w16) :=
  ⟨⟨ready_inv _ _ _ _ rfl (by decide), rfl, rfl, by decide, by decide, by decide, by decide⟩,
    ready_inv _ _ _ _ rfl (by decide), rfl, by decide⟩

/-- RtRdReadsTheEntry: the last entry. -/
theorem witness_rtRd : (holding 0 0xFF 0 []).rt = some fullOf ∧ (holding 0 0xFF 0 []).lopb.toNat < fullOf.width.order :=
  ⟨rfl, by show 255 < Width.order .w8; decide⟩

/-- ReleaseEmptiesTheSlot: every slot full. -/
theorem witness_release :
    (holding 0 0 0 []).rt.isSome = true ∧ (holding 0 0 0 []).spl.isSome = true ∧ (holding 0 0 0 []).nib.isSome = true :=
  ⟨rfl, rfl, rfl⟩

/-- SplitTablesHoldExactResults, NibbleTablesHoldExactResults: each linear kind, the products with a = 0 too. -/
theorem witness_linear_build :
    (StateInv (ready 2 0 0 []) ∧ Kind.linear? .divXByA = some .divXByA ∧ (ready 2 0 0 []).ready .w16 = true ∧
      (ready 2 0 0 []).spl = none ∧ (ready 2 0 0 []).nib = none ∧ (ready 2 0 0 []).lopa.toNat < 65536 ∧
      ¬(Kind.divXByA = .divXByA ∧ (ready 2 0 0 []).lopa = 0#32) ∧ 255 < 256 ∧ 3 < 4 ∧ 15 < 16) ∧
    (StateInv (ready 0 0 0 []) ∧ Kind.linear? .mul = some .mul ∧ (ready 0 0 0 []).spl = none ∧
      (ready 0 0 0 []).nib = none ∧ (ready 0 0 0 []).lopa.toNat < 65536 ∧
      ¬(Kind.mul = .divXByA ∧ (ready 0 0 0 []).lopa = 0#32)) :=
  ⟨⟨ready_inv _ _ _ _ rfl (by decide), rfl, rfl, rfl, rfl, by decide, by decide, by decide, by decide, by decide⟩,
    ready_inv _ _ _ _ rfl (by decide), rfl, rfl, rfl, by decide, by decide⟩

/-- SplRdReadsTheChosenTable, SplitLookupIsExact: the last entry, and the largest operand. -/
theorem witness_split :
    ((holding 0 0xFF 0 []).spl = some splitOf ∧ (holding 0 0xFF 0 []).lopb.toNat < 256) ∧
    (StateInv (holding 0 0xFFFF 0 []) ∧ (holding 0 0xFFFF 0 []).spl = some splitOf ∧
      (holding 0 0xFFFF 0 []).lopb.toNat < 65536) :=
  ⟨⟨rfl, by decide⟩, holding_inv _ _ _ _ rfl (by decide), rfl, by decide⟩

/-- NibRdReadsTheChosenTable, NibbleTablesCombineToTheResult: the last entry of the last table. -/
theorem witness_nibble :
    StateInv (holding 0 0xF 0 []) ∧ (holding 0 0xF 0 []).nib = some nibblesOf ∧ (7#4).toNat < 8 ∧
    (holding 0 0xF 0 []).lopb.toNat < 16 := ⟨holding_inv _ _ _ _ rfl (by decide), rfl, by decide, by decide⟩

/-- VlookupWritesTheOutputChunk, VlookupIsExact: the last chunk in place, with its last element written and its first one not. -/
theorem witness_vlookup :
    StateInv (holding 0 0xC0 0xC0 [(0xFE, 1), (0xFF, 2)]) ∧
    (holding 0 0xC0 0xC0 [(0xFE, 1), (0xFF, 2)]).nib = some nibblesOf ∧
    ((holding 0 0xC0 0xC0 [(0xFE, 1), (0xFF, 2)]).lopb.toNat % 2 = 0 ∧
      (holding 0 0xC0 0xC0 [(0xFE, 1), (0xFF, 2)]).lopc.toNat % 2 = 0) ∧
    ((holding 0 0xC0 0xC0 [(0xFE, 1), (0xFF, 2)]).lopb.toNat + Lane.bytes .l256 ≤ 256 ∧
      (holding 0 0xC0 0xC0 [(0xFE, 1), (0xFF, 2)]).lopc.toNat + Lane.bytes .l256 ≤ 256) ∧
    ((holding 0 0xC0 0xC0 [(0xFE, 1), (0xFF, 2)]).dmemSize.toNat = 256) ∧
    (holding 0 0xC0 0xC0 [(0xFE, 1), (0xFF, 2)]).inView = [] ∧
    (holding 0 0xC0 0xC0 [(0xFE, 1), (0xFF, 2)]).outKeep = [] ∧ 31 < Lane.elements .l256 ∧ 0 < Lane.elements .l256 ∧
    Memory.get? [(0xFE, 1), (0xFF, 2)] (0xC0 + 2 * 31) = some (1 : Byte) ∧
    Memory.get? [(0xFE, 1), (0xFF, 2)] (0xC0 + 2 * 31 + 1) = some (2 : Byte) ∧
    Memory.get? [(0xFE, (1 : Byte)), (0xFF, 2)] (0xC0 + 2 * 0) = none :=
  ⟨holding_inv _ _ _ _ rfl (by decide), rfl, by decide, by decide, by decide, rfl, rfl, by decide, by decide, by decide,
    by decide, by decide⟩

/-- RacingReadGivesOldOrNew: a word of the output chunk with its first byte written, the first and the last word of it, and
steps that leave the VLOOKUP running or complete it, each with a racing access. -/
theorem witness_racing_read :
    (RunningLookup (running 0x38#32 0 0 0xE0 [(0xE0, 5)]) vectorLookup ∧ 0xE0 % AccessSize.bytes .b32 = 0 ∧
      0xE0 + AccessSize.bytes .b32 ≤ (running 0x38#32 0 0 0xE0 [(0xE0, 5)]).dmemSize.toNat ∧
      Memory.get? (running 0x38#32 0 0 0xE0 [(0xE0, 5)]).dmem 0xE0 = some 5) ∧
    (0xFE % AccessSize.bytes .b16 = 0 ∧ 0xFE + AccessSize.bytes .b16 ≤ (vectorWith []).dmemSize.toNat) ∧
    (StateInv (vectorWith [⟨.write .b16 0x1000 5, false⟩]) ∧
      RunningLookup (vectorWith [⟨.write .b16 0x1000 5, false⟩]) vectorLookup ∧
      ∃ t, step (vectorWith [⟨.write .b16 0x1000 5, false⟩]) = .next t ∧ t.busy = true) ∧
    (StateInv (vectorWith [⟨.write .b16 0x10E0 5, true⟩]) ∧
      RunningLookup (vectorWith [⟨.write .b16 0x10E0 5, true⟩]) vectorLookup ∧
      ∃ t, step (vectorWith [⟨.write .b16 0x10E0 5, true⟩]) = .next t ∧ t.done = true) ∧
    (0xE0 = vectorLookup.dst ∧ 0xFF < vectorLookup.dst + vectorLookup.lane.bytes) :=
  ⟨⟨⟨rfl, by decide, rfl⟩, by decide, by decide, rfl⟩, by decide, ⟨vectorWith_inv _, vectorWith_lookup _, _, rfl, rfl⟩,
    ⟨vectorWith_inv _, vectorWith_lookup _, _, rfl, rfl⟩, by decide⟩

/-- A VLOOKUP.128 whose chunks begin in the middle of a word, with an output byte that an earlier host write outlives. -/
def crossing : State := { running 0x38#32 0 2 0xDE [] with outKeep := [0xE5] }

/-- RacingWriteReachesOrNot: words at the ends of both chunks and outside them, a word that a chunk begins in, and an output
byte kept from an earlier write. -/
theorem witness_racing_write :
    (StateInv (vectorWith []) ∧ RunningLookup (vectorWith []) vectorLookup ∧
      (∀ a ∈ [0x00, 0x1C, 0x20, 0xDC, 0xE0, 0xFC],
        a % AccessSize.bytes .b32 = 0 ∧ a + AccessSize.bytes .b32 ≤ (vectorWith []).dmemSize.toNat) ∧
      vectorLookup.src = 0x00 ∧ vectorLookup.src + vectorLookup.lane.bytes = 0x20 ∧ vectorLookup.dst = 0xE0 ∧
      vectorLookup.dst + vectorLookup.lane.bytes = 0x100) ∧
    (StateInv crossing ∧ RunningLookup crossing ⟨nibblesOf, .l128, 2, 0xDE⟩ ∧ 0xDC % AccessSize.bytes .b32 = 0 ∧
      0xDC + AccessSize.bytes .b32 ≤ crossing.dmemSize.toNat ∧ 0xE5 ∈ crossing.outKeep) :=
  ⟨⟨vectorWith_inv _, vectorWith_lookup _, by decide, rfl, rfl, rfl, rfl⟩,
    inv_of _ rfl (by decide) rfl rfl rfl rfl rfl (fun _ h => (Option.some.inj h).symm) (fun _ h => (Option.some.inj h).symm)
      (fun _ h => (Option.some.inj h).symm) rfl rfl, ⟨rfl, by decide, rfl⟩, by decide, by decide, by decide⟩

/-- ContextsAreImmutableUntilReset: a step over a built context, and both resets. -/
theorem witness_contexts :
    ((∃ t, step runningVector = .next t) ∧ runningVector.ctx .w16 = some (ctxOf .w16)) ∧
    (∃ t, step { runningVector with turns := [⟨.reset, true⟩] } = .next t) ∧
    (∃ t, step { runningVector with turns := [⟨.write .b32 0x004 2, true⟩] } = .next t) :=
  ⟨⟨⟨_, rfl⟩, rfl⟩, ⟨_, rfl⟩, ⟨_, rfl⟩⟩

end Sys2Proof.Tests
end

section
/-! SUPPORT. The two parameters of the block (R9, R10): every host access, every reset and every command leaves EXPTAIL and
DMEMSIZE as they are. -/

namespace Sys2Proof.Machine

/-- `t` shows the same EXP_TAIL and DMEM_BYTES as `s` (R40, R41). -/
structure SameParameters (s t : State) : Prop where
  expTail : t.expTail = s.expTail
  dmemSize : t.dmemSize = s.dmemSize

theorem SameParameters.trans {s t u : State} (h : SameParameters s t) (h' : SameParameters t u) :
    SameParameters s u :=
  ⟨h'.expTail.trans h.expTail, h'.dmemSize.trans h.dmemSize⟩

/-- A soft reset is the hardware reset but for the bytes of DMEM (R281, R282). -/
theorem softReset_eq_hardReset (s : State) : s.softReset = { s.hardReset with dmem := s.softReset.dmem } := by
  unfold State.softReset
  split <;> rfl

theorem softReset_sameParameters (s : State) : SameParameters s s.softReset := by
  rw [softReset_eq_hardReset]
  exact ⟨rfl, rfl⟩

theorem writeStatus_sameParameters (s : State) (v : Word) : SameParameters s (s.writeStatus v) := by
  unfold State.writeStatus
  split <;> exact ⟨rfl, rfl⟩

/-- EXPTAIL and DMEMSIZE are read-only (R40, R41), and no other register reaches them. -/
theorem regWrite_sameParameters (s : State) (v : Word) (r : Option HostReg) : SameParameters s (s.regWrite v r) := by
  rcases r with _ | r
  · exact ⟨rfl, rfl⟩
  · cases r
    case ctrl =>
      simp only [State.regWrite]
      split
      · exact softReset_sameParameters s
      · exact ⟨rfl, rfl⟩
    case status => exact writeStatus_sameParameters s v
    case cmd =>
      simp only [State.regWrite]
      split <;> exact ⟨rfl, rfl⟩
    all_goals exact ⟨rfl, rfl⟩

theorem dmemWrite_sameParameters (s : State) (n a : Nat) (v : Word) : SameParameters s (s.dmemWrite n a v) := by
  rw [State.dmemWrite, (hostWriteBytes_rest s a (bytesLE n v)).rest]
  exact ⟨rfl, rfl⟩

theorem hostStep_sameParameters {s t : State} {e : HostEvent} (h : s.hostStep e = .next t) : SameParameters s t := by
  cases e with
  | idle => cases h; exact ⟨rfl, rfl⟩
  | reset => cases h; exact ⟨rfl, rfl⟩
  | read size off =>
    simp only [State.hostStep, State.hostRead] at h
    split at h <;> cases h <;> exact ⟨rfl, rfl⟩
  | write size off v =>
    simp only [State.hostStep, State.hostWrite] at h
    split at h <;> cases h
    · exact regWrite_sameParameters s v _
    · exact dmemWrite_sameParameters s _ _ v
    · exact ⟨rfl, rfl⟩

/-- No command has the parameters among its effects (`Effect.host`). -/
theorem exec_sameParameters {i : Instr} {s t : State} (h : exec i s = .next t) : SameParameters s t := by
  rcases exec_ends i s t h with ⟨e, -, rfl⟩ | ⟨u, hu, rfl⟩
  · exact ⟨rfl, rfl⟩
  · obtain ⟨-, -, -, -, -, -, -, -, -, hexp, hsize, -⟩ := hu.host
    exact ⟨hexp, hsize⟩

theorem runCommand_sameParameters {s t : State} (h : runCommand s = .next t) : SameParameters s t := by
  unfold runCommand at h
  split at h
  · exact exec_sameParameters h
  · cases h; exact ⟨rfl, rfl⟩

theorem popTurn_sameParameters (s : State) : SameParameters s s.popTurn := ⟨rfl, rfl⟩

theorem step_sameParameters {s t : State} (h : step s = .next t) : SameParameters s t := by
  obtain ⟨s1, haccess, ⟨-, -, -, hrun⟩ | ⟨-, rfl⟩⟩ := step_cases h
  · exact (hostStep_sameParameters haccess).trans ((popTurn_sameParameters s1).trans (runCommand_sameParameters hrun))
  · exact (hostStep_sameParameters haccess).trans (popTurn_sameParameters s1)

/-- Settles O5, from what the host's access and the running command each leave alone. -/
theorem parametersNeverChange : Obligations.ParametersNeverChange := fun _ _ h =>
  ⟨(step_sameParameters h).expTail, (step_sameParameters h).dmemSize⟩

end Sys2Proof.Machine
end

section
/-! SUPPORT. The invariant at reset (R54): nothing is written or built, so only the size of DMEM (R10) is left to show. -/

namespace Sys2Proof.Machine

/-- DMEM_BYTES is what R10 asks for: its 32-bit register does not wrap. -/
theorem dmemBytes_sizeOk : 64 ≤ Config.dmemBytes.toNat ∧ Config.dmemBytes.toNat % 4 = 0 := by
  have hextra : Config.dmemExtraWords % 1073741808 < 1073741808 := Nat.mod_lt _ (by decide)
  have hsize : Config.dmemBytes.toNat = 64 + 4 * (Config.dmemExtraWords % 1073741808) :=
    (BitVec.toNat_ofNat _ _).trans (Nat.mod_eq_of_lt (by omega))
  omega

@[simp] theorem powerOn_ctx (e d : Word) (w : Width) : (State.powerOn e d).ctx w = none := by cases w <;> rfl

/-- A block that powers on with a DMEM size of R10 meets the invariant. -/
theorem powerOn_inv (e d : Word) (hsize : 64 ≤ d.toNat ∧ d.toNat % 4 = 0) : StateInv (State.powerOn e d) where
  memWf := rfl
  memInside := fun _ hmem => (List.not_mem_nil hmem).elim
  viewWf := rfl
  sizeOk := hsize
  ctxBuilt := by simp
  rtBuilt := fun _ hrt => nomatch hrt
  splBuilt := fun _ hspl => nomatch hspl
  nibBuilt := fun _ hnib => nomatch hnib
  busyNotDone := fun _ => rfl
  errcodeDone := fun _ => rfl

/-- Settles O58: the reset state is the power-on state of the implementation's own parameters. -/
theorem resetMeetsTheInvariant : Obligations.ResetMeetsTheInvariant :=
  powerOn_inv Config.expTail Config.dmemBytes dmemBytes_sizeOk

end Sys2Proof.Machine
end

section
/-! SUPPORT. The frame of every command (R38, R39, R43 to R50): what the completion step leaves as it was, in the state it
answers, and that it ends with BUSY = 0 and DONE = 1. -/

namespace Sys2Proof.Machine

theorem Effect.refl (i : Instr) (s : State) : Effect i s s where
  result _ := rfl
  oob _ := rfl
  sticky h := h
  ctx _ _ := rfl
  rt _ _ := rfl
  spl _ _ := rfl
  nib _ _ := rfl
  dmem _ := rfl
  host := ⟨rfl, rfl, rfl, rfl, rfl, rfl, rfl, rfl, rfl, rfl, rfl, rfl, rfl, rfl, rfl⟩

/-- The completion itself touches only BUSY, DONE and ERRCODE, which are no part of a command's effects. -/
theorem Effect.complete {i : Instr} {s u : State} (h : Effect i s u) (e : ErrCode) : Effect i s (u.complete e) :=
  { h with ctx := fun w hw => (complete_ctx u e w).trans (h.ctx w hw) }

theorem Effect.succeed {i : Instr} {s u : State} (h : Effect i s u) : Effect i s u.succeed :=
  { h with ctx := fun w hw => (succeed_ctx u w).trans (h.ctx w hw) }

/-- Whatever way a command ends, it has changed no more than it may. -/
theorem exec_effect {i : Instr} {s t : State} (h : exec i s = .next t) : Effect i s t := by
  rcases exec_ends i s t h with ⟨e, -, rfl⟩ | ⟨u, hu, rfl⟩
  · exact (Effect.refl i s).complete e
  · exact hu.succeed

theorem exec_completes {i : Instr} {s t : State} (h : exec i s = .next t) : t.busy = false ∧ t.done = true := by
  rcases exec_ends i s t h with ⟨e, -, rfl⟩ | ⟨u, -, rfl⟩ <;> exact ⟨rfl, rfl⟩

/-- Settles O24: a command always answers, it completes, and the host's registers are no part of its effects. -/
theorem commandsLeaveHostRegistersAlone : Obligations.CommandsLeaveHostRegistersAlone := by
  intro i s
  obtain ⟨t, ht⟩ := exec_answers_next i s
  obtain ⟨hbusy, hdone⟩ := exec_completes ht
  exact ⟨t, ht, hbusy, hdone, (exec_effect ht).sticky, (exec_effect ht).host⟩

/-- Settles O25: the frame of the state a command answers. -/
theorem onlyTheNamedCommandsChangeState : Obligations.OnlyTheNamedCommandsChangeState := by
  intro i s t ht
  have h := exec_effect ht
  exact ⟨h.result, h.oob, h.ctx, h.rt, h.spl, h.nib, fun hi a => by rw [h.dmem hi]⟩

end Sys2Proof.Machine
end

section
/-! SUPPORT. What the host port and the reset input can do to the block in one step, said once. -/

namespace Sys2Proof.Machine

/-- What the access or the reset of a turn may leave of `s`: the registers only the host writes and the model's own `readData`
and `draws`, or one of the named effects of STATUS, CMD, DMEM and the two resets. -/
inductive PortEffect (s : State) : HostEvent → State → Prop
  | hostRegisters {e : HostEvent} (irqEn ovr : Bool) (opa opb opc readData : Word) (draws : Nat) :
      PortEffect s e { s with irqEn, ovr, opa, opb, opc, readData, draws }
  | status {e : HostEvent} (v : Word) : PortEffect s e (s.writeStatus v)
  | accept {e : HostEvent} (c : Word) : s.busy = false → PortEffect s e (s.accept c)
  | dmemWrite {e : HostEvent} (n a : Nat) (v : Word) :
      a + n ≤ s.dmemSize.toNat → PortEffect s e (s.dmemWrite n a v)
  | softReset (v : Word) : v.getLsbD 1 = true → PortEffect s (.write .b32 0x004 v) s.softReset
  | hardReset : PortEffect s .reset s.hardReset

theorem PortEffect.unchanged (s : State) (e : HostEvent) : PortEffect s e s :=
  .hostRegisters s.irqEn s.ovr s.opa s.opb s.opc s.readData s.draws

/-- A register write, by the register: only CTRL (with SRST), STATUS and CMD reach beyond the host's own registers. -/
theorem regWrite_effect {s : State} {off : Nat} {r : Option HostReg} (hr : hostRegAt off = r) (v : Word) :
    PortEffect s (.write .b32 off v) (s.regWrite v r) := by
  rcases r with _ | r
  · exact .unchanged s _
  · cases r
    case ctrl =>
      obtain rfl := hostRegAt_ctrl hr
      simp only [State.regWrite]
      split
      · exact .softReset v ‹_›
      · exact .hostRegisters (v.getLsbD 0) s.ovr s.opa s.opb s.opc s.readData s.draws
    case status => exact .status v
    case cmd =>
      simp only [State.regWrite]
      split
      · exact .hostRegisters s.irqEn true s.opa s.opb s.opc s.readData s.draws
      · exact .accept v (Bool.eq_false_iff.2 ‹_›)
    case opa => exact .hostRegisters s.irqEn s.ovr v s.opb s.opc s.readData s.draws
    case opb => exact .hostRegisters s.irqEn s.ovr s.opa v s.opc s.readData s.draws
    case opc => exact .hostRegisters s.irqEn s.ovr s.opa s.opb v s.readData s.draws
    case id | result | expTail | dmemSize => exact .unchanged s _

/-- The host port and the reset input, by where the access lands. -/
theorem hostStep_effect {s t : State} {e : HostEvent} (h : s.hostStep e = .next t) : PortEffect s e t := by
  cases e with
  | idle => cases h; exact .unchanged s _
  | reset => cases h; exact .hardReset
  | read size off =>
    simp only [State.hostStep, State.hostRead] at h
    split at h <;> cases h <;> exact .hostRegisters s.irqEn s.ovr s.opa s.opb s.opc _ _
  | write size off v =>
    simp only [State.hostStep, State.hostWrite] at h
    cases ht : s.target size off <;> rw [ht] at h <;> cases h
    · rename_i r
      obtain ⟨-, rfl, -, hr⟩ := (target_register_iff s size off r).1 ht
      exact regWrite_effect hr v
    · exact .dmemWrite _ _ v (target_dmem ht).2.2
    · exact .unchanged s _

end Sys2Proof.Machine
end

section
/-! SUPPORT. Contexts and table slots through a step (R43 to R48): the host port leaves them alone or drops them all with a
reset, and no command changes a context that is built. -/

namespace Sys2Proof.Machine

/-- `t` holds the contexts and tables of `s`. -/
structure SameTables (s t : State) : Prop where
  expTail : t.expTail = s.expTail
  ctx : ∀ w, t.ctx w = s.ctx w
  rt : t.rt = s.rt
  spl : t.spl = s.spl
  nib : t.nib = s.nib

/-- What both resets leave of the engine (R54, R280, R281): nothing is built and nothing runs. -/
structure Cleared (t : State) : Prop where
  busy : t.busy = false
  done : t.done = false
  errcode : t.errcode = .success
  ctx : ∀ w, t.ctx w = none
  rt : t.rt = none
  spl : t.spl = none
  nib : t.nib = none
  inView : t.inView = []

theorem hardReset_cleared (s : State) : Cleared s.hardReset :=
  ⟨rfl, rfl, rfl, hardReset_ctx s, rfl, rfl, rfl, rfl⟩

theorem softReset_cleared (s : State) : Cleared s.softReset := by
  rw [softReset_eq_hardReset]
  exact ⟨rfl, rfl, rfl, fun w => by cases w <;> rfl, rfl, rfl, rfl, rfl⟩

/-- A soft reset or the reset input (R280, R281). -/
def IsReset (e : HostEvent) : Prop :=
  e = .reset ∨ ∃ v, e = .write .b32 0x004 v ∧ v.getLsbD 1 = true

theorem sameTables_of_hostRegisters (s : State) (irqEn ovr : Bool) (opa opb opc readData : Word) (draws : Nat) :
    SameTables s { s with irqEn, ovr, opa, opb, opc, readData, draws } :=
  ⟨rfl, fun w => by cases w <;> rfl, rfl, rfl, rfl⟩

theorem writeStatus_sameTables (s : State) (v : Word) : SameTables s (s.writeStatus v) := by
  unfold State.writeStatus
  split <;> exact ⟨rfl, fun w => by cases w <;> rfl, rfl, rfl, rfl⟩

theorem popTurn_sameTables (s : State) : SameTables s s.popTurn := ⟨rfl, popTurn_ctx s, rfl, rfl, rfl⟩

theorem raise_sameTables (s : State) (e : ErrCode) : SameTables s (s.raise e) := ⟨rfl, raise_ctx s e, rfl, rfl, rfl⟩

theorem dmemWrite_sameTables (s : State) (n a : Nat) (v : Word) : SameTables s (s.dmemWrite n a v) := by
  rw [State.dmemWrite, (hostWriteBytes_rest s a (bytesLE n v)).rest]
  exact ⟨rfl, fun w => by cases w <;> rfl, rfl, rfl, rfl⟩

theorem PortEffect.tables {s t : State} {e : HostEvent} (h : PortEffect s e t) :
    SameTables s t ∨ (IsReset e ∧ Cleared t) := by
  cases h with
  | hostRegisters => exact .inl (sameTables_of_hostRegisters s _ _ _ _ _ _ _)
  | status v => exact .inl (writeStatus_sameTables s v)
  | accept c => exact .inl ⟨rfl, accept_ctx s c, rfl, rfl, rfl⟩
  | dmemWrite n a v => exact .inl (dmemWrite_sameTables s n a v)
  | softReset v hv => exact .inr ⟨.inr ⟨v, rfl, hv⟩, softReset_cleared s⟩
  | hardReset => exact .inr ⟨.inl rfl, hardReset_cleared s⟩

/-- INIT of a context that is built is refused with E_REINIT (R130). -/
theorem exec_init_of_ready {s : State} {w : Width} (h : s.ready w = true) :
    exec (.init w) s = .next (s.raise .reinit) := by
  simp [exec, execInit, h]

/-- INIT of a context that is not built makes the one the construction gives, or none where it fails (R130, R134). -/
theorem init_ctx {s t : State} {w : Width} (h : exec (.init w) s = .next t) (hn : s.ctx w = none) :
    t.ctx w = buildCtx w s.expTail.toNat := by
  simp only [exec, execInit, ready_eq_false.2 hn, Host.Outcome.next.injEq] at h
  cases hb : buildCtx w s.expTail.toNat <;> simp only [hb] at h <;> subst h <;> simp [hn]

/-- No command changes a context that is built (R44). -/
theorem exec_keeps_ctx {i : Instr} {s t : State} {w : Width} {c : FieldCtx w.bits} (h : exec i s = .next t)
    (hc : s.ctx w = some c) : t.ctx w = some c := by
  by_cases hi : i = .init w
  · subst hi
    have hr : s.ready w = true := by simp [State.ready, hc]
    obtain rfl := Host.Outcome.next.inj ((exec_init_of_ready hr).symm.trans h)
    simpa using hc
  · rw [(exec_effect h).ctx w hi, hc]

theorem runCommand_keeps_ctx {s t : State} {w : Width} {c : FieldCtx w.bits} (h : runCommand s = .next t)
    (hc : s.ctx w = some c) : t.ctx w = some c := by
  unfold runCommand at h
  split at h
  · exact exec_keeps_ctx h hc
  · cases h; simpa using hc

/-- Settles O60: the access of the step leaves the context or is a reset, after which nothing runs; a command that completes
leaves it too. -/
theorem contextsAreImmutableUntilReset : Obligations.ContextsAreImmutableUntilReset := by
  intro s t w c hstep hc
  obtain ⟨s1, haccess, hrun⟩ := step_cases hstep
  rcases (hostStep_effect haccess).tables with hsame | ⟨hreset, hcleared⟩
  · left
    have hc1 : s1.popTurn.ctx w = some c := by rw [popTurn_ctx, hsame.ctx, hc]
    rcases hrun with ⟨-, -, -, hcmd⟩ | ⟨-, rfl⟩
    · exact runCommand_keeps_ctx hcmd hc1
    · exact hc1
  · right
    rcases hrun with ⟨-, hbusy, -⟩ | ⟨-, rfl⟩
    · exact absurd (hcleared.busy.symm.trans hbusy) (by decide)
    · exact ⟨(popTurn_ctx s1 w).trans (hcleared.ctx w), hreset⟩

end Sys2Proof.Machine
end

section
/-! SUPPORT. The invariant of O59 in its three parts, memory, built tables and flags, each kept by the host port and by every
command. -/

namespace Sys2Proof.Machine

/-! ### Memory -/

/-- The canonical form and the bounds of DMEM (R71, R82). -/
structure DmemInv (size : Word) (m : List Host.Cell) : Prop where
  wf : Memory.wf m = true
  inside : ∀ c ∈ m, c.1 < size.toNat

theorem DmemInv.nil (size : Word) : DmemInv size [] := ⟨rfl, fun _ h => (List.not_mem_nil h).elim⟩

/-- Writing a chunk that ends inside DMEM. -/
theorem DmemInv.writeFrom {size : Word} {m : List Host.Cell} (h : DmemInv size m) {bs : List Byte} {a : Nat}
    (hend : a + bs.length ≤ size.toNat) (keep : List Nat) : DmemInv size (Memory.writeFrom keep bs a m) where
  wf := writeFrom_keeps_wf keep bs a m h.wf
  inside c hc := by
    rcases mem_writeFrom keep bs a m c hc with hchunk | hold
    · omega
    · exact h.inside c hold

/-- The output chunk of a VLOOKUP whose checks pass lies inside DMEM (R232). -/
theorem DmemInv.writeOutput {s : State} {lane : Lane} {l : Lookup} (h : DmemInv s.dmemSize s.dmem)
    (hl : s.lookupSetup lane = .ok l) (keep : List Nat) (n : Nat) :
    DmemInv s.dmemSize (Memory.writeFrom keep (l.output s n) l.dst s.dmem) := by
  obtain ⟨-, rfl, -, -, -, -, -, hdst⟩ := lookupSetup_ok hl
  exact h.writeFrom (by rw [length_output]; exact hdst) keep

/-- The part of the invariant about DMEM and the record of raced input bytes. -/
structure MemInv (s : State) : Prop where
  dmem : DmemInv s.dmemSize s.dmem
  viewWf : Memory.wf s.inView = true

theorem dmemWrite_memInv {s : State} {n a : Nat} (h : MemInv s) (hend : a + n ≤ s.dmemSize.toNat) (v : Word) :
    MemInv (s.dmemWrite n a v) where
  dmem := by
    rw [(dmemWrite_sameParameters s n a v).dmemSize, State.dmemWrite, spendDraws_dmem, hostWriteBytes_dmem]
    exact h.dmem.writeFrom (by rw [length_bytesLE]; exact hend) []
  viewWf := hostWriteBytes_viewWf s a _ h.viewWf

/-- A soft reset keeps DMEM but for the output chunk of a VLOOKUP it abandons (R281, R282). -/
theorem softReset_memInv {s : State} (h : MemInv s) : MemInv s.softReset where
  dmem := by
    rw [(softReset_sameParameters s).dmemSize]
    cases hl : s.runningLookup with
    | none => simpa only [State.softReset, hl] using h.dmem
    | some l =>
      obtain ⟨-, -, hsetup⟩ := (runningLookup_iff s l).1 hl
      simpa only [State.softReset, hl] using h.dmem.writeOutput hsetup _ s.draws
  viewWf := by rw [(softReset_cleared s).inView]; rfl

theorem writeStatus_memInv {s : State} (h : MemInv s) (v : Word) : MemInv (s.writeStatus v) := by
  unfold State.writeStatus
  split <;> exact ⟨h.dmem, h.viewWf⟩

theorem PortEffect.memInv {s t : State} {e : HostEvent} (h : PortEffect s e t) (hs : MemInv s) : MemInv t := by
  cases h with
  | hostRegisters => exact ⟨hs.dmem, hs.viewWf⟩
  | status v => exact writeStatus_memInv hs v
  | accept c => exact ⟨hs.dmem, rfl⟩
  | dmemWrite n a v hend => exact dmemWrite_memInv hs hend v
  | softReset => exact softReset_memInv hs
  | hardReset => exact ⟨.nil _, rfl⟩

/-- VLOOKUP raises an error, or writes its output chunk (R230). -/
theorem exec_vlookup_dmem {s t : State} {lane : Lane} (h : exec (.vlookup lane) s = .next t) :
    t.dmem = s.dmem ∨ ∃ l, s.lookupSetup lane = .ok l ∧
      t.dmem = Memory.writeFrom s.outKeep (l.output s s.draws) l.dst s.dmem := by
  simp only [exec, execVlookup, Host.Outcome.next.injEq] at h
  cases hl : s.lookupSetup lane <;> simp only [hl] at h <;> subst h
  · exact .inl rfl
  · exact .inr ⟨_, rfl, rfl⟩

theorem exec_memInv {i : Instr} {s t : State} (h : exec i s = .next t) (hs : MemInv s) : MemInv t := by
  obtain ⟨-, -, -, -, -, -, -, -, -, -, -, hview, -⟩ := (exec_effect h).host
  have hsize := (exec_sameParameters h).dmemSize
  refine ⟨?_, by rw [hview]; exact hs.viewWf⟩
  rw [hsize]
  by_cases hi : ∃ lane, i = .vlookup lane
  · obtain ⟨lane, rfl⟩ := hi
    rcases exec_vlookup_dmem h with hd | ⟨l, hl, hd⟩ <;> rw [hd]
    · exact hs.dmem
    · exact hs.dmem.writeOutput hl _ _
  · rw [(exec_effect h).dmem (not_exists.1 hi)]
    exact hs.dmem

/-! ### Built contexts and tables -/

/-- The part of the invariant about what is built (R43 to R48). -/
structure BuiltInv (s : State) : Prop where
  ctx : ∀ w c, s.ctx w = some c → buildCtx w s.expTail.toNat = some c
  rt : ∀ t, s.rt = some t → ∃ c a n, s.ctx t.width = some c ∧ t = fullTable t.width c t.kind a n
  spl : ∀ t, s.spl = some t →
    ∃ c n, s.ctx16 = some c ∧ (t.kind = .divXByA → t.coef ≠ 0#16) ∧ t = splitTable c t.kind t.coef n
  nib : ∀ t, s.nib = some t →
    ∃ c n, s.ctx16 = some c ∧ (t.kind = .divXByA → t.coef ≠ 0#16) ∧ t = nibbleTable c t.kind t.coef n

theorem SameTables.builtInv {s t : State} (h : SameTables s t) (hs : BuiltInv s) : BuiltInv t where
  ctx w c hc := by rw [h.expTail]; exact hs.ctx w c (h.ctx w ▸ hc)
  rt x hx := by
    obtain ⟨c, a, n, hc, heq⟩ := hs.rt x (h.rt ▸ hx)
    exact ⟨c, a, n, (h.ctx _).trans hc, heq⟩
  spl x hx := by
    obtain ⟨c, n, hc, heq⟩ := hs.spl x (h.spl ▸ hx)
    exact ⟨c, n, (h.ctx .w16).trans hc, heq⟩
  nib x hx := by
    obtain ⟨c, n, hc, heq⟩ := hs.nib x (h.nib ▸ hx)
    exact ⟨c, n, (h.ctx .w16).trans hc, heq⟩

theorem Cleared.builtInv {t : State} (h : Cleared t) : BuiltInv t where
  ctx w _ hc := nomatch (h.ctx w).symm.trans hc
  rt _ hx := nomatch h.rt.symm.trans hx
  spl _ hx := nomatch h.spl.symm.trans hx
  nib _ hx := nomatch h.nib.symm.trans hx

theorem PortEffect.builtInv {s t : State} {e : HostEvent} (h : PortEffect s e t) (hs : BuiltInv s) : BuiltInv t := by
  rcases h.tables with hsame | ⟨-, hcleared⟩
  · exact hsame.builtInv hs
  · exact hcleared.builtInv

/-- What a command may leave in the full table slot (R170, R175). -/
theorem exec_rt {i : Instr} {s t : State} (h : exec i s = .next t) :
    t.rt = s.rt ∨ t.rt = none ∨
      ∃ w c k a, s.ctx w = some c ∧ t.rt = some (fullTable w c k a s.draws) := by
  have hframe := (exec_effect h).rt
  cases i
  case rtBuild w kind =>
    simp only [exec, execRtBuild, Host.Outcome.next.injEq] at h
    subst h
    repeat' split
    · exact .inl rfl
    · exact .inl rfl
    · exact .inl rfl
    · exact .inl rfl
    · exact .inr (.inr ⟨w, _, _, _, ‹_›, rfl⟩)
  case rtRel =>
    simp only [exec, execRtRel, Host.Outcome.next.injEq] at h
    subst h
    split
    · exact .inl rfl
    · exact .inr (.inl rfl)
  all_goals exact .inl (hframe (by simp) (by simp))

/-- The shared checks of the split and nibble builds raise an error, or hand on the W = 16 context and a coefficient the kind
can use (R190, R210). -/
theorem withLinear_raises_or_builds (s : State) (w : Width) (kind : Option Kind) (held : Bool)
    (f : FieldCtx 16 → LinKind → BitVec 16 → State) :
    (∃ e, s.withLinear w kind held f = s.raise e) ∨
      ∃ c k a, s.ctx16 = some c ∧ (k = .divXByA → a ≠ 0#16) ∧ s.withLinear w kind held f = f c k a := by
  unfold State.withLinear
  repeat' split
  case isFalse hdiv => exact .inr ⟨_, _, _, ‹_›, fun hk ha => hdiv ⟨hk, ha⟩, rfl⟩
  all_goals exact .inl ⟨_, rfl⟩

/-- What a command may leave in the split table slot (R190, R195). -/
theorem exec_spl {i : Instr} {s t : State} (h : exec i s = .next t) :
    t.spl = s.spl ∨ t.spl = none ∨
      ∃ c k a, s.ctx16 = some c ∧ (k = .divXByA → a ≠ 0#16) ∧ t.spl = some (splitTable c k a s.draws) := by
  have hframe := (exec_effect h).spl
  cases i
  case splBuild w kind =>
    simp only [exec, execSplBuild, Host.Outcome.next.injEq] at h
    rcases withLinear_raises_or_builds s w kind s.spl.isSome fun c k a =>
      { s with spl := some (splitTable c k a s.draws) }.succeed with ⟨e, he⟩ | ⟨c, k, a, hc, ha, he⟩
    · exact .inl (by rw [← h, he]; rfl)
    · exact .inr (.inr ⟨c, k, a, hc, ha, by rw [← h, he]; rfl⟩)
  case splRel =>
    simp only [exec, execSplRel, Host.Outcome.next.injEq] at h
    subst h
    split
    · exact .inl rfl
    · exact .inr (.inl rfl)
  all_goals exact .inl (hframe (by simp) (by simp))

/-- What a command may leave in the nibble table slot (R210, R214). -/
theorem exec_nib {i : Instr} {s t : State} (h : exec i s = .next t) :
    t.nib = s.nib ∨ t.nib = none ∨
      ∃ c k a, s.ctx16 = some c ∧ (k = .divXByA → a ≠ 0#16) ∧ t.nib = some (nibbleTable c k a s.draws) := by
  have hframe := (exec_effect h).nib
  cases i
  case nibBuild w kind =>
    simp only [exec, execNibBuild, Host.Outcome.next.injEq] at h
    rcases withLinear_raises_or_builds s w kind s.nib.isSome fun c k a =>
      { s with nib := some (nibbleTable c k a s.draws) }.succeed with ⟨e, he⟩ | ⟨c, k, a, hc, ha, he⟩
    · exact .inl (by rw [← h, he]; rfl)
    · exact .inr (.inr ⟨c, k, a, hc, ha, by rw [← h, he]; rfl⟩)
  case nibRel =>
    simp only [exec, execNibRel, Host.Outcome.next.injEq] at h
    subst h
    split
    · exact .inl rfl
    · exact .inr (.inl rfl)
  all_goals exact .inl (hframe (by simp) (by simp))

/-- What a command may leave as a context (R130): INIT builds one that was not there, and nothing else changes one. -/
theorem exec_ctx {i : Instr} {s t : State} (h : exec i s = .next t) (w : Width) :
    t.ctx w = s.ctx w ∨ t.ctx w = buildCtx w s.expTail.toNat := by
  by_cases hi : i = .init w
  · subst hi
    cases hc : s.ctx w with
    | none => exact .inr (init_ctx h hc)
    | some c => exact .inl (exec_keeps_ctx h hc)
  · exact .inl ((exec_effect h).ctx w hi)

/-- A command leaves what INIT or a build makes: the contexts under the tables it keeps are still there (R44, R48). -/
theorem exec_builtInv {i : Instr} {s t : State} (h : exec i s = .next t) (hs : BuiltInv s) : BuiltInv t where
  ctx w c hc := by
    rw [(exec_sameParameters h).expTail]
    rcases exec_ctx h w with hkept | hbuilt
    · exact hs.ctx w c (hkept ▸ hc)
    · exact hbuilt ▸ hc
  rt x hx := by
    rcases exec_rt h with hkept | hnone | ⟨w, c, k, a, hc, hbuilt⟩
    · obtain ⟨c, a, n, hc, heq⟩ := hs.rt x (hkept ▸ hx)
      exact ⟨c, a, n, exec_keeps_ctx h hc, heq⟩
    · exact nomatch hnone.symm.trans hx
    · obtain rfl := Option.some.inj (hbuilt.symm.trans hx)
      exact ⟨c, a, s.draws, exec_keeps_ctx h hc, rfl⟩
  spl x hx := by
    rcases exec_spl h with hkept | hnone | ⟨c, k, a, hc, ha, hbuilt⟩
    · obtain ⟨c, n, hc, heq⟩ := hs.spl x (hkept ▸ hx)
      exact ⟨c, n, exec_keeps_ctx (w := .w16) h hc, heq⟩
    · exact nomatch hnone.symm.trans hx
    · obtain rfl := Option.some.inj (hbuilt.symm.trans hx)
      exact ⟨c, s.draws, exec_keeps_ctx (w := .w16) h hc, ha, rfl⟩
  nib x hx := by
    rcases exec_nib h with hkept | hnone | ⟨c, k, a, hc, ha, hbuilt⟩
    · obtain ⟨c, n, hc, heq⟩ := hs.nib x (hkept ▸ hx)
      exact ⟨c, n, exec_keeps_ctx (w := .w16) h hc, heq⟩
    · exact nomatch hnone.symm.trans hx
    · obtain rfl := Option.some.inj (hbuilt.symm.trans hx)
      exact ⟨c, s.draws, exec_keeps_ctx (w := .w16) h hc, ha, rfl⟩

/-! ### Flags -/

/-- The part of the invariant about BUSY, DONE and ERRCODE (R35, R50). -/
structure FlagInv (s : State) : Prop where
  busyNotDone : s.busy = true → s.done = false
  errcodeDone : s.done = false → s.errcode = .success

theorem Cleared.flagInv {t : State} (h : Cleared t) : FlagInv t := ⟨fun _ => h.done, fun _ => h.errcode⟩

/-- DONE and ERRCODE are cleared together (R35). -/
theorem writeStatus_flagInv {s : State} (h : FlagInv s) (v : Word) : FlagInv (s.writeStatus v) := by
  unfold State.writeStatus
  split
  · exact ⟨fun _ => rfl, fun _ => rfl⟩
  · exact ⟨h.busyNotDone, h.errcodeDone⟩

theorem PortEffect.flagInv {s t : State} {e : HostEvent} (h : PortEffect s e t) (hs : FlagInv s) : FlagInv t := by
  cases h with
  | hostRegisters => exact ⟨hs.busyNotDone, hs.errcodeDone⟩
  | status v => exact writeStatus_flagInv hs v
  | accept c => exact ⟨fun _ => rfl, fun _ => rfl⟩
  | dmemWrite n a v =>
    rw [State.dmemWrite, (hostWriteBytes_rest s a (bytesLE n v)).rest]
    exact ⟨hs.busyNotDone, hs.errcodeDone⟩
  | softReset => exact (softReset_cleared s).flagInv
  | hardReset => exact (hardReset_cleared s).flagInv

/-- After a completion the flag conditions ask for nothing. -/
theorem exec_flagInv {i : Instr} {s t : State} (h : exec i s = .next t) : FlagInv t := by
  obtain ⟨hbusy, hdone⟩ := exec_completes h
  exact ⟨fun hb => (nomatch hbusy.symm.trans hb), fun hd => (nomatch hdone.symm.trans hd)⟩

/-! ### The whole invariant -/

theorem StateInv.memInv {s : State} (h : StateInv s) : MemInv s := ⟨⟨h.memWf, h.memInside⟩, h.viewWf⟩

theorem StateInv.builtInv {s : State} (h : StateInv s) : BuiltInv s := ⟨h.ctxBuilt, h.rtBuilt, h.splBuilt, h.nibBuilt⟩

theorem StateInv.flagInv {s : State} (h : StateInv s) : FlagInv s := ⟨h.busyNotDone, h.errcodeDone⟩

/-- The invariant of a state from that of an earlier one: its three parts, DMEM_BYTES being the same (R10). -/
theorem StateInv.of_parts {s t : State} (hs : StateInv s) (hsame : SameParameters s t) (hmem : MemInv t)
    (hbuilt : BuiltInv t) (hflag : FlagInv t) : StateInv t where
  memWf := hmem.dmem.wf
  memInside := hmem.dmem.inside
  viewWf := hmem.viewWf
  sizeOk := by rw [hsame.dmemSize]; exact hs.sizeOk
  ctxBuilt := hbuilt.ctx
  rtBuilt := hbuilt.rt
  splBuilt := hbuilt.spl
  nibBuilt := hbuilt.nib
  busyNotDone := hflag.busyNotDone
  errcodeDone := hflag.errcodeDone

theorem hostStep_keeps_inv {s t : State} {e : HostEvent} (h : s.hostStep e = .next t) (hs : StateInv s) : StateInv t :=
  have heffect := hostStep_effect h
  .of_parts hs (hostStep_sameParameters h) (heffect.memInv hs.memInv) (heffect.builtInv hs.builtInv)
    (heffect.flagInv hs.flagInv)

theorem popTurn_keeps_inv {s : State} (hs : StateInv s) : StateInv s.popTurn :=
  .of_parts hs (popTurn_sameParameters s) ⟨hs.memInv.dmem, hs.viewWf⟩
    ((popTurn_sameTables s).builtInv hs.builtInv) ⟨hs.busyNotDone, hs.errcodeDone⟩

theorem exec_keeps_inv {i : Instr} {s t : State} (h : exec i s = .next t) (hs : StateInv s) : StateInv t :=
  .of_parts hs (exec_sameParameters h) (exec_memInv h hs.memInv) (exec_builtInv h hs.builtInv) (exec_flagInv h)

/-- An error changes nothing but the flags (R252). -/
theorem raise_keeps_inv {s : State} (hs : StateInv s) (e : ErrCode) : StateInv (s.raise e) :=
  .of_parts hs ⟨rfl, rfl⟩ ⟨hs.memInv.dmem, hs.viewWf⟩
    ((raise_sameTables s e).builtInv hs.builtInv) ⟨fun hb => (nomatch hb), fun hd => (nomatch hd)⟩

theorem runCommand_keeps_inv {s t : State} (h : runCommand s = .next t) (hs : StateInv s) : StateInv t := by
  unfold runCommand at h
  split at h
  · exact exec_keeps_inv h hs
  · cases h; exact raise_keeps_inv hs _

/-- Settles O59: the access of the turn, the spent turn and the command that completes each keep the invariant. -/
theorem stepKeepsTheInvariant : Obligations.StepKeepsTheInvariant := by
  intro s t hs hstep
  obtain ⟨s1, haccess, ⟨-, -, -, hcmd⟩ | ⟨-, rfl⟩⟩ := step_cases hstep
  · exact runCommand_keeps_inv hcmd (popTurn_keeps_inv (hostStep_keeps_inv haccess hs))
  · exact popTurn_keeps_inv (hostStep_keeps_inv haccess hs)

end Sys2Proof.Machine
end

section
/-! SUPPORT. The register window (R32): what a register access at a given offset answers, and the accesses R42 and R76 leave
undefined. -/

namespace Sys2Proof.Machine

theorem hostRead_register (s : State) {off : Nat} (hwindow : off < 0x1000 := by decide)
    (halign : off % 4 = 0 := by decide) :
    s.hostRead .b32 off = .next { s with readData := s.regRead (hostRegAt off) } := by
  simp only [State.hostRead, (target_register_iff s .b32 off _).2 ⟨hwindow, rfl, halign, rfl⟩]

theorem hostWrite_register (s : State) {off : Nat} (v : Word) (hwindow : off < 0x1000 := by decide)
    (halign : off % 4 = 0 := by decide) :
    s.hostWrite .b32 off v = .next (s.regWrite v (hostRegAt off)) := by
  simp only [State.hostWrite, (target_register_iff s .b32 off _).2 ⟨hwindow, rfl, halign, rfl⟩]

theorem hostRead_undefined {s : State} {size : AccessSize} {off : Nat} (h : ¬AccessDefined s size off) :
    s.hostRead size off = .refused .undefinedHostAccess := by
  simp only [State.hostRead, (target_undefined_iff s size off).2 h]

theorem hostWrite_undefined {s : State} {size : AccessSize} {off : Nat} (v : Word) (h : ¬AccessDefined s size off) :
    s.hostWrite size off v = .refused .undefinedHostAccess := by
  simp only [State.hostWrite, (target_undefined_iff s size off).2 h]

/-- Past DMEMSIZE the window holds no register (R42). -/
theorem hostRegAt_reserved {off : Nat} (h : 0x028 ≤ off) : hostRegAt off = none := by
  unfold hostRegAt
  split
  case h_11 => rfl
  all_goals omega

/-- Settles O3: no register stands at a reserved offset, and no other width or alignment is defined. -/
theorem reservedOffsetsReadZero : Obligations.ReservedOffsetsReadZero := by
  intro s size off v hwindow
  constructor
  · rintro ⟨rfl, halign⟩ hreserved
    rw [hostRead_register s hwindow halign, hostWrite_register s v hwindow halign, hostRegAt_reserved hreserved]
    exact ⟨rfl, rfl⟩
  · intro h
    have hundefined : ¬AccessDefined s size off := by rwa [AccessDefined, if_pos hwindow]
    exact ⟨hostRead_undefined hundefined, hostWrite_undefined v hundefined⟩

/-- Settles O4: a write to any of the four is the identity. -/
theorem readOnlyRegistersIgnoreWrites : Obligations.ReadOnlyRegistersIgnoreWrites := fun s v =>
  ⟨hostRead_register s, hostWrite_register s v, hostRead_register s, hostWrite_register s v,
    hostRead_register s, hostWrite_register s v, hostRead_register s, hostWrite_register s v⟩

/-- Settles O11: each offset names its own register. -/
theorem operandRegistersAreReadWrite : Obligations.OperandRegistersAreReadWrite := fun s v =>
  ⟨hostWrite_register s v, hostWrite_register s v, hostWrite_register s v, hostRead_register s, hostRead_register s,
    hostRead_register s⟩

end Sys2Proof.Machine
end

section
/-! SUPPORT. The reset values (R54) and what the registers read right after reset (R32). -/

namespace Sys2Proof.Machine

theorem powerOn_registersReset (e d : Word) (s : State) (he : e = s.expTail) (hd : d = s.dmemSize) :
    RegistersReset s (State.powerOn e d) :=
  ⟨rfl, rfl, rfl, rfl, rfl, rfl, rfl, rfl, rfl, rfl, rfl, rfl, rfl, rfl, he, hd, rfl, rfl, rfl, rfl, rfl, rfl⟩

/-- Settles O1: reset is the power-on state of the implementation's own parameters. -/
theorem resetGivesEveryRegisterItsValue : Obligations.ResetGivesEveryRegisterItsValue :=
  ⟨powerOn_registersReset _ _ _ rfl rfl, rfl, rfl, fun _ => rfl⟩

/-- Settles O2: every offset of the list is an aligned one of the register window. -/
theorem registerReadsAfterReset : Obligations.RegisterReadsAfterReset := by
  intro off v h
  simp only [List.mem_cons, Prod.mk.injEq, List.not_mem_nil, or_false] at h
  rcases h with ⟨rfl, rfl⟩ | ⟨rfl, rfl⟩ | ⟨rfl, rfl⟩ | ⟨rfl, rfl⟩ | ⟨rfl, rfl⟩ | ⟨rfl, rfl⟩ | ⟨rfl, rfl⟩ |
    ⟨rfl, rfl⟩ | ⟨rfl, rfl⟩ | ⟨rfl, rfl⟩
  all_goals exact ⟨_, hostRead_register _, rfl⟩

end Sys2Proof.Machine
end

section
/-! SUPPORT. CTRL, STATUS and CMD at the host port (R34 to R36, R50, R51). -/

namespace Sys2Proof.Machine

theorem regWrite_ctrl {v : Word} (s : State) (hv : v.getLsbD 1 = false) :
    s.regWrite v (some .ctrl) = { s with irqEn := v.getLsbD 0 } := by
  simp only [State.regWrite, hv, Bool.false_eq_true, if_false]

/-- A flag in bit 0 of a word of zeros. -/
theorem getLsbD_zeros_append_ofBool (b : Bool) (k : Nat) :
    (0#31 ++ BitVec.ofBool b).getLsbD k = (decide (k = 0) && b) := by
  simp only [BitVec.getLsbD_append]
  rcases k with _ | k <;> simp

/-- Settles O6: without SRST only IRQ_EN is written, and CTRL reads it under 31 zeros. -/
theorem controlRegisterHoldsIrqEnable : Obligations.ControlRegisterHoldsIrqEnable := by
  intro s v hv
  refine ⟨?_, _, hostRead_register s, getLsbD_zeros_append_ofBool s.irqEn⟩
  exact (hostWrite_register s v).trans (congrArg _ (regWrite_ctrl s hv))

theorem ready_w8 (s : State) : s.ready .w8 = s.ctx8.isSome := rfl

theorem ready_w16 (s : State) : s.ready .w16 = s.ctx16.isSome := rfl

/-- The bits of STATUS that show one flag each (R35). -/
theorem status_flags (s : State) :
    s.status.getLsbD 0 = s.busy ∧ s.status.getLsbD 1 = s.done ∧ s.status.getLsbD 8 = s.oob ∧
    s.status.getLsbD 9 = s.ovr ∧ s.status.getLsbD 16 = s.ctx8.isSome ∧ s.status.getLsbD 17 = s.ctx16.isSome ∧
    s.status.getLsbD 18 = s.rt.isSome ∧ s.status.getLsbD 19 = s.spl.isSome ∧ s.status.getLsbD 20 = s.nib.isSome := by
  simp only [State.status, BitVec.getLsbD_append, ready_w8, ready_w16]
  simp

theorem status_errcode (s : State) : s.status.extractLsb' 4 4 = s.errcode.code := by
  apply BitVec.eq_of_getLsbD_eq
  intro k hk
  simp only [BitVec.getLsbD_extractLsb', State.status, BitVec.getLsbD_append]
  interval_cases k <;> simp

theorem status_reserved (s : State) {k : Nat} (h : (2 ≤ k ∧ k ≤ 3) ∨ (10 ≤ k ∧ k ≤ 15) ∨ 21 ≤ k) :
    s.status.getLsbD k = false := by
  simp only [State.status, BitVec.getLsbD_append]
  rcases h with ⟨h2, h3⟩ | ⟨h10, h15⟩ | h21
  · interval_cases k <;> simp
  · interval_cases k <;> simp
  · obtain ⟨j, rfl⟩ := Nat.exists_eq_add_of_le' h21
    simp

/-- Settles O7: the flags, the error code's number and the reserved bits of the word STATUS reads. -/
theorem statusBitsStandWhereR35SaysSo : Obligations.StatusBitsStandWhereR35SaysSo := by
  intro s
  obtain ⟨hbusy, hdone, hoob, hovr, h8, h16, hrt, hspl, hnib⟩ := status_flags s
  refine ⟨_, hostRead_register s, hbusy, hdone, fun e n hmem herr => ?_, hoob, hovr, h8, h16,
    hrt, hspl, hnib, fun k => status_reserved s⟩
  have hcode : e.code.toNat = n := by
    cases e <;> (simp at hmem; subst hmem; rfl)
  exact (congrArg BitVec.toNat (status_errcode s)).trans (herr ▸ hcode)

/-- What a STATUS write clears, bit by bit (R35). -/
theorem writeStatus_eq (s : State) (v : Word) :
    s.writeStatus v = { s with
      done := s.done && !v.getLsbD 1
      errcode := if v.getLsbD 1 then .success else s.errcode
      oob := s.oob && !v.getLsbD 8
      ovr := s.ovr && !v.getLsbD 9 } := by
  unfold State.writeStatus
  cases v.getLsbD 1 <;> simp [State.acknowledge]

/-- Settles O8, from the closed form of a STATUS write. -/
theorem statusWriteClearsWhereOneIsWritten : Obligations.StatusWriteClearsWhereOneIsWritten := fun s v =>
  ⟨_, hostWrite_register s v, writeStatus_eq s v⟩

theorem regWrite_cmd_idle {s : State} (h : s.busy = false) (c : Word) : s.regWrite c (some .cmd) = s.accept c := by
  simp [State.regWrite, h]

theorem regWrite_cmd_busy {s : State} (h : s.busy = true) (c : Word) :
    s.regWrite c (some .cmd) = { s with ovr := true } := by
  simp [State.regWrite, h]

/-- Settles O9: an idle engine accepts the word, and CMD then reads it back (R36). -/
theorem acceptanceLatchesTheCommand : Obligations.AcceptanceLatchesTheCommand := fun s c h =>
  ⟨s.accept c, (hostWrite_register s c).trans (congrArg _ (regWrite_cmd_idle h c)), rfl,
    _, hostRead_register _, rfl⟩

/-- Settles O10: the busy arm of a CMD write. -/
theorem commandWriteWhileBusyIsDropped : Obligations.CommandWriteWhileBusyIsDropped := fun s c h =>
  (hostWrite_register s c).trans (congrArg _ (regWrite_cmd_busy h c))

end Sys2Proof.Machine
end

section
/-! SUPPORT. One step from what its turn does and whether the running command completes (R50, R106, R259, R296). -/

namespace Sys2Proof.Machine

section

variable {s s1 : State}

theorem step_of_completes (haccess : s.hostStep s.nextTurn.event = .next s1) (hbusy : s.busy = true)
    (hbusy1 : s1.busy = true) (hcompletes : s.nextTurn.completes = true) : step s = runCommand s1.popTurn := by
  simp [step, advance, haccess, completesNow, hbusy, hbusy1, hcompletes]

theorem step_of_not_completes (haccess : s.hostStep s.nextTurn.event = .next s1)
    (h : s.busy = false ∨ s1.busy = false ∨ s.nextTurn.completes = false) : step s = .next s1.popTurn := by
  have hnow : completesNow s s1 s.nextTurn = false := by
    rcases h with h | h | h <;> simp [completesNow, h]
  simp [step, advance, haccess, hnow]

theorem step_of_refused {r : Refusal} (haccess : s.hostStep s.nextTurn.event = .refused r) : step s = .refused r := by
  simp [step, advance, haccess]

theorem runCommand_of_decode {i : Instr} (h : decode s.lcmd = .ok i) : runCommand s = exec i s := by
  simp [runCommand, h]

end

/-- Settles O21: the three ways a step goes on after the access of its turn. -/
theorem stepRunsTheDecodedCommand : Obligations.StepRunsTheDecodedCommand := by
  intro s
  refine ⟨?idle, ?reset, ?read, ?write, ?completes, fun _ => step_of_not_completes, fun _ => step_of_refused⟩
  case idle => intro h; rw [h]; rfl
  case reset => intro h; rw [h]; rfl
  case read => intro size off h; rw [h]; rfl
  case write => intro size off v h; rw [h]; rfl
  case completes =>
    intro s1 i haccess hbusy hbusy1 hcompletes hdecode
    rw [step_of_completes haccess hbusy hbusy1 hcompletes, runCommand_of_decode (s := s1.popTurn) hdecode]

end Sys2Proof.Machine
end

section
/-! SUPPORT. Which accesses of the host and which steps answer a next state (R42, R71, R76), and what an access past the end
of DMEM and a read leave alone (R71, R80). -/

namespace Sys2Proof.Machine

theorem hostRead_past {s : State} {size : AccessSize} {off : Nat} (h : 0x1000 + s.dmemSize.toNat ≤ off) :
    s.hostRead size off = .next { s with readData := 0#32 } := by
  simp only [State.hostRead, target_past h]

theorem hostWrite_past {s : State} {size : AccessSize} {off : Nat} (v : Word) (h : 0x1000 + s.dmemSize.toNat ≤ off) :
    s.hostWrite size off v = .next s := by
  simp only [State.hostWrite, target_past h]

/-- Settles O16: the third row of the address map. -/
theorem accessPastDmemReadsZero : Obligations.AccessPastDmemReadsZero := fun _ _ _ v h =>
  ⟨hostRead_past h, hostWrite_past v h⟩

/-- Settles O12, by where the read lands. -/
theorem hostReadsHaveNoSideEffect : Obligations.HostReadsHaveNoSideEffect := by
  intro s t size off h
  simp only [State.hostRead] at h
  cases htarget : s.target size off with
  | undefinedAccess => rw [htarget] at h; cases h
  | register | dmem | pastEnd => rw [htarget] at h; cases h; rfl

/-- An access the spec defines is answered, a read and a write alike. -/
theorem hostAccess_answers_next {s : State} {size : AccessSize} {off : Nat} (h : AccessDefined s size off) :
    (∃ t, s.hostRead size off = .next t) ∧ ∀ v, ∃ t, s.hostWrite size off v = .next t := by
  simp only [State.hostRead, State.hostWrite]
  cases htarget : s.target size off with
  | undefinedAccess => exact absurd h ((target_undefined_iff s size off).1 htarget)
  | register | dmem | pastEnd => exact ⟨⟨_, rfl⟩, fun _ => ⟨_, rfl⟩⟩

/-- The host port and the reset input answer every input the spec defines. -/
theorem hostStep_answers_next {s : State} (h : InputDefined s) : ∃ t, s.hostStep s.nextTurn.event = .next t := by
  unfold InputDefined at h
  cases he : s.nextTurn.event <;> simp only [he] at h
  case idle | reset => exact ⟨_, rfl⟩
  case read => exact (hostAccess_answers_next h).1
  case write => exact (hostAccess_answers_next h).2 _

/-- The host port refuses every input the spec leaves undefined (R76). -/
theorem hostStep_refused {s : State} (h : ¬InputDefined s) :
    s.hostStep s.nextTurn.event = .refused .undefinedHostAccess := by
  unfold InputDefined at h
  cases he : s.nextTurn.event <;> simp only [he] at h
  case idle | reset => exact absurd trivial h
  case read => exact hostRead_undefined h
  case write => exact hostWrite_undefined _ h

/-- The completion of a command never stops the block: a word that is no command raises its error (R107, R252). -/
theorem runCommand_answers_next (s : State) : ∃ t, runCommand s = .next t := by
  unfold runCommand
  split
  · exact exec_answers_next _ s
  · exact ⟨_, rfl⟩

/-- After an access that is answered the step is answered too, whether a command completes or not. -/
theorem step_answers_next {s s1 : State} (haccess : s.hostStep s.nextTurn.event = .next s1) : ∃ t, step s = .next t := by
  simp only [step, advance, haccess]
  split
  · exact runCommand_answers_next _
  · exact ⟨_, rfl⟩

/-- Settles O13: the access of the turn is the only thing that can stop a step, and the model has no fault to raise. -/
theorem stepStopsOnlyOnUndefinedAccess : Obligations.StepStopsOnlyOnUndefinedAccess := fun _ =>
  ⟨fun r => (nomatch r),
    fun h => (hostStep_answers_next h).elim fun _ haccess => step_answers_next haccess,
    fun h => step_of_refused (hostStep_refused h)⟩

end Sys2Proof.Machine
end

section
/-! SUPPORT. The host's reads of DMEM (R74, R75, R79): where they land, the number their bytes make, and which byte each one
is. -/

namespace Sys2Proof.Machine

theorem hostRead_dmem {s : State} {size : AccessSize} {a : Nat} (halign : a % AccessSize.bytes size = 0)
    (hend : a + AccessSize.bytes size ≤ s.dmemSize.toNat) :
    s.hostRead size (0x1000 + a) = .next (s.dmemRead (AccessSize.bytes size) a) := by
  simp only [State.hostRead, target_of_dmem halign hend]

/-- Little-endian bytes as a sum of powers of 256 (R75). -/
theorem ofBytesLE_map_range (n : Nat) (f : Nat → Byte) :
    ofBytesLE ((List.range n).map f) = ∑ k ∈ Finset.range n, (f k).toNat * 2 ^ (8 * k) := by
  induction n generalizing f with
  | zero => rfl
  | succ n ih =>
    have hshift (k : Nat) : 256 * ((f (k + 1)).toNat * 2 ^ (8 * k)) = (f (k + 1)).toNat * 2 ^ (8 * (k + 1)) := by
      rw [Nat.mul_add, Nat.pow_add]; ring
    rw [List.range_succ_eq_map, List.map_cons, List.map_map, ofBytesLE, ih, Finset.sum_range_succ', Finset.mul_sum]
    simp only [Function.comp_apply, Nat.succ_eq_add_one, hshift]
    simp [Nat.add_comm]

theorem ofBytesLE_lt (bs : List Byte) : ofBytesLE bs < 2 ^ (8 * bs.length) := by
  induction bs with
  | nil => decide
  | cons b bs ih =>
    have hb : b.toNat < 256 := b.isLt
    rw [ofBytesLE, List.length_cons, Nat.mul_add, Nat.pow_add]
    omega

theorem accessSize_bytes_le (size : AccessSize) : AccessSize.bytes size ≤ 4 := by cases size <;> decide

/-- A read of at most four bytes loses none of them in the 32 bits of `readData` (R75, log 15). -/
theorem dmemRead_readData {n : Nat} (s : State) (a : Nat) (hn : n ≤ 4) :
    (s.dmemRead n a).readData.toNat = ∑ k ∈ Finset.range n, (s.hostByte (a + k)).toNat * 2 ^ (8 * k) := by
  have hlt : ofBytesLE ((List.range n).map fun k => s.hostByte (a + k)) < 2 ^ 32 :=
    (ofBytesLE_lt _).trans_le (Nat.pow_le_pow_right (by decide) (by simp; omega))
  rw [← ofBytesLE_map_range n fun k => s.hostByte (a + k), State.dmemRead, spendDraws_readData, BitVec.toNat_ofNat,
    Nat.mod_eq_of_lt hlt]

theorem writes_iff (l : Lookup) (a : Nat) : l.writes a = true ↔ l.dst ≤ a ∧ a < l.dst + l.lane.bytes := by
  simp [Lookup.writes]

theorem reads_iff (l : Lookup) (a : Nat) : l.reads a = true ↔ l.src ≤ a ∧ a < l.src + l.lane.bytes := by
  simp [Lookup.reads]

/-- Each output address has its byte in the promise. -/
theorem getElem?_promise (s : State) {l : Lookup} {a : Nat} (h1 : l.dst ≤ a) (h2 : a < l.dst + l.lane.bytes) :
    ∃ b, (s.promise l)[a - l.dst]? = some b :=
  ⟨_, List.getElem?_eq_getElem (by rw [State.promise, length_output]; omega)⟩

/-- Outside the output chunk of a running VLOOKUP the host reads what DMEM holds (R74). -/
theorem hostByte_of_outside {s : State} {a : Nat}
    (h : ∀ l, RunningLookup s l → a < l.dst ∨ l.dst + l.lane.bytes ≤ a) :
    s.hostByte a = (Memory.get? s.dmem a).getD (Config.freeByte s.draws a) := by
  unfold State.hostByte
  cases hl : s.runningLookup with
  | none => rfl
  | some l =>
    have hout := h l ((runningLookup_iff s l).1 hl)
    have hw : l.writes a = false := by rw [Bool.eq_false_iff, ne_eq, writes_iff]; omega
    simp [hw]

/-- The byte a host read gives is the one DMEM holds, or the promised one of a running VLOOKUP (R79). -/
theorem hostByte_cases (s : State) (a : Nat) :
    s.hostByte a = (Memory.get? s.dmem a).getD (Config.freeByte s.draws a) ∨
    ∃ l, RunningLookup s l ∧ l.dst ≤ a ∧ a < l.dst + l.lane.bytes ∧
      (s.promise l)[a - l.dst]? = some (s.hostByte a) := by
  unfold State.hostByte
  cases hl : s.runningLookup with
  | none => exact .inl rfl
  | some l =>
    dsimp only
    split
    · rename_i hpick
      rw [Bool.and_eq_true, writes_iff] at hpick
      obtain ⟨⟨h1, h2⟩, -⟩ := hpick
      obtain ⟨b, hb⟩ := getElem?_promise s h1 h2
      exact .inr ⟨l, (runningLookup_iff s l).1 hl, h1, h2, by rw [hb, Option.getD_some]⟩
    · exact .inl rfl

/-- Settles O14: outside a running output chunk the bytes read are the written ones. -/
theorem dmemReadIsLittleEndian : Obligations.DmemReadIsLittleEndian := by
  intro s size a b hout halign hend hwritten
  refine ⟨_, hostRead_dmem halign hend, (dmemRead_readData s a (accessSize_bytes_le size)).trans ?_⟩
  refine Finset.sum_congr rfl fun k hk => ?_
  have hk := Finset.mem_range.1 hk
  rw [hostByte_of_outside fun l hl => hout l k hl hk, hwritten k hk, Option.getD_some]

end Sys2Proof.Machine
end

section
/-! SUPPORT. A racing read and the promise it may show (R79): how the look ahead goes on by one turn, and what a VLOOKUP that
completes leaves in DMEM. -/

namespace Sys2Proof.Machine

section

variable {s f s1 : State} {l : Lookup}

/-- The turn under way is where the look ahead starts; with no turn listed it is the idle one that completes (log 2). -/
theorem atCompletion_of_completes (hf : s.pastInput s.nextTurn.event = some f) (hc : s.nextTurn.completes = true) :
    s.atCompletion s.turns = f := by
  rw [State.nextTurn] at hf hc
  cases hts : s.turns with
  | nil => rw [hts] at hf; exact Option.some.inj hf
  | cons u ts =>
    rw [hts, List.headD_cons] at hf hc
    simp only [State.atCompletion, hf, hc, if_true]

theorem atCompletion_of_waits (hf : s.pastInput s.nextTurn.event = some f) (hc : s.nextTurn.completes = false) :
    s.atCompletion s.turns = f.atCompletion s.turns.tail := by
  rw [State.nextTurn] at hf hc
  cases hts : s.turns with
  | nil => rw [hts] at hc; cases hc
  | cons u ts =>
    rw [hts, List.headD_cons] at hf hc
    simp only [State.atCompletion, hf, hc, Bool.false_eq_true, if_false, List.tail_cons]

/-- In the step that completes the command the promise is what it writes. -/
theorem promise_of_completes (haccess : s.hostStep s.nextTurn.event = .next s1) (hbusy : s.busy = true)
    (hbusy1 : s1.busy = true) (hc : s.nextTurn.completes = true) (l : Lookup) : s.promise l = l.output s1 s1.draws := by
  obtain ⟨f, hf, hrace, -⟩ := hostStep_pastInput haccess hbusy hbusy1
  rw [State.promise, atCompletion_of_completes hf hc, hrace.output, hrace.draws]

/-- A step that leaves the command running leaves the promise. -/
theorem promise_of_waits (haccess : s.hostStep s.nextTurn.event = .next s1) (hbusy : s.busy = true)
    (hbusy1 : s1.busy = true) (hc : s.nextTurn.completes = false) (l : Lookup) : s1.popTurn.promise l = s.promise l := by
  obtain ⟨f, hf, hrace, hturns⟩ := hostStep_pastInput haccess hbusy hbusy1
  have hpop : SameRace f s1.popTurn := { hrace with }
  have hlast := hpop.atCompletion s.turns.tail
  rw [State.promise, State.promise, atCompletion_of_waits hf hc, popTurn_turns, hturns, hlast.output, hlast.draws]

/-- The completion of a VLOOKUP whose checks pass (R230). -/
theorem exec_vlookup_of_setup (h : s.lookupSetup l.lane = .ok l) : exec (.vlookup l.lane) s =
    .next { s with dmem := Memory.writeFrom s.outKeep (l.output s s.draws) l.dst s.dmem }.succeed := by
  simp only [exec, execVlookup, h]

/-- What a byte of DMEM holds after the output chunk of a VLOOKUP is written: its output byte, unless it is kept. -/
theorem get?_writeOutput {m : List Host.Cell} (hm : Memory.wf m = true) (keep : List Nat) (l : Lookup) (s : State)
    (n a : Nat) : Memory.get? (Memory.writeFrom keep (l.output s n) l.dst m) a =
      if l.dst ≤ a ∧ a < l.dst + l.lane.bytes ∧ a ∉ keep then (l.output s n)[a - l.dst]? else Memory.get? m a := by
  rw [get?_writeFrom keep _ _ _ m hm, length_output]

theorem popTurn_running (hl : RunningLookup s l) : RunningLookup s.popTurn l := hl

/-- No access of the host sets DONE (R35). -/
theorem PortEffect.done {e : HostEvent} (h : PortEffect s e s1) (hdone : s1.done = true) : s.done = true := by
  cases h with
  | hostRegisters => exact hdone
  | status v => rw [writeStatus_eq] at hdone; exact (Bool.and_eq_true_iff.1 hdone).1
  | accept c => cases hdone
  | dmemWrite n a v => rw [State.dmemWrite, spendDraws_done, (hostWriteBytes_rest s a _).rest] at hdone; exact hdone
  | softReset => rw [(softReset_cleared s).done] at hdone; cases hdone
  | hardReset => cases hdone

end

/-- A step with a VLOOKUP running: it completes and writes what it promised, or it waits with the promise unchanged, or a reset
has ended it. -/
theorem step_running_cases {s t : State} {l : Lookup} (hl : RunningLookup s l) (h : step s = .next t) :
    ∃ s1, s.hostStep s.nextTurn.event = .next s1 ∧
      ((t.busy = false ∧ t.dmem = Memory.writeFrom s1.outKeep (s.promise l) l.dst s1.dmem) ∨
       (t = s1.popTurn ∧ (s1.busy = true → RunningLookup t l ∧ t.promise l = s.promise l))) := by
  obtain ⟨s1, haccess, hrun⟩ := step_cases h
  refine ⟨s1, haccess, ?_⟩
  rcases hrun with ⟨hbusy, hbusy1, hc, hcmd⟩ | ⟨hwait, rfl⟩
  · left
    obtain ⟨-, hdecode, hsetup⟩ := popTurn_running (hostStep_running haccess hl hbusy1)
    rw [runCommand_of_decode hdecode, exec_vlookup_of_setup hsetup] at hcmd
    rw [promise_of_completes haccess hbusy hbusy1 hc]
    cases hcmd
    exact ⟨rfl, rfl⟩
  · refine .inr ⟨rfl, fun hbusy1 => ?_⟩
    have hc : s.nextTurn.completes = false := by simpa [hl.1, hbusy1] using hwait
    exact ⟨popTurn_running (hostStep_running haccess hl hbusy1), promise_of_waits haccess hl.1 hbusy1 hc l⟩

/-- Settles O56: each byte by `hostByte_cases`, and the promise by the two ways a step with a VLOOKUP running ends. -/
theorem racingReadGivesOldOrNew : Obligations.RacingReadGivesOldOrNew := by
  refine ⟨fun s size a halign hend => ?_, fun s t l hs hl hstep => ?_⟩
  · refine ⟨_, fun k => s.hostByte (a + k), hostRead_dmem halign hend,
      dmemRead_readData s a (accessSize_bytes_le size), fun k _ => ?_⟩
    refine (hostByte_cases s (a + k)).imp_left fun hbyte old hold => ?_
    exact hbyte.trans (by rw [hold, Option.getD_some])
  · obtain ⟨s1, haccess, ⟨hbusy, hdmem⟩ | ⟨rfl, hwait⟩⟩ := step_running_cases hl hstep
    · refine ⟨fun hb => (nomatch hbusy.symm.trans hb), fun _ => ⟨s1, haccess, fun a h1 h2 => ?_⟩⟩
      rw [hdmem, State.promise, get?_writeOutput (hostStep_keeps_inv haccess hs).memWf]
      by_cases hk : a ∈ s1.outKeep <;> simp [h1, h2, hk]
    · refine ⟨hwait, fun hd => ?_⟩
      exact nomatch (hs.busyNotDone hl.1).symm.trans ((hostStep_effect haccess).done hd)

end Sys2Proof.Machine
end

section
/-! SUPPORT. The host's writes to DMEM (R75, R79): the bytes they store, and what they and the VLOOKUP they race leave. -/

namespace Sys2Proof.Machine

theorem hostWrite_dmem {s : State} {size : AccessSize} {a : Nat} (v : Word) (halign : a % AccessSize.bytes size = 0)
    (hend : a + AccessSize.bytes size ≤ s.dmemSize.toNat) :
    s.hostWrite size (0x1000 + a) v = .next (s.dmemWrite (AccessSize.bytes size) a v) := by
  simp only [State.hostWrite, target_of_dmem halign hend]

section

variable {s : State} (n a : Nat) (v : Word)

theorem dmemWrite_rest (s : State) : DmemOnly s (s.dmemWrite n a v) := by
  constructor
  rw [State.dmemWrite, State.spendDraws, (hostWriteBytes_rest s a (bytesLE n v)).rest]

theorem dmemWrite_running {l : Lookup} (hl : RunningLookup s l) : RunningLookup (s.dmemWrite n a v) l := by
  rw [(dmemWrite_rest n a v s).rest]
  exact hl

theorem dmemWrite_dmem (s : State) : (s.dmemWrite n a v).dmem = Memory.writeFrom [] (bytesLE n v) a s.dmem :=
  hostWriteBytes_dmem s a (bytesLE n v)

theorem dmemWrite_written (hm : Memory.wf s.dmem = true) {k : Nat} (hk : k < n) :
    Memory.get? (s.dmemWrite n a v).dmem (a + k) = some (v.extractLsb' (8 * k) 8) := by
  rw [dmemWrite_dmem, get?_writeFrom _ _ _ _ _ hm, length_bytesLE, if_pos ⟨by omega, by omega, List.not_mem_nil⟩,
    Nat.add_sub_cancel_left, getElem?_bytesLE n v k hk]

theorem dmemWrite_other (hm : Memory.wf s.dmem = true) {b : Nat} (hb : b < a ∨ a + n ≤ b) :
    Memory.get? (s.dmemWrite n a v).dmem b = Memory.get? s.dmem b := by
  rw [dmemWrite_dmem, get?_writeFrom _ _ _ _ _ hm, length_bytesLE, if_neg (by omega)]

/-- A written input byte of a running VLOOKUP reaches it or does not (R79). -/
theorem dmemWrite_engineByte_written {l : Lookup} (hs : StateInv s) (hl : RunningLookup s l) {k : Nat} (hk : k < n)
    (hr : l.reads (a + k) = true) :
    (∀ i, (s.dmemWrite n a v).engineByte i (a + k) = v.extractLsb' (8 * k) 8) ∨
      ∀ i, (s.dmemWrite n a v).engineByte i (a + k) = s.engineByte s.draws (a + k) :=
  (hostWriteBytes_race hl hs.memWf hs.viewWf a (bytesLE n v)).2 k _ (getElem?_bytesLE n v k hk) hr

/-- At every other address the running VLOOKUP reads and keeps what it did before. -/
theorem dmemWrite_race_other {l : Lookup} (hs : StateInv s) (hl : RunningLookup s l) {b : Nat} (hb : b < a ∨ a + n ≤ b) :
    (∀ i, (s.dmemWrite n a v).engineByte i b = s.engineByte i b) ∧
      (b ∈ (s.dmemWrite n a v).outKeep ↔ b ∈ s.outKeep) :=
  (hostWriteBytes_race hl hs.memWf hs.viewWf a (bytesLE n v)).1 b (by rwa [length_bytesLE])

end

/-- Settles O15, from the law of a run of byte writes. -/
theorem dmemWriteStoresItsBytes : Obligations.DmemWriteStoresItsBytes := fun s _ a v hs halign hend =>
  ⟨_, hostWrite_dmem v halign hend, fun _ => dmemWrite_written _ a v hs.memWf,
    fun _ => dmemWrite_other _ a v hs.memWf, (dmemWrite_rest _ a v s).rest⟩

/-- Settles O57: the write leaves the VLOOKUP running, and its completion writes the output chunk over the bytes the host left,
but for those that are kept. -/
theorem racingWriteReachesOrNot : Obligations.RacingWriteReachesOrNot := by
  intro s l size a v hs hl halign hend
  have hm := hs.memWf
  have hwrite := hostWrite_dmem v halign hend
  have hm' : Memory.wf (s.dmemWrite (AccessSize.bytes size) a v).dmem = true :=
    (hostStep_keeps_inv (e := .write size (0x1000 + a) v) hwrite hs).memWf
  obtain ⟨-, -, hsetup⟩ := dmemWrite_running (AccessSize.bytes size) a v hl
  refine ⟨_, _, hwrite, exec_vlookup_of_setup hsetup, rfl, fun k hk => ?written, fun b hb => ?other⟩ <;>
    simp only [succeed_dmem, get?_writeOutput hm']
  case written =>
    have hbyte := dmemWrite_written _ a v hm hk
    refine ⟨hbyte, fun h1 h2 => ?_, fun _ _ => ?_, fun hout => ?_⟩
    · exact dmemWrite_engineByte_written _ a v hs hl hk ((reads_iff l _).2 ⟨h1, h2⟩)
    · split
      · exact .inr rfl
      · exact .inl hbyte
    · rw [if_neg (by omega), hbyte]
  case other =>
    obtain ⟨hengine, hkeep⟩ := dmemWrite_race_other _ a v hs hl hb
    have hold := dmemWrite_other _ a v hm hb
    exact ⟨hold, hengine, by simp only [hkeep, hold]⟩

end Sys2Proof.Machine
end

section
/-! SUPPORT. What a command word decodes to, through the opcode its OP byte names (R105), the bits that opcode leaves unused
(R106) and the fields it carries (R102, R103). -/

namespace Sys2Proof

/-- The OP field of a word (R102). -/
def opOf (c : Word) : Nat := (c.extractLsb' 0 8).toNat

/-- The bits a row of the opcode table fixes: OP, and each bit the opcode does not use (R106). -/
def Opcode.mask (o : Opcode) : Word := 0xFF#32 ||| ~~~o.used

/-- The bits of the fields that the command of an opcode carries (R102, R105), the whole of SEL for both opcodes that read it. -/
def Opcode.fields : Opcode → Word
  | .init | .expRd | .idxRd | .mul | .div | .mulz | .divz => 0x00000100#32
  | .rtBuild | .splBuild | .nibBuild => 0x00000700#32
  | .rtRd | .rtRel | .splLookup | .splRel | .nibRel => 0#32
  | .splRd | .nibRd => 0x0000F000#32
  | .vlookup => 0x00000800#32

/-- The row of the opcode table that a command belongs to (R105). -/
def Instr.opcode : Instr → Opcode
  | .init _ => .init
  | .expRd _ => .expRd
  | .idxRd _ => .idxRd
  | .mul _ => .mul
  | .div _ => .div
  | .mulz _ => .mulz
  | .divz _ => .divz
  | .rtBuild _ _ => .rtBuild
  | .rtRd => .rtRd
  | .rtRel => .rtRel
  | .splBuild _ _ => .splBuild
  | .splRd _ => .splRd
  | .splLookup => .splLookup
  | .splRel => .splRel
  | .nibBuild _ _ => .nibBuild
  | .nibRd _ => .nibRd
  | .nibRel => .nibRel
  | .vlookup _ => .vlookup

/-! ### Opcodes -/

@[simp] theorem opcode_toInstr (o : Opcode) (c : Word) : (o.toInstr c).opcode = o := by cases o <;> rfl

theorem code_lt (o : Opcode) : o.code < 256 := by cases o <;> decide

/-- The codes of the table are distinct. -/
theorem opcodeOf_eq_some_iff (n : Nat) (o : Opcode) : opcodeOf n = some o ↔ n = o.code := by
  constructor
  · intro h
    have hcode := List.find?_some h
    exact (beq_iff_eq.1 hcode).symm
  · rintro rfl
    cases o <;> rfl

/-- R107: the codes between those of the table. -/
theorem opcodeOf_eq_none_iff {n : Nat} : opcodeOf n = none ↔
    n = 0 ∨ (0x04 ≤ n ∧ n ≤ 0x0F) ∨ (0x14 ≤ n ∧ n ≤ 0x1F) ∨ (0x23 ≤ n ∧ n ≤ 0x27) ∨
      (0x2C ≤ n ∧ n ≤ 0x2F) ∨ (0x33 ≤ n ∧ n ≤ 0x37) ∨ 0x39 ≤ n := by
  simp only [opcodeOf, List.find?_eq_none, opcodeTable, List.forall_mem_cons, Opcode.code, beq_iff_eq,
    List.not_mem_nil, false_imp_iff, implies_true, and_true]
  omega

theorem opOf_eq_mod (c : Word) : opOf c = c.toNat % 256 := by simp [opOf]

theorem opOf_eq_code_iff (c : Word) (o : Opcode) : opOf c = o.code ↔ c &&& 0xFF#32 = o.opBits := by
  have hand : (c &&& 0xFF#32).toNat = c.toNat % 256 := Nat.and_two_pow_sub_one_eq_mod c.toNat 8
  have hop : o.opBits.toNat = o.code := Nat.mod_eq_of_lt (by have := code_lt o; omega)
  rw [opOf_eq_mod, BitVec.toNat_eq, hand, hop]

/-! ### What the decoder answers -/

/-- The two checks of R106, and the command they leave. -/
theorem decode_eq_ok_iff {c : Word} {i : Instr} :
    decode c = .ok i ↔ ∃ o : Opcode, opOf c = o.code ∧ c &&& ~~~o.used = 0#32 ∧ o.toInstr c = i := by
  simp only [← opcodeOf_eq_some_iff, opOf, decode]
  cases opcodeOf (c.extractLsb' 0 8).toNat with
  | none => simp
  | some o => by_cases hused : c &&& ~~~o.used = 0#32 <;> simp [hused]

theorem decode_eq_illegal_iff {c : Word} : decode c = .error .illegal ↔ opcodeOf (opOf c) = none := by
  simp only [opOf, decode]
  cases opcodeOf (c.extractLsb' 0 8).toNat with
  | none => simp
  | some o => by_cases hused : c &&& ~~~o.used = 0#32 <;> simp [hused]

/-- Both checks of R106 in one comparison: the masked bits are the row's match. -/
theorem and_mask_eq_opBits_iff (c : Word) (o : Opcode) :
    c &&& o.mask = o.opBits ↔ opOf c = o.code ∧ c &&& ~~~o.used = 0#32 := by
  rw [opOf_eq_code_iff]
  constructor
  · intro h
    constructor
    · have hmask : o.mask &&& 0xFF#32 = 0xFF#32 := by cases o <;> decide
      have hmatch : o.opBits &&& 0xFF#32 = o.opBits := by cases o <;> decide
      rw [← hmask, ← BitVec.and_assoc, h, hmatch]
    · have hmask : o.mask &&& ~~~o.used = ~~~o.used := by cases o <;> decide
      have hmatch : o.opBits &&& ~~~o.used = 0#32 := by cases o <;> decide
      rw [← hmask, ← BitVec.and_assoc, h, hmatch]
  · rintro ⟨hop, hused⟩
    rw [Opcode.mask, BitVec.and_or_distrib_left, hop, hused, BitVec.or_zero]

/-- The words of one row of the opcode table (R105, R106). -/
theorem decode_eq_ok_toInstr_iff (c : Word) (o : Opcode) :
    decode c = .ok (o.toInstr c) ↔ c &&& o.mask = o.opBits := by
  rw [and_mask_eq_opBits_iff, decode_eq_ok_iff]
  constructor
  · rintro ⟨o', hop, hused, hinstr⟩
    obtain rfl : o' = o := by simpa using congrArg Instr.opcode hinstr
    exact ⟨hop, hused⟩
  · rintro ⟨hop, hused⟩
    exact ⟨o, hop, hused, rfl⟩

/-! ### The fields of a word -/

theorem wselBits_wselOf (c : Word) : wselBits (wselOf c) = c &&& 0x100#32 := by
  rw [show (0x100#32 : Word) = BitVec.twoPow 32 8 from rfl, BitVec.and_twoPow, wselOf]
  split <;> rfl

theorem laneBits_laneOf (c : Word) : laneBits (laneOf c) = c &&& 0x800#32 := by
  rw [show (0x800#32 : Word) = BitVec.twoPow 32 11 from rfl, BitVec.and_twoPow, laneOf]
  split <;> rfl

theorem kindBits_kindOf (c : Word) : kindBits (kindOf c) = c &&& 0x600#32 := by
  rw [show (0x600#32 : Word) = BitVec.twoPow 32 10 ||| BitVec.twoPow 32 9 from rfl, BitVec.and_or_distrib_left,
    BitVec.and_twoPow, BitVec.and_twoPow, kindOf]
  cases c.getLsbD 10 <;> cases c.getLsbD 9 <;> rfl

theorem selBits_selOf (c : Word) : selBits (selOf c) = c &&& 0xF000#32 := by
  refine BitVec.eq_of_getLsbD_eq fun n hn => ?_
  have hmask : ∀ n < 32, (0xF000#32).getLsbD n = decide (12 ≤ n ∧ n < 16) := by decide
  rw [BitVec.getLsbD_and, hmask n hn, selBits, selOf, BitVec.getLsbD_shiftLeft, BitVec.getLsbD_setWidth,
    BitVec.getLsbD_extractLsb']
  by_cases hlow : n < 12
  · simp [hlow]
  · have hbound : n - 12 < 4 ↔ n < 16 := by omega
    have hwide : n - 12 < 32 := by omega
    simp [hn, hlow, Nat.not_lt.1 hlow, hbound, hwide, Bool.and_comm]

theorem getLsbD_opBits (o : Opcode) {n : Nat} (h : 8 ≤ n) : o.opBits.getLsbD n = false := by
  have hlt : o.code < 2 ^ n := (code_lt o).trans_le (Nat.pow_le_pow_right (n := 2) (by decide) h)
  rw [Opcode.opBits, BitVec.getLsbD_ofNat, Nat.testBit_lt_two_pow hlt, Bool.and_false]

section

variable (o : Opcode) (x : Word)

@[simp] theorem wselOf_opBits_or : wselOf (o.opBits ||| x) = wselOf x := by
  simp only [wselOf, BitVec.getLsbD_or, getLsbD_opBits, Nat.reduceLeDiff, Bool.false_or]

@[simp] theorem kindOf_opBits_or : kindOf (o.opBits ||| x) = kindOf x := by
  simp only [kindOf, BitVec.getLsbD_or, getLsbD_opBits, Nat.reduceLeDiff, Bool.false_or]

@[simp] theorem laneOf_opBits_or : laneOf (o.opBits ||| x) = laneOf x := by
  simp only [laneOf, BitVec.getLsbD_or, getLsbD_opBits, Nat.reduceLeDiff, Bool.false_or]

@[simp] theorem selOf_opBits_or : selOf (o.opBits ||| x) = selOf x := by
  have hop : o.opBits.extractLsb' 12 4 = 0#4 := by cases o <;> decide
  simp [selOf, BitVec.extractLsb'_or, hop]

/-- A field above OP leaves the opcode. -/
theorem opOf_opBits_or (h : x.extractLsb' 0 8 = 0#8) : opOf (o.opBits ||| x) = o.code := by
  have hop : opOf o.opBits = o.code := by cases o <;> decide
  rw [← hop, opOf, BitVec.extractLsb'_or, h, BitVec.or_zero, opOf]

end

@[simp] theorem wselOf_wselBits (w : Width) : wselOf (wselBits w) = w := by cases w <;> decide

@[simp] theorem laneOf_laneBits (l : Lane) : laneOf (laneBits l) = l := by cases l <;> decide

@[simp] theorem selOf_selBits (sel : BitVec 4) : selOf (selBits sel) = sel := by revert sel; decide

theorem fields_of_wselBits_or_kindBits (w : Width) (k : Option Kind) :
    wselOf (wselBits w ||| kindBits k) = w ∧ kindOf (wselBits w ||| kindBits k) = k ∧
      (wselBits w ||| kindBits k).extractLsb' 0 8 = 0#8 := by
  cases w <;> rcases k with _ | _ | _ | _ <;> decide

theorem kindOf_eq_ite (c : Word) : kindOf c =
    if c.extractLsb' 9 2 = 0#2 then some .mul else if c.extractLsb' 9 2 = 1#2 then some .divAByX
      else if c.extractLsb' 9 2 = 2#2 then some .divXByA else none := by
  have h9 : c.getLsbD 9 = (c.extractLsb' 9 2).getLsbD 0 := by simp
  have h10 : c.getLsbD 10 = (c.extractLsb' 9 2).getLsbD 1 := by simp
  rw [kindOf, h9, h10]
  generalize c.extractLsb' 9 2 = kind
  revert kind
  decide

/-! ### Encoding -/

/-- The word of a command an opcode makes: its OP field, and the fields of the word the command was made of. -/
theorem encode_toInstr (o : Opcode) (c : Word) : encode (o.toInstr c) = o.opBits ||| (c &&& o.fields) := by
  have hbuild : c &&& 0x700#32 = c &&& 0x100#32 ||| c &&& 0x600#32 :=
    BitVec.and_or_distrib_left (y := 0x100#32) (z := 0x600#32)
  cases o <;> simp [Opcode.toInstr, encode, Opcode.fields, wselBits_wselOf, kindBits_kindOf, laneBits_laneOf,
    selBits_selOf, hbuild, BitVec.or_assoc]

/-- A word without unused bits is its OP field and its fields (R102). -/
theorem opBits_or_fields {c : Word} {o : Opcode} (hop : opOf c = o.code) (hused : c &&& ~~~o.used = 0#32) :
    o.opBits ||| (c &&& o.fields) = c := by
  have hcover : (0xFF#32 ||| o.fields) ||| ~~~o.used = BitVec.allOnes 32 := by cases o <;> decide
  calc o.opBits ||| (c &&& o.fields)
      = (c &&& (0xFF#32 ||| o.fields)) ||| (c &&& ~~~o.used) := by
        rw [hused, BitVec.or_zero, BitVec.and_or_distrib_left, (opOf_eq_code_iff c o).1 hop]
    _ = c := by rw [← BitVec.and_or_distrib_left, hcover, BitVec.and_allOnes]

/-- The commands SPL_RD and NIB_RD of a word without unused bits carry a usable SEL (R102, R107). -/
theorem toInstr_wellFormed {c : Word} {o : Opcode} (hused : c &&& ~~~o.used = 0#32) : (o.toInstr c).wellFormed = true := by
  have hsel : selOf c &&& selOf (~~~o.used) = 0#4 := by rw [selOf, selOf, ← BitVec.extractLsb'_and, hused]; rfl
  cases o
  case splRd =>
    have h : ∀ sel : BitVec 4, sel &&& 0xE#4 = 0#4 → (Instr.splRd sel).wellFormed = true := by decide
    exact h _ hsel
  case nibRd =>
    have h : ∀ sel : BitVec 4, sel &&& 0x8#4 = 0#4 → (Instr.nibRd sel).wellFormed = true := by decide
    exact h _ hsel
  all_goals rfl

/-- The OP field of a command's word names its opcode (R105). -/
theorem opOf_encode (i : Instr) : opOf (encode i) = i.opcode.code := by
  cases i
  case init w | expRd w | idxRd w | mul w | div w | mulz w | divz w =>
    exact opOf_opBits_or _ _ (by cases w <;> rfl)
  case rtBuild w k | splBuild w k | nibBuild w k =>
    obtain ⟨-, -, hop⟩ := fields_of_wselBits_or_kindBits w k
    rw [encode, BitVec.or_assoc]
    exact opOf_opBits_or _ _ hop
  case splRd sel | nibRd sel => exact opOf_opBits_or _ _ (by revert sel; decide)
  case vlookup l => exact opOf_opBits_or _ _ (by cases l <;> rfl)
  case rtRd | rtRel | splLookup | splRel | nibRel => rfl

/-- The fields of a command's word are the command's (R102, R103). -/
theorem toInstr_encode (i : Instr) : i.opcode.toInstr (encode i) = i := by
  cases i
  case rtBuild w k | splBuild w k | nibBuild w k =>
    obtain ⟨hwsel, hkind, -⟩ := fields_of_wselBits_or_kindBits w k
    simp [Instr.opcode, Opcode.toInstr, encode, BitVec.or_assoc, hwsel, hkind]
  all_goals simp [Instr.opcode, Opcode.toInstr, encode]

/-- The word of a well-formed command has no unused bit set, whatever the command (R106). -/
theorem encodingFits : ∀ i : Instr, Laws.EncodingFits.Statement i
  | .init w => Laws.EncodingFits.init w
  | .expRd w => Laws.EncodingFits.expRd w
  | .idxRd w => Laws.EncodingFits.idxRd w
  | .mul w => Laws.EncodingFits.mul w
  | .div w => Laws.EncodingFits.div w
  | .mulz w => Laws.EncodingFits.mulz w
  | .divz w => Laws.EncodingFits.divz w
  | .rtBuild w k => Laws.EncodingFits.rtBuild w k
  | .rtRd => Laws.EncodingFits.rtRd
  | .rtRel => Laws.EncodingFits.rtRel
  | .splBuild w k => Laws.EncodingFits.splBuild w k
  | .splRd sel => Laws.EncodingFits.splRd sel
  | .splLookup => Laws.EncodingFits.splLookup
  | .splRel => Laws.EncodingFits.splRel
  | .nibBuild w k => Laws.EncodingFits.nibBuild w k
  | .nibRd sel => Laws.EncodingFits.nibRd sel
  | .nibRel => Laws.EncodingFits.nibRel
  | .vlookup l => Laws.EncodingFits.vlookup l

/-- Settles O28: the word of the command passes both checks of the decoder, and its fields are the command's. -/
theorem decodeOfEncodeIsTheCommand : Obligations.DecodeOfEncodeIsTheCommand := by
  intro i hwf
  obtain ⟨o, hop, hused⟩ := encodingFits i hwf
  obtain rfl : o = i.opcode := Option.some.inj (hop.symm.trans ((opcodeOf_eq_some_iff _ _).2 (opOf_encode i)))
  exact decode_eq_ok_iff.2 ⟨i.opcode, opOf_encode i, hused, toInstr_encode i⟩

/-- Settles O29: a word that decodes has no bit outside OP and the fields of its command. -/
theorem encodeOfDecodeIsTheWord : Obligations.EncodeOfDecodeIsTheWord := by
  intro c i h
  obtain ⟨o, hop, hused, rfl⟩ := decode_eq_ok_iff.1 h
  exact ⟨toInstr_wellFormed hused, (encode_toInstr o c).trans (opBits_or_fields hop hused)⟩

/-- Settles O30: the rows listed are the match, the mask and the command of each opcode of the table. -/
theorem opcodeTableMatchesAndMasks : Obligations.OpcodeTableMatchesAndMasks := by
  intro c w kind lane sel m k i hrow
  obtain ⟨o, -, heq⟩ : ∃ o ∈ opcodeTable, (o.opBits, o.mask, o.toInstr c) = (m, k, i) := by
    rw [← List.mem_map]
    convert hrow
    rw [show kind = kindOf c from (kindOf_eq_ite c).symm]
    rfl
  cases heq
  exact (decode_eq_ok_toInstr_iff c o).symm

/-- Settles O31: a word is illegal when the table has no row for its OP field. -/
theorem undefinedOpcodesAreTheListedOnes : Obligations.UndefinedOpcodesAreTheListedOnes := by
  intro c
  rw [decode_eq_illegal_iff, opcodeOf_eq_none_iff, opOf_eq_mod]

/-- Settles O32: closed words, decoded by the model. -/
theorem sampleWordsDecode : Obligations.SampleWordsDecode := by
  unfold Obligations.SampleWordsDecode
  decide

end Sys2Proof
end

section
/-! SUPPORT. The completion of a word that is no command (R107, R252). -/

namespace Sys2Proof.Machine

theorem runCommand_of_decode_error {s : State} {e : DecodeError} (h : decode s.lcmd = .error e) :
    runCommand s = .next (s.raise (decodeErrCode e)) := by
  simp [runCommand, h]

/-- Settles O22: the step is the completion of the word left in LCMD, which raises its error. -/
theorem undefinedWordsReportAnError : Obligations.UndefinedWordsReportAnError := by
  intro s s1 haccess hbusy hbusy1 hcompletes
  rw [step_of_completes haccess hbusy hbusy1 hcompletes]
  exact ⟨runCommand_of_decode_error (s := s1.popTurn), runCommand_of_decode_error (s := s1.popTurn)⟩

end Sys2Proof.Machine
end

section
/-! SUPPORT. The Field Table Builder: what INIT, EXP_RD and IDX_RD answer (R130, R137, R138), and that the two tables of a
built context are inverse to each other (R133). -/

namespace Sys2Proof.Machine

theorem toNat_ofNat_xpow (w : Width) (i : Nat) : (BitVec.ofNat w.bits (xpow w i)).toNat = xpow w i := by
  rw [BitVec.toNat_ofNat]
  exact Nat.mod_eq_of_lt (xpow_lt w i)

/-- Every index is a 32-bit number. -/
theorem toNat_ofNat_idxAt {w : Width} (c : FieldCtx w.bits) (v : BitVec w.bits) :
    (BitVec.ofNat 32 (c.idxAt v)).toNat = c.idxAt v := by
  have hlt : c.idxAt v < 2 ^ (w.bits + 1) := (c.idx[v.toNat]).isLt
  have hle : 2 ^ (w.bits + 1) ≤ 2 ^ 32 := by cases w <;> decide
  rw [BitVec.toNat_ofNat, Nat.mod_eq_of_lt (hlt.trans_le hle)]

section Built

variable {w : Width} {tail : Nat} {c : FieldCtx w.bits}

/-- The second copy of the powers repeats the first (R131). -/
theorem expAt_second_copy (h : buildCtx w tail = some c) {i : Nat} (hi : i < w.order - 1) :
    c.expAt (w.order - 1 + i : Nat) = c.expAt (i : Nat) := by
  rw [expAt_power h _ (by omega), expAt_power h i (by omega), Nat.add_comm, xpow_add_period]

/-- `Exp_W[Idx_W[v]] = v` for every nonzero v (R133). -/
theorem expAt_idxAt (h : buildCtx w tail = some c) {v : BitVec w.bits} (hv : v ≠ 0#w.bits) :
    c.expAt (c.idxAt v : Nat) = some v := by
  obtain ⟨hlt, hpow⟩ := idxAt_nonzero h v hv
  rw [expAt_power h _ (by omega), hpow, BitVec.ofNat_toNat, BitVec.setWidth_eq]

/-- `Idx_W[Exp_W[i]] = i` for every exponent i below N-1 (R133). -/
theorem idxAt_power (h : buildCtx w tail = some c) {i : Nat} (hi : i < w.order - 1) :
    c.idxAt (BitVec.ofNat w.bits (xpow w i)) = i :=
  idxAt_unique h _ i hi (toNat_ofNat_xpow w i).symm

end Built

/-- INIT of a context that is not built builds it: the construction never fails (R130, R134). -/
theorem exec_init_of_not_ready {s : State} {w : Width} (h : s.ready w = false) :
    ∃ c, buildCtx w s.expTail.toNat = some c ∧ exec (.init w) s = .next (s.setCtx w c).succeed := by
  refine ⟨_, buildCtx_eq w s.expTail.toNat, ?_⟩
  simp [exec, execInit, h, buildCtx_eq]

section Reads

variable {s : State} {w : Width} {c : FieldCtx w.bits}

theorem exec_expRd_of_entry {e : BitVec w.bits} (hc : s.ctx w = some c) (he : c.expAt s.lopb.toNat = some e) :
    exec (.expRd w) s = .next (s.answer (zext32 e)) := by
  simp [exec, execExpRd, hc, he]

theorem exec_expRd_of_past (hc : s.ctx w = some c) (he : c.expAt s.lopb.toNat = none) :
    exec (.expRd w) s = .next (s.raise .range) := by
  simp [exec, execExpRd, hc, he]

theorem exec_idxRd_of_lt (hc : s.ctx w = some c) (hb : s.lopb.toNat < w.order) :
    exec (.idxRd w) s = .next (s.answer (BitVec.ofNat 32 (c.idxAt (s.lopb.setWidth w.bits)))) := by
  simp [exec, execIdxRd, hc, State.elementB, element?_of_lt hb]

theorem exec_idxRd_of_le (hc : s.ctx w = some c) (hb : w.order ≤ s.lopb.toNat) :
    exec (.idxRd w) s = .next (s.raise .range) := by
  simp [exec, execIdxRd, hc, State.elementB, element?_of_le hb]

end Reads

/-- Settles O33: INIT succeeds with the context the construction gives, and each clause is a law of a built context. -/
theorem initBuildsPowersAndLogarithms : Obligations.InitBuildsPowersAndLogarithms := by
  intro w s hready
  obtain ⟨c, hbuilt, hexec⟩ := exec_init_of_not_ready hready
  refine ⟨_, c, hexec, rfl, by simp, size_exp_of_built hbuilt, fun i hi => ⟨expAt_power hbuilt i (by omega),
    expAt_second_copy hbuilt hi⟩, expAt_tail hbuilt, idxAt_zero hbuilt, idxAt_nonzero hbuilt, fun w' hw' => ?_⟩
  rw [succeed_ctx, setCtx_ctx_other _ _ _ _ hw']

/-- Settles O34: each table undoes the other, because the powers below N-1 are distinct and reach every nonzero element. -/
theorem exponentAndIndexTablesAreInverse : Obligations.ExponentAndIndexTablesAreInverse := by
  intro w s c hs hc
  have hbuilt := hs.ctxBuilt w c hc
  exact ⟨fun v hv => expAt_idxAt hbuilt hv, fun i hi => ⟨_, expAt_power hbuilt i (by omega), idxAt_power hbuilt hi⟩⟩

/-- Settles O35: by the part of the table the index lies in, which is the powers, the zero tail or past the end. -/
theorem expRdReadsThePowerTable : Obligations.ExpRdReadsThePowerTable := by
  intro w s hs hready
  obtain ⟨c, hc⟩ := ctx_eq_of_ready hready
  have hbuilt := hs.ctxBuilt w c hc
  split_ifs with hpower htail
  · refine ⟨_, exec_expRd_of_entry hc (expAt_power hbuilt _ hpower), rfl, rfl, ?_⟩
    rw [answer_result, toNat_zext32 _ (bits_le_32 w), toNat_ofNat_xpow, xpow]
  · refine ⟨_, exec_expRd_of_entry hc (expAt_tail hbuilt _ (Nat.not_lt.1 hpower) htail), rfl, rfl, ?_⟩
    simp [zext32]
  · exact ⟨_, exec_expRd_of_past hc (expAt_past hbuilt _ (Nat.not_lt.1 htail)), rfl, rfl, rfl⟩

/-- Settles O36: by the operand, which is 0, a nonzero element or no element. -/
theorem idxRdReadsTheLogarithm : Obligations.IdxRdReadsTheLogarithm := by
  intro w s hs hready
  obtain ⟨c, hc⟩ := ctx_eq_of_ready hready
  have hbuilt := hs.ctxBuilt w c hc
  split_ifs with hzero helem
  · refine ⟨_, exec_idxRd_of_lt hc (hzero ▸ order_pos w), rfl, ?_⟩
    have hb : s.lopb = 0#32 := BitVec.eq_of_toNat_eq hzero
    rw [answer_result, toNat_ofNat_idxAt, hb, BitVec.setWidth_zero, idxAt_zero hbuilt, sentinel]
  · have hne : s.lopb ≠ 0#32 := fun hb => hzero (by rw [hb]; rfl)
    obtain ⟨hlt, hpow⟩ := idxAt_nonzero hbuilt _ (setWidth_ne_zero helem hne)
    refine ⟨_, exec_idxRd_of_lt hc helem, rfl, ?_⟩
    rw [answer_result, toNat_ofNat_idxAt, ← xpow, ← toNat_setWidth_of_lt helem]
    exact ⟨hlt, hpow⟩
  · exact ⟨_, exec_idxRd_of_le hc (Nat.not_lt.1 helem), rfl, rfl⟩

end Sys2Proof.Machine
end

section
/-! SUPPORT. Scalar arithmetic: what an unchecked read of the exponent table answers in each part of the table (R16, R131), which
index each operand has (R132, R135), and with them what MUL, DIV, MULZ and DIVZ answer (R150 to R154). -/

namespace Sys2Proof.Machine

theorem StateInv.built_of_ready {s : State} {w : Width} (hs : StateInv s) (h : s.ready w = true) :
    ∃ c, s.ctx w = some c ∧ buildCtx w s.expTail.toNat = some c := by
  obtain ⟨c, hc⟩ := ctx_eq_of_ready h
  exact ⟨c, hc, hs.ctxBuilt w c hc⟩

/-! ### The unchecked read -/

section Read

variable {n : Nat} (s : State)

/-- Where the table has an entry the read answers it and leaves OOB alone. -/
theorem answerExp_of_entry {c : FieldCtx n} {i : Int} {e : BitVec n} (he : c.expAt i = some e) :
    (s.answerExp c i).oob = s.oob ∧ (s.answerExp c i).result = zext32 e := by
  simp [State.answerExp, FieldCtx.expMiss, FieldCtx.expRead, he]

/-- Where the table has no entry the read answers a draw of the table's width and sets OOB. -/
theorem answerExp_of_miss {c : FieldCtx n} {i : Int} (he : c.expAt i = none) (hn : n ≤ 32) :
    (s.answerExp c i).oob = true ∧ (s.answerExp c i).result.toNat < 2 ^ n := by
  refine ⟨by simp [State.answerExp, FieldCtx.expMiss, he], ?_⟩
  rw [State.answerExp, answer_result, toNat_zext32 _ hn]
  exact BitVec.isLt _

end Read

section BuiltRead

variable {w : Width} {tail : Nat} {c : FieldCtx w.bits} (s : State)

/-- In the doubled part the read answers a power of 2. -/
theorem answerExp_power (h : buildCtx w tail = some c) {i : Nat} (hi : i < 2 * (w.order - 1)) :
    (s.answerExp c i).oob = s.oob ∧ (s.answerExp c i).result.toNat = xpow w i := by
  obtain ⟨hoob, hres⟩ := answerExp_of_entry s (expAt_power h i hi)
  exact ⟨hoob, by rw [hres, toNat_zext32 _ (bits_le_32 w), toNat_ofNat_xpow]⟩

/-- At a place of the doubled part that holds the power 1 the read answers 1. -/
theorem answerExp_one (h : buildCtx w tail = some c) {i : Nat} (hi : i < 2 * (w.order - 1)) (hone : xpow w i = 1) :
    (s.answerExp c i).oob = s.oob ∧ (s.answerExp c i).result = 1#32 := by
  obtain ⟨hoob, hres⟩ := answerExp_power s h hi
  exact ⟨hoob, BitVec.eq_of_toNat_eq (hres.trans hone)⟩

/-- Past the doubled part the read answers 0 in the tail and a draw past the end; `P` is any way to say which of the two. -/
theorem answerExp_past_powers (h : buildCtx w tail = some c) {i : Nat} (hi : 2 * (w.order - 1) ≤ i) {P : Prop} [Decidable P]
    (hP : P ↔ i < expLen w tail) :
    if P then (s.answerExp c i).oob = s.oob ∧ (s.answerExp c i).result = 0#32
    else (s.answerExp c i).oob = true ∧ (s.answerExp c i).result.toNat < w.order := by
  split_ifs with hin
  · simpa [zext32] using answerExp_of_entry s (expAt_tail h i hi (hP.1 hin))
  · exact answerExp_of_miss s (expAt_past h i (Nat.not_lt.1 (mt hP.2 hin))) (bits_le_32 w)

end BuiltRead

/-! ### The index of an operand -/

/-- The operand register holds an element, and the index table has `i` at it. -/
structure HasIndex {w : Width} (c : FieldCtx w.bits) (v : Word) (i : Nat) : Prop where
  lt : v.toNat < w.order
  idx : c.idxAt (v.setWidth w.bits) = i

section Index

variable {w : Width} {tail : Nat} {c : FieldCtx w.bits} {v : Word} {i : Nat}

theorem HasIndex.of_power (h : buildCtx w tail = some c) (hi : i < w.order - 1) (hv : v.toNat = xpow w i) :
    HasIndex c v i := by
  have hlt : v.toNat < w.order := hv ▸ xpow_lt w i
  exact ⟨hlt, idxAt_unique h _ i hi (by rw [toNat_setWidth_of_lt hlt, hv])⟩

theorem HasIndex.of_zero (h : buildCtx w tail = some c) (hv : v = 0#32) : HasIndex c v (sentinel w) := by
  subst hv
  exact ⟨order_pos w, by rw [BitVec.setWidth_zero, idxAt_zero h]⟩

end Index

/-! ### The commands on two elements -/

section Exec

variable {w : Width} {c : FieldCtx w.bits} {s : State}

section Elements

variable (hc : s.ctx w = some c) (ha : s.lopa.toNat < w.order) (hb : s.lopb.toNat < w.order)
include hc ha hb

theorem exec_mul_of_lt :
    exec (.mul w) s = .next (s.answerExp c (c.mulIndex (s.lopa.setWidth w.bits) (s.lopb.setWidth w.bits))) :=
  congrArg Host.Outcome.next (withPair_pass hc ha hb _)

theorem exec_div_of_lt :
    exec (.div w) s = .next (s.answerExp c (c.divIndex (s.lopa.setWidth w.bits) (s.lopb.setWidth w.bits))) :=
  congrArg Host.Outcome.next (withPair_pass hc ha hb _)

theorem exec_mulz_of_lt : exec (.mulz w) s =
    .next (s.answer (zext32 (c.exactMul (s.lopa.setWidth w.bits) (s.lopb.setWidth w.bits) s.draws 0))) :=
  congrArg Host.Outcome.next (withPair_pass hc ha hb _)

theorem exec_divz_of_zero (hb0 : s.lopb = 0#32) : exec (.divz w) s = .next (s.raise .div0) := by
  simp [exec, execDivz, withPair_pass hc ha hb, hb0]

theorem exec_divz_of_ne_zero (hb0 : s.lopb ≠ 0#32) : exec (.divz w) s =
    .next (s.answer (zext32 (c.exactDiv (s.lopa.setWidth w.bits) (s.lopb.setWidth w.bits) s.draws 0))) := by
  simp [exec, execDivz, withPair_pass hc ha hb, setWidth_ne_zero hb hb0]

end Elements

variable {i j : Nat}

theorem exec_mul_of_index (hc : s.ctx w = some c) (ha : HasIndex c s.lopa i) (hb : HasIndex c s.lopb j) :
    exec (.mul w) s = .next (s.answerExp c (i + j : Nat)) := by
  rw [exec_mul_of_lt hc ha.lt hb.lt, FieldCtx.mulIndex, ha.idx, hb.idx, Nat.cast_add]

theorem exec_div_of_index (hc : s.ctx w = some c) (ha : HasIndex c s.lopa i) (hb : HasIndex c s.lopb j) :
    exec (.div w) s = .next (s.answerExp c ((i : Int) - j + (w.order - 1 : Nat))) := by
  rw [exec_div_of_lt hc ha.lt hb.lt, FieldCtx.divIndex, ha.idx, hb.idx, Width.order]

end Exec

/-! ### Nonzero operands -/

section Nonzero

variable {w : Width} {tail : Nat} {c : FieldCtx w.bits} {s : State}
  (hc : s.ctx w = some c) (hbuilt : buildCtx w tail = some c)
  (ha : s.lopa.toNat < w.order) (hb : s.lopb.toNat < w.order) (ha0 : s.lopa ≠ 0#32) (hb0 : s.lopb ≠ 0#32)
include hc hbuilt ha hb ha0 hb0

theorem exec_mul_nonzero : ∃ t, exec (.mul w) s = .next t ∧ t.errcode = .success ∧ t.oob = s.oob ∧
    t.result.toNat = gfmul w s.lopa.toNat s.lopb.toNat := by
  obtain ⟨hoob, hres⟩ :=
    answerExp_of_entry s (expAt_mulIndex hbuilt _ _ (setWidth_ne_zero ha ha0) (setWidth_ne_zero hb hb0))
  refine ⟨_, exec_mul_of_lt hc ha hb, rfl, hoob, ?_⟩
  rw [hres, toNat_zext32 _ (bits_le_32 w), toNat_setWidth_of_lt ha, toNat_setWidth_of_lt hb, BitVec.toNat_ofNat]
  exact Nat.mod_eq_of_lt (gfmul_lt w _ _ ha)

theorem exec_div_nonzero : ∃ t, exec (.div w) s = .next t ∧ t.errcode = .success ∧ t.oob = s.oob ∧
    isGfdiv w s.lopa.toNat s.lopb.toNat t.result.toNat := by
  obtain ⟨q, hentry, hquot⟩ := expAt_divIndex hbuilt _ _ (setWidth_ne_zero ha ha0) (setWidth_ne_zero hb hb0)
  obtain ⟨hoob, hres⟩ := answerExp_of_entry s hentry
  refine ⟨_, exec_div_of_lt hc ha hb, rfl, hoob, ?_⟩
  rwa [toNat_setWidth_of_lt ha, toNat_setWidth_of_lt hb, ← toNat_zext32 q (bits_le_32 w), ← hres] at hquot

end Nonzero

/-- Settles O37: both indices are exponents, so the read lies in the doubled part and exponents add. -/
theorem mulOfNonzeroIsTheFieldProduct : Obligations.MulOfNonzeroIsTheFieldProduct := by
  intro w s hs hready ha hb ha0 hb0
  obtain ⟨c, hc, hbuilt⟩ := hs.built_of_ready hready
  exact exec_mul_nonzero hc hbuilt ha hb ha0 hb0

/-- Settles O39: the indices differ by less than N-1, so the read lies in the doubled part and exponents subtract. -/
theorem divOfNonzeroIsTheFieldQuotient : Obligations.DivOfNonzeroIsTheFieldQuotient := by
  intro w s hs hready ha hb ha0 hb0
  obtain ⟨c, hc, hbuilt⟩ := hs.built_of_ready hready
  exact exec_div_nonzero hc hbuilt ha hb ha0 hb0

/-! ### Zero operands -/

/-- Settles O38: the index of 0 is the sentinel 2N-3, the last of the doubled part, so the index i of the other operand says
how far past it the read goes. -/
theorem mulWithAZeroOperand : Obligations.MulWithAZeroOperand := by
  intro w s hs hready
  obtain ⟨c, hc, hbuilt⟩ := hs.built_of_ready hready
  have hN := one_lt_order w
  refine ⟨fun i hi hops => ?_, fun ha hb => ?_⟩
  · have hexec : exec (.mul w) s = .next (s.answerExp c (i + sentinel w : Nat)) := by
      obtain ⟨hzero, hpower⟩ | ⟨hzero, hpower⟩ := hops
      · rw [Nat.add_comm, exec_mul_of_index hc (.of_zero hbuilt hzero) (.of_power hbuilt hi hpower)]
      · rw [exec_mul_of_index hc (.of_power hbuilt hi hpower) (.of_zero hbuilt hzero)]
    refine ⟨_, hexec, rfl, ?_⟩
    by_cases h0 : i = 0
    · have hlast : i + sentinel w = w.order - 2 + (w.order - 1) := by unfold sentinel; omega
      rw [if_pos h0, hlast, ← xpow, ← xpow_add_period]
      exact answerExp_power s hbuilt (by omega)
    · rw [if_neg h0]
      exact answerExp_past_powers s hbuilt (by unfold sentinel; omega) (by unfold sentinel expLen; omega)
  · exact ⟨_, exec_mul_of_index hc (.of_zero hbuilt ha) (.of_zero hbuilt hb), rfl,
      answerExp_past_powers s hbuilt (by unfold sentinel; omega) (by unfold sentinel expLen; omega)⟩

/-- Settles O40: the sentinel as the dividend's index puts the read past the doubled part, as the divisor's index at 0 or below,
and as both at N-1. -/
theorem divWithAZeroOperand : Obligations.DivWithAZeroOperand := by
  intro w s hs hready
  obtain ⟨c, hc, hbuilt⟩ := hs.built_of_ready hready
  have hN := one_lt_order w
  refine ⟨fun i hi ha hb => ?_, fun i hi hb ha => ?_, fun ha hb => ?_⟩
  · have hindex : (sentinel w : Int) - i + (w.order - 1 : Nat) = (sentinel w + (w.order - 1) - i : Nat) := by
      unfold sentinel; omega
    refine ⟨_, exec_div_of_index hc (.of_zero hbuilt ha) (.of_power hbuilt hi hb), rfl, ?_⟩
    rw [hindex]
    exact answerExp_past_powers s hbuilt (by unfold sentinel; omega) (by unfold sentinel expLen; omega)
  · refine ⟨_, exec_div_of_index hc (.of_power hbuilt hi ha) (.of_zero hbuilt hb), rfl, ?_⟩
    split_ifs with hlast
    · have hindex : (i : Int) - sentinel w + (w.order - 1 : Nat) = (0 : Nat) := by unfold sentinel; omega
      rw [hindex]
      exact answerExp_one s hbuilt (by omega) rfl
    · have hneg : (i : Int) - sentinel w + (w.order - 1 : Nat) < 0 := by unfold sentinel; omega
      exact answerExp_of_miss s (expAt_neg c _ hneg) (bits_le_32 w)
  · refine ⟨_, exec_div_of_index hc (.of_zero hbuilt ha) (.of_zero hbuilt hb), rfl, ?_⟩
    rw [sub_self, zero_add]
    exact answerExp_one s hbuilt (by omega) (period w)

/-! ### The checked path -/

/-- Settles O41: the checked product of a built context is the field product of every pair. -/
theorem mulzIsTheFieldProduct : Obligations.MulzIsTheFieldProduct := by
  intro w s hs hready ha hb
  obtain ⟨c, hc, hbuilt⟩ := hs.built_of_ready hready
  refine ⟨_, exec_mulz_of_lt hc ha hb, rfl, rfl, ?_⟩
  rw [answer_result, toNat_zext32 _ (bits_le_32 w), exactMul_built hbuilt, toNat_setWidth_of_lt ha, toNat_setWidth_of_lt hb]

/-- Settles O42: by the divisor; for a nonzero one the checked quotient of a built context is the field quotient. -/
theorem divzIsTheFieldQuotient : Obligations.DivzIsTheFieldQuotient := by
  intro w s hs hready ha hb
  obtain ⟨c, hc, hbuilt⟩ := hs.built_of_ready hready
  split_ifs with hb0
  · exact ⟨_, exec_divz_of_zero hc ha hb hb0, rfl, rfl, rfl⟩
  · refine ⟨_, exec_divz_of_ne_zero hc ha hb hb0, rfl, rfl, ?_⟩
    rw [answer_result, toNat_zext32 _ (bits_le_32 w), ← toNat_setWidth_of_lt ha, ← toNat_setWidth_of_lt hb]
    exact exactDiv_built hbuilt _ _ (setWidth_ne_zero hb hb0) _ _

/-! ### Division undoes multiplication -/

theorem gfmul_ne_zero {w : Width} {a b : Nat} (ha : a < w.order) (hb : b < w.order) (ha0 : a ≠ 0) (hb0 : b ≠ 0) :
    gfmul w a b ≠ 0 := fun h =>
  hb0 (gfmul_cancel w a b 0 ha ha0 hb (order_pos w) (by rw [h, gfmul_zero_right w a ha]))

/-- The quotient of a product by its second factor is the first (R19). -/
theorem eq_of_isGfdiv_gfmul {w : Width} {a b q : Nat} (ha : a < w.order) (hb : b < w.order)
    (h : isGfdiv w (gfmul w a b) b q) : q = a := by
  obtain ⟨hb0, hq, hprod⟩ := h
  exact gfmul_cancel w b q a hb hb0 hq ha (hprod.trans (gfmul_comm w a b ha hb))

/-- DIV of a product by its second factor answers the first. -/
theorem exec_div_of_product {w : Width} {tail : Nat} {c : FieldCtx w.bits} {s : State} {x : Word}
    (hc : s.ctx w = some c) (hbuilt : buildCtx w tail = some c) (hx : x.toNat < w.order) (hb : s.lopb.toNat < w.order)
    (hx0 : x ≠ 0#32) (hb0 : s.lopb ≠ 0#32) (hprod : s.lopa.toNat = gfmul w x.toNat s.lopb.toNat) :
    ∃ t, exec (.div w) s = .next t ∧ t.result = x := by
  have ha : s.lopa.toNat < w.order := hprod ▸ gfmul_lt w _ _ hx
  have ha0 : s.lopa ≠ 0#32 := fun h =>
    gfmul_ne_zero hx hb (toNat_ne_zero hx0) (toNat_ne_zero hb0) (by rw [← hprod, h]; rfl)
  obtain ⟨t, hexec, -, -, hquot⟩ := exec_div_nonzero hc hbuilt ha hb ha0 hb0
  rw [hprod] at hquot
  exact ⟨t, hexec, BitVec.eq_of_toNat_eq (eq_of_isGfdiv_gfmul hx hb hquot)⟩

/-- Settles O43: the product is a product by either factor, and the quotient is unique. -/
theorem divisionUndoesMultiplication : Obligations.DivisionUndoesMultiplication := by
  intro w s hs hready ha hb ha0 hb0
  obtain ⟨c, hc, hbuilt⟩ := hs.built_of_ready hready
  obtain ⟨t, hmul, -, -, hprod⟩ := exec_mul_nonzero hc hbuilt ha hb ha0 hb0
  obtain ⟨u, hdivb, hu⟩ := exec_div_of_product (s := { s with lopa := t.result })
    ((ctx_congr rfl rfl w).trans hc) hbuilt ha hb ha0 hb0 hprod
  obtain ⟨v, hdiva, hv⟩ := exec_div_of_product (s := { s with lopa := t.result, lopb := s.lopa })
    ((ctx_congr rfl rfl w).trans hc) hbuilt hb ha hb0 ha0 (hprod.trans (gfmul_comm w _ _ ha hb))
  exact ⟨t, u, v, hmul, hdivb, hu, hdiva, hv⟩

end Sys2Proof.Machine
end

section
/-! SUPPORT. The full region tables: what RT_BUILD leaves in an empty slot, entry by entry (R170, R171, R173), that the scalar
command of an entry reads the exponent table at the entry's own index (R171, R172), and what RT_RD and the releases answer
(R174, R175, R195, R214). -/

namespace Sys2Proof.Machine

/-! ### Entries -/

theorem toNat_ofNat_operand {w : Width} (x : Fin w.order) : (BitVec.ofNat 32 x.val).toNat = x.val := by
  rw [BitVec.toNat_ofNat]
  exact Nat.mod_eq_of_lt (x.isLt.trans_le (Nat.pow_le_pow_right (by decide) (bits_le_32 w)))

theorem ofNat_operand_lt {w : Width} (x : Fin w.order) : (BitVec.ofNat 32 x.val).toNat < w.order :=
  (toNat_ofNat_operand x).trans_lt x.isLt

/-- The operand number x, written into a register and read back as an element, is `operandOf w x`. -/
theorem setWidth_ofNat_operand {w : Width} (x : Fin w.order) :
    (BitVec.ofNat 32 x.val).setWidth w.bits = operandOf w x :=
  BitVec.eq_of_toNat_eq ((toNat_setWidth_of_lt (ofNat_operand_lt x)).trans (toNat_ofNat_operand x))

theorem operandOf_ne_zero {w : Width} {x : Fin w.order} (hx : x.val ≠ 0) : operandOf w x ≠ 0#w.bits := fun h =>
  hx (congrArg BitVec.toNat h)

/-- An element, stored as a 16-bit entry, keeps its number. -/
theorem toNat_setWidth16 {w : Width} (e : BitVec w.bits) : (e.setWidth 16).toNat = e.toNat := by
  have hle : w.bits ≤ 16 := by cases w <;> decide
  rw [BitVec.toNat_setWidth]
  exact Nat.mod_eq_of_lt (e.isLt.trans_le (Nat.pow_le_pow_right (by decide) hle))

section Table

variable {w : Width} (c : FieldCtx w.bits) (k : Kind) (a : BitVec w.bits) (n : Nat)

/-- Each entry is the read at its index (R171). -/
theorem getElem?_fullTable (x : Fin w.order) : (fullTable w c k a n).entries[x.val]? =
    some ((c.expRead (c.entryIndex k a (operandOf w x)) n x.val).setWidth 16) :=
  getElem?_tabulate w.order _ x.val x.isLt

theorem getElem?_fullTable_of_entry {x : Fin w.order} {e : BitVec w.bits}
    (he : c.expAt (c.entryIndex k a (operandOf w x)) = some e) :
    (fullTable w c k a n).entries[x.val]? = some (e.setWidth 16) := by
  rw [getElem?_fullTable, FieldCtx.expRead, he, Option.getD_some]

theorem fullTableMiss_iff :
    fullTableMiss w c k a = true ↔ ∃ x : Fin w.order, c.expMiss (c.entryIndex k a (operandOf w x)) = true := by
  simp [fullTableMiss]

end Table

/-- For nonzero operands the entry's index holds the exact result of the kind (R20, R171). -/
theorem expAt_entryIndex {w : Width} {tail : Nat} {c : FieldCtx w.bits} (h : buildCtx w tail = some c) (k : Kind)
    {a x : BitVec w.bits} (ha : a ≠ 0#w.bits) (hx : x ≠ 0#w.bits) :
    ∃ e, c.expAt (c.entryIndex k a x) = some e ∧ KindResult w k a.toNat x.toNat e.toNat := by
  cases k with
  | mul =>
    refine ⟨_, expAt_mulIndex h a x ha hx, ?_⟩
    rw [KindResult, BitVec.toNat_ofNat]
    exact Nat.mod_eq_of_lt (gfmul_lt w _ _ a.isLt)
  | divAByX => exact expAt_divIndex h a x ha hx
  | divXByA => exact expAt_divIndex h x a hx ha

/-! ### RT_BUILD and the scalar command of an entry -/

section Build

variable {w : Width} {c : FieldCtx w.bits} {s : State} (hc : s.ctx w = some c) (ha : s.lopa.toNat < w.order) (k : Kind)
include hc ha

theorem exec_rtBuild_of_empty (hrt : s.rt = none) : exec (.rtBuild w (some k)) s =
    .next { s.noteOob (fullTableMiss w c k (s.lopa.setWidth w.bits)) with
      rt := some (fullTable w c k (s.lopa.setWidth w.bits) s.draws) }.succeed := by
  simp [exec, execRtBuild, hc, hrt, State.elementA, element?_of_lt ha]

/-- The scalar command of an entry is an unchecked read at the entry's index, from a state with OOB clear. -/
theorem entryCommand_reads_entryIndex (x : Fin w.order) : ∃ s0 : State, s0.oob = false ∧
    entryCommand w k (BitVec.ofNat 32 x.val) s =
      .next (s0.answerExp c (c.entryIndex k (s.lopa.setWidth w.bits) (operandOf w x))) := by
  rw [← setWidth_ofNat_operand]
  cases k with
  | mul => exact ⟨_, rfl, exec_mul_of_lt ((ctx_congr rfl rfl w).trans hc) ha (ofNat_operand_lt x)⟩
  | divAByX => exact ⟨_, rfl, exec_div_of_lt ((ctx_congr rfl rfl w).trans hc) ha (ofNat_operand_lt x)⟩
  | divXByA => exact ⟨_, rfl, exec_div_of_lt ((ctx_congr rfl rfl w).trans hc) (ofNat_operand_lt x) ha⟩

/-- The scalar command of an entry sets OOB where the entry's read is out of range, and answers the entry where it is not. -/
theorem entryCommand_answers_entry (n : Nat) (x : Fin w.order) :
    ∃ u y, entryCommand w k (BitVec.ofNat 32 x.val) s = .next u ∧
      u.oob = c.expMiss (c.entryIndex k (s.lopa.setWidth w.bits) (operandOf w x)) ∧
      (fullTable w c k (s.lopa.setWidth w.bits) n).entries[x.val]? = some y ∧
      (u.oob = false → u.result = y.setWidth 32) := by
  obtain ⟨s0, hclear, hexec⟩ := entryCommand_reads_entryIndex hc ha k x
  cases he : c.expAt (c.entryIndex k (s.lopa.setWidth w.bits) (operandOf w x)) with
  | none =>
    obtain ⟨hoob, -⟩ := answerExp_of_miss s0 he (bits_le_32 w)
    exact ⟨_, _, hexec, by rw [hoob, FieldCtx.expMiss, he]; rfl, getElem?_fullTable c k _ n x,
      fun h => absurd (hoob.symm.trans h) (by decide)⟩
  | some e =>
    obtain ⟨hoob, hres⟩ := answerExp_of_entry s0 he
    refine ⟨_, _, hexec, by rw [hoob, hclear, FieldCtx.expMiss, he]; rfl, getElem?_fullTable_of_entry c k _ n he, fun _ => ?_⟩
    apply BitVec.eq_of_toNat_eq
    rw [hres, toNat_zext32 e (bits_le_32 w), ← zext32, toNat_zext32 _ (by decide), toNat_setWidth16]

end Build

/-- Settles O44: for nonzero operands each entry's index lies in the doubled part of the exponent table, at the exact result. -/
theorem fullTableHoldsExactResults : Obligations.FullTableHoldsExactResults := by
  intro w k s hs hready hrt ha
  obtain ⟨c, hc, hbuilt⟩ := hs.built_of_ready hready
  refine ⟨_, _, exec_rtBuild_of_empty hc ha k hrt, rfl, rfl, rfl, rfl, ?_, fun ha0 x hx hx0 => ?_⟩
  · exact (toNat_setWidth16 _).trans (toNat_setWidth_of_lt ha)
  · obtain ⟨e, he, hexact⟩ :=
      expAt_entryIndex hbuilt k (setWidth_ne_zero ha ha0) (operandOf_ne_zero (x := ⟨x, hx⟩) hx0)
    refine ⟨_, getElem?_fullTable_of_entry c k _ s.draws he, ?_⟩
    rwa [toNat_setWidth16, ← toNat_setWidth_of_lt ha]

/-- Settles O45: the entry and its scalar command read the exponent table at one and the same index, so they agree where it has
an entry, and OOB is set by both where it has none. -/
theorem fullTableAgreesWithTheFastPath : Obligations.FullTableAgreesWithTheFastPath := by
  intro w k s _ hready hrt ha
  obtain ⟨c, hc⟩ := ctx_eq_of_ready hready
  have hentry := entryCommand_answers_entry hc ha k s.draws
  refine ⟨_, _, exec_rtBuild_of_empty hc ha k hrt, rfl, fun x hx => ?_, ?_⟩
  · obtain ⟨u, y, hexec, -, hy, hagree⟩ := hentry ⟨x, hx⟩
    exact ⟨u, y, hexec, hy, hagree⟩
  · rw [succeed_oob, noteOob_oob, Bool.or_eq_true, fullTableMiss_iff]
    refine or_congr_right ⟨fun ⟨x, hmiss⟩ => ?_, fun ⟨x, u, hx, hexec, hoob⟩ => ⟨⟨x, hx⟩, ?_⟩⟩
    · obtain ⟨u, -, hexec, hoob, -⟩ := hentry x
      exact ⟨x, u, x.isLt, hexec, hoob.trans hmiss⟩
    · obtain ⟨u', -, hexec', hoob', -⟩ := hentry ⟨x, hx⟩
      cases hexec.symm.trans hexec'
      exact hoob'.symm.trans hoob

/-! ### RT_RD -/

theorem exec_rtRd_of_lt {s : State} {ft : FullTable} (hrt : s.rt = some ft) (hx : s.lopb.toNat < ft.width.order) :
    exec .rtRd s = .next (s.answer (zext32 ft.entries[s.lopb.toNat])) := by
  simp [exec, execRtRd, hrt, indexBelow_of_lt hx]

/-- Settles O46: an operand below N names an entry of the held table. -/
theorem rtRdReadsTheEntry : Obligations.RtRdReadsTheEntry := fun _ _ hrt hx =>
  ⟨_, _, exec_rtRd_of_lt hrt hx, rfl, Vector.getElem?_eq_getElem hx, toNat_zext32 _ (by decide)⟩

/-! ### The releases -/

section Release

variable {s : State}

theorem exec_rtRel_of_held (h : s.rt.isSome = true) : exec .rtRel s = .next { s with rt := none }.succeed := by
  obtain ⟨ft, hrt⟩ := Option.isSome_iff_exists.1 h
  simp [exec, execRtRel, hrt]

theorem exec_rtRel_of_empty (h : s.rt = none) : exec .rtRel s = .next (s.raise .noTable) := by
  simp [exec, execRtRel, h]

theorem exec_splRel_of_held (h : s.spl.isSome = true) : exec .splRel s = .next { s with spl := none }.succeed := by
  obtain ⟨sp, hspl⟩ := Option.isSome_iff_exists.1 h
  simp [exec, execSplRel, hspl]

theorem exec_splRel_of_empty (h : s.spl = none) : exec .splRel s = .next (s.raise .noTable) := by
  simp [exec, execSplRel, h]

theorem exec_nibRel_of_held (h : s.nib.isSome = true) : exec .nibRel s = .next { s with nib := none }.succeed := by
  obtain ⟨nb, hnib⟩ := Option.isSome_iff_exists.1 h
  simp [exec, execNibRel, hnib]

theorem exec_nibRel_of_empty (h : s.nib = none) : exec .nibRel s = .next (s.raise .noTable) := by
  simp [exec, execNibRel, h]

end Release

/-- Settles O47: for each tier the release of a held slot, then the release of the slot it has emptied. -/
theorem releaseEmptiesTheSlot : Obligations.ReleaseEmptiesTheSlot := fun _ =>
  ⟨fun h => ⟨_, _, exec_rtRel_of_held h, rfl, rfl, rfl, rfl, exec_rtRel_of_empty rfl, rfl⟩,
    fun h => ⟨_, _, exec_splRel_of_held h, rfl, rfl, rfl, rfl, exec_splRel_of_empty rfl, rfl⟩,
    fun h => ⟨_, _, exec_nibRel_of_held h, rfl, rfl, rfl, rfl, exec_nibRel_of_empty rfl, rfl⟩⟩

end Sys2Proof.Machine
end

section
/-! SUPPORT. The split region tables: the exact result of a linear kind is what the exact entry function gives and is linear over
XOR in the operand (R191, R192), so the two tables that SPL_BUILD leaves in an empty slot combine to the exact result of every
16-bit operand (R190, R194); and what SPL_RD and SPL_LOOKUP answer (R193, R194). -/

namespace Sys2Proof.Machine

/-! ### The exact result of a linear kind -/

theorem eq_divXByA_iff_of_linear {k : Kind} {lk : LinKind} (h : k.linear? = some lk) : k = .divXByA ↔ lk = .divXByA := by
  cases k with
  | mul | divXByA => cases h; decide
  | divAByX => cases h

/-- The exact result is linear over XOR in the operand, which is why a linear kind can be split (R192). -/
theorem linResult_xor {k : LinKind} {a x x' y y' : Nat} (ha : a < Width.order .w16) (hx : x < Width.order .w16)
    (hx' : x' < Width.order .w16) (h : LinResult k a x y) (h' : LinResult k a x' y') :
    LinResult k a (x ^^^ x') (y ^^^ y') := by
  cases k with
  | mul =>
    subst h h'
    exact (gfmul_xor .w16 a x x' ha hx hx').symm
  | divXByA =>
    obtain ⟨ha0, hy, rfl⟩ := h
    obtain ⟨-, hy', rfl⟩ := h'
    exact ⟨ha0, xor_lt_order .w16 y y' hy hy', gfmul_xor .w16 a y y' ha hy hy'⟩

/-- The exact entry function of a built context gives the exact result (R191). -/
theorem linResult_exactEntry {tail : Nat} {c : FieldCtx 16} (h : buildCtx .w16 tail = some c) {k : LinKind} {a : BitVec 16}
    (hk : k = .divXByA → a ≠ 0#16) (x : BitVec 16) (n : Nat) :
    LinResult k a.toNat x.toNat (c.exactEntry k a x n).toNat := by
  cases k with
  | mul => exact exactMul_built (w := .w16) h a x n _
  | divXByA => exact exactDiv_built (w := .w16) h x a (hk rfl) n _

/-! ### The tables -/

/-- A 16-bit operand is the XOR of its high byte, in place, and its low byte (R194). -/
theorem highByte_xor_lowByte (x : BitVec 16) :
    (x.extractLsb' 8 8).toNat * 256 ^^^ (x.extractLsb' 0 8).toNat = x.toNat := by
  refine Nat.eq_of_testBit_eq fun i => ?_
  rw [Nat.testBit_xor, Nat.testBit_mul_two_pow (i := 8)]
  simp only [BitVec.testBit_toNat, BitVec.getLsbD_extractLsb']
  obtain hlow | hhigh := lt_or_ge i 8
  · simp [hlow, hlow.not_ge]
  · have htop : x.getLsbD i = true → i - 8 < 8 := fun hbit => by
      have := BitVec.lt_of_getLsbD hbit
      omega
    simpa [hhigh, hhigh.not_gt] using htop

section Table

variable {tail : Nat} {c : FieldCtx 16} (h : buildCtx .w16 tail = some c) {k : LinKind} {a : BitVec 16}
  (hk : k = .divXByA → a ≠ 0#16) (n : Nat)
include h hk

theorem splitTable_lo_exact {v : Nat} (hv : v < 256) : LinResult k a.toNat v ((splitTable c k a n).lo[v]).toNat := by
  have hval : (BitVec.ofNat 16 v).toNat = v := Nat.mod_eq_of_lt (by omega)
  simpa [splitTable, hval] using linResult_exactEntry h hk (BitVec.ofNat 16 v) n

theorem splitTable_hi_exact {v : Nat} (hv : v < 256) :
    LinResult k a.toNat (v * 256) ((splitTable c k a n).hi[v]).toNat := by
  have hval : (BitVec.ofNat 16 (v <<< 8)).toNat = v * 256 := by
    rw [Nat.shiftLeft_eq]
    exact Nat.mod_eq_of_lt (by omega)
  simpa [splitTable, hval] using linResult_exactEntry h hk (BitVec.ofNat 16 (v <<< 8)) n

/-- The combined lookup is exact for every operand (R194). -/
theorem splitTable_lookup_exact (x : BitVec 16) : LinResult k a.toNat x.toNat ((splitTable c k a n).lookup x).toNat := by
  have hhi : (x.extractLsb' 8 8).toNat < 256 := BitVec.isLt _
  have hlo : (x.extractLsb' 0 8).toNat < 256 := BitVec.isLt _
  rw [← highByte_xor_lowByte x, SplitTable.lookup, BitVec.toNat_xor]
  exact linResult_xor a.isLt (by change _ < 65536; omega) (hlo.trans (by decide))
    (splitTable_hi_exact h hk n hhi) (splitTable_lo_exact h hk n hlo)

end Table

/-! ### SPL_BUILD, SPL_RD and SPL_LOOKUP -/

theorem toNat_setWidth16_of_lt {v : Word} (h : v.toNat < 65536) : (v.setWidth 16).toNat = v.toNat :=
  toNat_setWidth_of_lt (w := .w16) h

theorem exec_splBuild_of_empty {k : Kind} {lk : LinKind} {c : FieldCtx 16} {s : State} (hk : k.linear? = some lk)
    (hc : s.ctx16 = some c) (hspl : s.spl = none) (ha : s.lopa.toNat < 65536) (h0 : ¬(lk = .divXByA ∧ s.lopa = 0#32)) :
    exec (.splBuild .w16 (some k)) s =
      .next { s with spl := some (splitTable c lk (s.lopa.setWidth 16) s.draws) }.succeed := by
  rw [exec, execSplBuild, hspl, Option.isSome_none, withLinear_pass hk hc ha h0]

section Held

variable {s : State} {sp : SplitTable} (hspl : s.spl = some sp)
include hspl

/-- With a well-formed SEL, bit 0 of the field picks the table. -/
theorem exec_splRd_of_lt {sel : BitVec 4} (hsel : sel &&& 0b1110#4 = 0#4) (hv : s.lopb.toNat < 256) :
    exec (.splRd sel) s =
      .next (s.answer (zext32 (if sel.getLsbD 0 then sp.hi[s.lopb.toNat] else sp.lo[s.lopb.toNat]))) := by
  simp [exec, execSplRd, hsel, hspl, indexBelow_of_lt hv]

theorem exec_splLookup_of_lt (hx : s.lopb.toNat < 65536) :
    exec .splLookup s = .next (s.answer (zext32 (sp.lookup (s.lopb.setWidth 16)))) := by
  simp [exec, execSplLookup, hspl, elementB16_of_lt hx]

end Held

/-- Settles O48: the checks of SPL_BUILD pass, and each entry it makes is the exact entry function at its byte. -/
theorem splitTablesHoldExactResults : Obligations.SplitTablesHoldExactResults := by
  intro k lk s hs hk hready hspl ha h0
  obtain ⟨c, hc, hbuilt⟩ := hs.built_of_ready hready
  have h0' : ¬(lk = .divXByA ∧ s.lopa = 0#32) := fun ⟨hlk, hzero⟩ => h0 ⟨(eq_divXByA_iff_of_linear hk).2 hlk, hzero⟩
  have hcoef : (s.lopa.setWidth 16).toNat = s.lopa.toNat := toNat_setWidth16_of_lt ha
  have hdiv : lk = .divXByA → s.lopa.setWidth 16 ≠ 0#16 := fun hlk hzero =>
    h0' ⟨hlk, (setWidth16_eq_zero ha).1 hzero⟩
  refine ⟨_, _, exec_splBuild_of_empty hk hc hspl ha h0', rfl, rfl, rfl, rfl, hcoef, fun v hv => ?_⟩
  rw [← hcoef]
  exact ⟨_, _, Vector.getElem?_eq_getElem hv, Vector.getElem?_eq_getElem hv,
    splitTable_lo_exact hbuilt hdiv s.draws hv, splitTable_hi_exact hbuilt hdiv s.draws hv⟩

/-- Settles O49: an operand below 256 names an entry of the table that bit 0 of SEL, which is bit 12 of the word, picks. -/
theorem splRdReadsTheChosenTable : Obligations.SplRdReadsTheChosenTable := fun _ _ hspl hv =>
  ⟨⟨_, _, exec_splRd_of_lt hspl (by decide) hv, rfl, Vector.getElem?_eq_getElem hv, toNat_zext32 _ (by decide)⟩,
    ⟨_, _, exec_splRd_of_lt hspl (by decide) hv, rfl, Vector.getElem?_eq_getElem hv, toNat_zext32 _ (by decide)⟩⟩

/-- Settles O50: by the invariant the held tables are those of a built context, whose combined lookup is exact. -/
theorem splitLookupIsExact : Obligations.SplitLookupIsExact := by
  intro s sp hs hspl hx
  obtain ⟨c, n, hc, hdiv, hsp⟩ := hs.splBuilt sp hspl
  refine ⟨_, exec_splLookup_of_lt hspl hx, rfl, ?_⟩
  rw [answer_result, toNat_zext32 _ (by decide), ← toNat_setWidth16_of_lt hx]
  have hexact := splitTable_lookup_exact (hs.ctxBuilt .w16 c hc) hdiv n (s.lopb.setWidth 16)
  rwa [← hsp] at hexact

end Sys2Proof.Machine
end

section
/-! SUPPORT. The nibble region tables: an operand is the XOR of its four nibbles, each in its place, and each table entry is a
byte of the exact entry function at one nibble in its place (R211), so the tables that NIB_BUILD leaves in an empty slot combine
to the exact result of every 16-bit operand (R210, R212); and what NIB_RD answers (R213). -/

namespace Sys2Proof.Machine

/-! ### The nibbles of an operand -/

/-- XOR joins the four bits from bit i on, in place, to the bits below them. -/
theorem nibble_xor_mod (x : BitVec 16) (i : Nat) :
    (x.extractLsb' i 4).toNat * 2 ^ i ^^^ x.toNat % 2 ^ i = x.toNat % 2 ^ (i + 4) := by
  refine Nat.eq_of_testBit_eq fun j => ?_
  simp only [Nat.testBit_xor, Nat.testBit_mul_two_pow, Nat.testBit_mod_two_pow, BitVec.testBit_toNat,
    BitVec.getLsbD_extractLsb']
  obtain hlow | hhigh := lt_or_ge j i
  · simp [hlow, hlow.not_ge, Nat.lt_add_right 4 hlow]
  · have hnibble : j - i < 4 ↔ j < i + 4 := by omega
    simp [hhigh, hhigh.not_gt, hnibble]

/-- The bits of nibble p of an operand, in place (R212). -/
def nibbleInPlace (x : BitVec 16) (p : Nat) : Nat := (x.extractLsb' (4 * p) 4).toNat * 2 ^ (4 * p)

/-- A 16-bit operand is the XOR of its four nibbles, in place (R212). -/
theorem nibbles_xor (x : BitVec 16) :
    nibbleInPlace x 0 ^^^ nibbleInPlace x 1 ^^^ nibbleInPlace x 2 ^^^ nibbleInPlace x 3 = x.toNat := by
  have h0 : nibbleInPlace x 0 = x.toNat % 2 ^ 4 := by simp [nibbleInPlace]
  calc
    _ = nibbleInPlace x 3 ^^^ (nibbleInPlace x 2 ^^^ (nibbleInPlace x 1 ^^^ x.toNat % 2 ^ 4)) := by
      rw [h0]; ac_rfl
    _ = x.toNat % 2 ^ 16 := by
      rw [nibbleInPlace, nibbleInPlace, nibbleInPlace, nibble_xor_mod x 4, nibble_xor_mod x 8, nibble_xor_mod x 12]
    _ = x.toNat := Nat.mod_eq_of_lt x.isLt

theorem mul_nibble_lt_order {p m : Nat} (hp : p < 4) (hm : m < 16) : m * 2 ^ (4 * p) < Width.order .w16 := by
  calc
    m * 2 ^ (4 * p) < 2 ^ 4 * 2 ^ (4 * p) := Nat.mul_lt_mul_of_pos_right hm (Nat.two_pow_pos _)
    _ = 2 ^ (4 + 4 * p) := (Nat.pow_add ..).symm
    _ ≤ 2 ^ 16 := Nat.pow_le_pow_right (by decide) (by omega)

/-! ### The tables -/

/-- The exact entry function at the nibble m in position p, whose two bytes NIB_BUILD writes (R211). -/
def nibbleResult (c : FieldCtx 16) (k : LinKind) (a : BitVec 16) (draw p m : Nat) : BitVec 16 :=
  c.exactEntry k a (BitVec.ofNat 16 (m <<< (4 * p))) draw

section Entry

variable (c : FieldCtx 16) (k : LinKind) (a : BitVec 16) (draw : Nat)

theorem nibbleEntry_even (p m : Nat) :
    nibbleEntry c k a draw (2 * p) m = (nibbleResult c k a draw p m).extractLsb' 0 8 := by
  simp [nibbleEntry, nibbleResult]

theorem nibbleEntry_odd (p m : Nat) :
    nibbleEntry c k a draw (2 * p + 1) m = (nibbleResult c k a draw p m).extractLsb' 8 8 := by
  have hdiv : (2 * p + 1) / 2 = p := by omega
  have hmod : (2 * p + 1) % 2 = 1 := by omega
  simp [nibbleEntry, nibbleResult, hdiv, hmod]

theorem nibbleTable_nt {t m : Nat} (ht : t < 8) (hm : m < 16) :
    (nibbleTable c k a draw).nt[t][m] = nibbleEntry c k a draw t m := by
  simp [nibbleTable]

theorem nibbleTable_gather (t : Fin 8) (m : BitVec 4) :
    (nibbleTable c k a draw).gather t m = nibbleEntry c k a draw t m.toNat :=
  nibbleTable_nt c k a draw t.isLt m.isLt

end Entry

/-- The low byte of the combined lookup is the XOR of the four gathers from the even tables (R231). -/
theorem NibTable.lookup_lowByte (nb : NibTable) (x : BitVec 16) :
    (nb.lookup x).extractLsb' 0 8 = nb.gather 0 (x.extractLsb' 0 4) ^^^ nb.gather 2 (x.extractLsb' 4 4) ^^^
      nb.gather 4 (x.extractLsb' 8 4) ^^^ nb.gather 6 (x.extractLsb' 12 4) :=
  BitVec.extractLsb'_append_eq_right

/-- The high byte of the combined lookup is the XOR of the four gathers from the odd tables (R231). -/
theorem NibTable.lookup_highByte (nb : NibTable) (x : BitVec 16) :
    (nb.lookup x).extractLsb' 8 8 = nb.gather 1 (x.extractLsb' 0 4) ^^^ nb.gather 3 (x.extractLsb' 4 4) ^^^
      nb.gather 5 (x.extractLsb' 8 4) ^^^ nb.gather 7 (x.extractLsb' 12 4) :=
  BitVec.extractLsb'_append_eq_left

theorem eq_of_bytes_eq {x y : BitVec 16} (hlow : x.extractLsb' 0 8 = y.extractLsb' 0 8)
    (hhigh : x.extractLsb' 8 8 = y.extractLsb' 8 8) : x = y := by
  have happend (z : BitVec 16) : z.extractLsb' 8 8 ++ z.extractLsb' 0 8 = z :=
    BitVec.extractLsb'_append_extractLsb' (w := 8)
  rw [← happend x, hlow, hhigh, happend]

/-- The gathers of one lookup meet the two bytes of the same four results, so the combined lookup is their XOR (R212). -/
theorem nibbleTable_lookup (c : FieldCtx 16) (k : LinKind) (a : BitVec 16) (draw : Nat) (x : BitVec 16) :
    (nibbleTable c k a draw).lookup x =
      nibbleResult c k a draw 0 (x.extractLsb' 0 4).toNat ^^^ nibbleResult c k a draw 1 (x.extractLsb' 4 4).toNat ^^^
        nibbleResult c k a draw 2 (x.extractLsb' 8 4).toNat ^^^ nibbleResult c k a draw 3 (x.extractLsb' 12 4).toNat := by
  refine eq_of_bytes_eq ?_ ?_
  · simp only [NibTable.lookup_lowByte, nibbleTable_gather, BitVec.extractLsb'_xor, ← nibbleEntry_even]
    rfl
  · simp only [NibTable.lookup_highByte, nibbleTable_gather, BitVec.extractLsb'_xor, ← nibbleEntry_odd]
    rfl

section Table

variable {tail : Nat} {c : FieldCtx 16} (h : buildCtx .w16 tail = some c) {k : LinKind} {a : BitVec 16}
  (hk : k = .divXByA → a ≠ 0#16) (draw : Nat)
include h hk

theorem nibbleResult_exact {p m : Nat} (hp : p < 4) (hm : m < 16) :
    LinResult k a.toNat (m * 2 ^ (4 * p)) (nibbleResult c k a draw p m).toNat := by
  have hval : (BitVec.ofNat 16 (m <<< (4 * p))).toNat = m * 2 ^ (4 * p) := by
    rw [Nat.shiftLeft_eq]
    exact Nat.mod_eq_of_lt (mul_nibble_lt_order hp hm)
  rw [← hval]
  exact linResult_exactEntry h hk _ draw

/-- The combined lookup is exact for every operand (R212). -/
theorem nibbleTable_lookup_exact (x : BitVec 16) :
    LinResult k a.toNat x.toNat ((nibbleTable c k a draw).lookup x).toNat := by
  have hlt (p : Nat) (hp : p < 4) : nibbleInPlace x p < Width.order .w16 := mul_nibble_lt_order hp (BitVec.isLt _)
  have hlt01 := xor_lt_order .w16 _ _ (hlt 0 (by decide)) (hlt 1 (by decide))
  have hlt012 := xor_lt_order .w16 _ _ hlt01 (hlt 2 (by decide))
  have hexact (p : Nat) (hp : p < 4) :
      LinResult k a.toNat (nibbleInPlace x p) (nibbleResult c k a draw p (x.extractLsb' (4 * p) 4).toNat).toNat :=
    nibbleResult_exact h hk draw hp (BitVec.isLt _)
  have hexact01 := linResult_xor a.isLt (hlt 0 (by decide)) (hlt 1 (by decide)) (hexact 0 (by decide)) (hexact 1 (by decide))
  have hexact012 := linResult_xor a.isLt hlt01 (hlt 2 (by decide)) hexact01 (hexact 2 (by decide))
  rw [← nibbles_xor x, nibbleTable_lookup, BitVec.toNat_xor, BitVec.toNat_xor, BitVec.toNat_xor]
  exact linResult_xor a.isLt hlt012 (hlt 3 (by decide)) hexact012 (hexact 3 (by decide))

end Table

/-! ### NIB_BUILD and NIB_RD -/

theorem exec_nibBuild_of_empty {k : Kind} {lk : LinKind} {c : FieldCtx 16} {s : State} (hk : k.linear? = some lk)
    (hc : s.ctx16 = some c) (hnib : s.nib = none) (ha : s.lopa.toNat < 65536) (h0 : ¬(lk = .divXByA ∧ s.lopa = 0#32)) :
    exec (.nibBuild .w16 (some k)) s =
      .next { s with nib := some (nibbleTable c lk (s.lopa.setWidth 16) s.draws) }.succeed := by
  rw [exec, execNibBuild, hnib, Option.isSome_none, withLinear_pass hk hc ha h0]

/-- With bit 3 of SEL clear, SEL is the number of the table. -/
theorem exec_nibRd_of_lt {s : State} {nb : NibTable} {sel : BitVec 4} (hnib : s.nib = some nb) (hsel : sel.toNat < 8)
    (hn : s.lopb.toNat < 16) :
    exec (.nibRd sel) s = .next (s.answer (zext32 (nb.nt[sel.toNat][s.lopb.toNat]))) := by
  have hbit : sel.getLsbD 3 = false := Nat.testBit_lt_two_pow hsel
  have htable : (sel.extractLsb' 0 3).toNat = sel.toNat := by
    simpa using Nat.mod_eq_of_lt hsel
  simp only [exec, execNibRd, hbit, Bool.false_eq_true, if_false, hnib, indexBelow_of_lt hn, htable, Fin.getElem_fin]

/-- Settles O51: the checks of NIB_BUILD pass, and tables 2p and 2p + 1 hold the bytes of the exact entry function at each
nibble in position p. -/
theorem nibbleTablesHoldExactResults : Obligations.NibbleTablesHoldExactResults := by
  intro k lk s hs hk hready hnib ha h0
  obtain ⟨c, hc, hbuilt⟩ : ∃ c : FieldCtx 16, s.ctx16 = some c ∧ buildCtx .w16 s.expTail.toNat = some c :=
    hs.built_of_ready hready
  rw [eq_divXByA_iff_of_linear hk] at h0
  have hcoef : (s.lopa.setWidth 16).toNat = s.lopa.toNat := toNat_setWidth16_of_lt ha
  have hdiv : lk = .divXByA → s.lopa.setWidth 16 ≠ 0#16 := fun hlk hzero =>
    h0 ⟨hlk, (setWidth16_eq_zero ha).1 hzero⟩
  refine ⟨_, _, exec_nibBuild_of_empty hk hc hnib ha h0, rfl, rfl, rfl, rfl, hcoef, fun p m hp hm => ?_⟩
  have hlow : 2 * p < 8 := by omega
  have hhigh : 2 * p + 1 < 8 := by omega
  rw [← hcoef]
  refine ⟨_, _, _, nibbleResult_exact hbuilt hdiv s.draws hp hm,
    Vector.getElem?_eq_getElem hlow, Vector.getElem?_eq_getElem hhigh, ?_, ?_⟩
  · rw [Vector.getElem?_eq_getElem hm, nibbleTable_nt _ _ _ _ hlow hm, nibbleEntry_even]
  · rw [Vector.getElem?_eq_getElem hm, nibbleTable_nt _ _ _ _ hhigh hm, nibbleEntry_odd]

/-- Settles O52: a SEL below 8 and an operand below 16 name a table and an entry of it. -/
theorem nibRdReadsTheChosenTable : Obligations.NibRdReadsTheChosenTable := fun _ _ _ hnib hsel hn =>
  ⟨_, _, _, exec_nibRd_of_lt hnib hsel hn, rfl, Vector.getElem?_eq_getElem hsel, Vector.getElem?_eq_getElem hn,
    toNat_zext32 _ (by decide)⟩

/-- Settles O53: by the invariant the held tables are those of a built context, and the gathers are the two bytes of their
combined lookup, which is exact. -/
theorem nibbleTablesCombineToTheResult : Obligations.NibbleTablesCombineToTheResult := by
  intro s nb x hs hnib
  obtain ⟨c, draw, hc, hdiv, hnb⟩ := hs.nibBuilt nb hnib
  have hexact := nibbleTable_lookup_exact (hs.ctxBuilt .w16 c hc) hdiv draw x
  rw [← hnb] at hexact
  exact ⟨nb.lookup x, hexact, (nb.lookup_lowByte x).symm, (nb.lookup_highByte x).symm⟩

end Sys2Proof.Machine
end

section
/-! SUPPORT. VLOOKUP: without a race the engine reads the bytes of DMEM before the command (R230, R74), and each output element
is the combined lookup of its input element, whose two bytes are gather XORs (R231) and which is exact (R234). -/

namespace Sys2Proof.Machine

/-! ### The two bytes of an element -/

theorem toNat_bytes (x : BitVec 16) : (x.extractLsb' 0 8).toNat + 256 * (x.extractLsb' 8 8).toNat = x.toNat := by
  have hlt : x.toNat < 65536 := x.isLt
  simp only [BitVec.extractLsb'_toNat, Nat.shiftRight_eq_div_pow]
  omega

/-- Little-endian bytes make an element (R75). -/
theorem toNat_append_bytes (lo hi : Byte) : (hi ++ lo).toNat = lo.toNat + 256 * hi.toNat := by
  rw [← toNat_bytes, BitVec.extractLsb'_append_eq_left, BitVec.extractLsb'_append_eq_right]

section Gathers

variable (nb : NibTable) (lo hi : Byte)

theorem extractNibble_append_low {i : Nat} (h : i + 4 ≤ 8) :
    BitVec.extractLsb' (n := 16) i 4 (hi ++ lo) = lo.extractLsb' i 4 :=
  BitVec.extractLsb'_append_eq_of_add_le h

theorem extractNibble_append_high {i : Nat} (h : 8 ≤ i) :
    BitVec.extractLsb' (n := 16) i 4 (hi ++ lo) = hi.extractLsb' (i - 8) 4 :=
  BitVec.extractLsb'_append_eq_of_le h

/-- The low byte of the combined lookup of an element in the nibbles of its two bytes (R231). -/
theorem NibTable.lookup_append_lowByte :
    (nb.lookup (hi ++ lo)).extractLsb' 0 8 = nb.gather 0 (lo.extractLsb' 0 4) ^^^ nb.gather 2 (lo.extractLsb' 4 4) ^^^
      nb.gather 4 (hi.extractLsb' 0 4) ^^^ nb.gather 6 (hi.extractLsb' 4 4) := by
  simp [NibTable.lookup_lowByte, extractNibble_append_low, extractNibble_append_high]

/-- The high byte of the combined lookup of an element in the nibbles of its two bytes (R231). -/
theorem NibTable.lookup_append_highByte :
    (nb.lookup (hi ++ lo)).extractLsb' 8 8 = nb.gather 1 (lo.extractLsb' 0 4) ^^^ nb.gather 3 (lo.extractLsb' 4 4) ^^^
      nb.gather 5 (hi.extractLsb' 0 4) ^^^ nb.gather 7 (hi.extractLsb' 4 4) := by
  simp [NibTable.lookup_highByte, extractNibble_append_low, extractNibble_append_high]

end Gathers

/-- The combined lookup of the held nibble tables is exact (R212). -/
theorem StateInv.nib_lookup_exact {s : State} {nb : NibTable} (hs : StateInv s) (hnib : s.nib = some nb) (x : BitVec 16) :
    LinResult nb.kind nb.coef.toNat x.toNat (nb.lookup x).toNat := by
  obtain ⟨y, hexact, hlow, hhigh⟩ := nibbleTablesCombineToTheResult s nb x hs hnib
  have hy : nb.lookup x = y := eq_of_bytes_eq ((nb.lookup_lowByte x).trans hlow) ((nb.lookup_highByte x).trans hhigh)
  rwa [hy]

/-! ### The completion of a VLOOKUP -/

/-- Without a race the engine reads a written byte as DMEM holds it (R230). -/
theorem engineByte_of_written {s : State} {a : Nat} {b : Byte} (hview : s.inView = []) (hb : Memory.get? s.dmem a = some b)
    (n : Nat) : s.engineByte n a = b := by
  simp [State.engineByte, hview, hb, Memory.get?]

/-- The two bytes of output element j, once the output chunk is written with no byte kept back (R230). -/
theorem get?_outputElement {m : List Host.Cell} (hm : Memory.wf m = true) (l : Lookup) (s : State) (n : Nat) {j : Nat}
    (hj : j < l.lane.elements) :
    Memory.get? (Memory.writeFrom [] (l.output s n) l.dst m) (l.dst + 2 * j) =
      some ((l.table.lookup (s.engineElement n l.src j)).extractLsb' 0 8) ∧
    Memory.get? (Memory.writeFrom [] (l.output s n) l.dst m) (l.dst + 2 * j + 1) =
      some ((l.table.lookup (s.engineElement n l.src j)).extractLsb' 8 8) := by
  have hchunk (k : Nat) (hk : k < 2 * l.lane.elements) :
      Memory.get? (Memory.writeFrom [] (l.output s n) l.dst m) (l.dst + k) = (l.output s n)[k]? := by
    rw [get?_writeOutput hm, if_pos ⟨by omega, Nat.add_lt_add_left hk _, List.not_mem_nil⟩, Nat.add_sub_cancel_left]
  obtain ⟨hlow, hhigh⟩ := getElem?_output l s n j hj
  exact ⟨(hchunk _ (by omega)).trans hlow, (hchunk _ (by omega)).trans hhigh⟩

/-- Settles O54: the checks pass, the write of the output chunk leaves every other byte, and each element it writes is the
combined lookup of the two bytes the engine reads. -/
theorem vlookupWritesTheOutputChunk : Obligations.VlookupWritesTheOutputChunk := by
  intro lane s nb hs hnib hsrc hdst hsrcEnd hdstEnd
  have hexec := exec_vlookup_of_setup (l := ⟨nb, lane, _, _⟩) (lookupSetup_pass hnib hsrc hdst hsrcEnd hdstEnd)
  refine ⟨_, hexec, rfl, fun a ha => ?_, fun hview hkeep j hj => ?_⟩
  · exact (get?_writeOutput hs.memWf ..).trans (if_neg fun ⟨hle, hlt, _⟩ => ha.elim hle.not_gt hlt.not_ge)
  · obtain ⟨hlow, hhigh⟩ := get?_outputElement hs.memWf ⟨nb, lane, s.lopb.toNat, s.lopc.toNat⟩ s s.draws hj
    rw [succeed_dmem, hkeep]
    exact ⟨_, _, fun _ hb => engineByte_of_written hview hb _, fun _ hb => engineByte_of_written hview hb _,
      hlow.trans (congrArg some (nb.lookup_append_lowByte _ _)), hhigh.trans (congrArg some (nb.lookup_append_highByte _ _))⟩

/-- Settles O55: the gather XORs that O54 finds in an output element are the two bytes of a combined lookup, which is exact. -/
theorem vlookupIsExact : Obligations.VlookupIsExact := by
  intro lane s nb hs hnib hsrc hdst hsrcEnd hdstEnd hview hkeep
  obtain ⟨t, hexec, hok, -, helements⟩ := vlookupWritesTheOutputChunk lane s nb hs hnib hsrc hdst hsrcEnd hdstEnd
  refine ⟨t, hexec, hok, fun j hj => ?_⟩
  obtain ⟨lo, hi, hlo, hhi, hlow, hhigh⟩ := helements hview hkeep j hj
  refine ⟨lo, hi, _, _, hlo, hhi, hlow, hhigh, ?_⟩
  rw [← nb.lookup_append_lowByte, ← nb.lookup_append_highByte, toNat_bytes, ← toNat_append_bytes]
  exact hs.nib_lookup_exact hnib (hi ++ lo)

end Sys2Proof.Machine
end

section
/-! SUPPORT. The interrupt output (R258), the two ways the engine's completion ends (R50, R252), and a completion that comes in
the step of a host write (R259). -/

namespace Sys2Proof.Machine

/-! ### The interrupt output -/

theorem irq_iff (s : State) : s.irq = true ↔ s.done = true ∧ s.irqEn = true := by
  rw [State.irq, Bool.and_eq_true]

theorem irq_of_not_done {s : State} (h : s.done = false) : s.irq = false := by
  rw [State.irq, h, Bool.false_and]

theorem irq_of_not_enabled {s : State} (h : s.irqEn = false) : s.irq = false := by
  rw [State.irq, h, Bool.and_false]

/-- Settles O19: an acknowledge and an acceptance clear DONE, and a CTRL write without SRST sets IRQ_EN to its bit 0. -/
theorem interruptIsDoneAndEnabled : Obligations.InterruptIsDoneAndEnabled := by
  intro s v
  refine ⟨irq_iff s, fun hack => ⟨_, hostWrite_register s v, irq_of_not_done ?_⟩,
    fun hidle => ⟨_, hostWrite_register s v, irq_of_not_done ?_⟩,
    fun hsrst hen => ⟨_, hostWrite_register s v, irq_of_not_enabled ?_⟩⟩
  · change (s.writeStatus v).done = false
    rw [writeStatus_eq, hack, Bool.not_true, Bool.and_false]
  · change (s.regWrite v (some .cmd)).done = false
    rw [regWrite_cmd_idle hidle, accept_done]
  · change (s.regWrite v (some .ctrl)).irqEn = false
    rw [regWrite_ctrl s hsrst, hen]

/-! ### The end of a completion -/

/-- The engine completes the latched command, or raises the decode error of a word that is none (R106, R107). -/
theorem runCommand_cases {s t : State} (h : runCommand s = .next t) :
    (∃ i, exec i s = .next t) ∨ ∃ e, t = s.raise e := by
  cases hdecode : decode s.lcmd with
  | ok i => exact .inl ⟨i, (runCommand_of_decode hdecode).symm.trans h⟩
  | error e => cases (runCommand_of_decode_error hdecode).symm.trans h; exact .inr ⟨_, rfl⟩

/-- Whatever word is latched, its completion sets DONE, clears BUSY and leaves OVR and LCMD alone (R39, R50). -/
theorem runCommand_completes {s t : State} (h : runCommand s = .next t) :
    t.done = true ∧ t.ovr = s.ovr ∧ t.busy = false ∧ t.lcmd = s.lcmd := by
  rcases runCommand_cases h with ⟨i, hexec⟩ | ⟨e, rfl⟩
  · obtain ⟨hbusy, hdone⟩ := exec_completes hexec
    obtain ⟨hovr, -, hlcmd, -⟩ := (exec_effect hexec).host
    exact ⟨hdone, hovr, hbusy, hlcmd⟩
  · exact ⟨rfl, rfl, rfl, rfl⟩

/-- A command that reports an error has done nothing but raise it. -/
theorem exec_eq_raise_of_error {i : Instr} {s t : State} (h : exec i s = .next t) (herr : t.errcode ≠ .success) :
    ∃ e, t = s.raise e := by
  rcases exec_ends i s t h with ⟨e, -, he⟩ | ⟨u, -, rfl⟩
  · exact ⟨e, he⟩
  · exact absurd (succeed_errcode u) herr

/-- Settles O26: with an error code other than 0 the completion is a raise, which writes ERRCODE, DONE and BUSY. -/
theorem failedCommandChangesNothingElse : Obligations.FailedCommandChangesNothingElse := by
  intro s t herr hend
  have hraise : ∃ e, t = s.raise e := by
    rcases hend with ⟨i, hexec⟩ | hrun
    · exact exec_eq_raise_of_error hexec herr
    · exact (runCommand_cases hrun).elim (fun ⟨_, hexec⟩ => exec_eq_raise_of_error hexec herr) id
  obtain ⟨e, rfl⟩ := hraise
  rfl

/-! ### A completion in the step of a host write -/

/-- A register write that leaves a running command running, in a turn that completes it: both take effect, the write first. -/
theorem step_of_write_and_completion {s : State} {off : Nat} {v : Word} (hturn : s.nextTurn = ⟨.write .b32 off v, true⟩)
    (hwindow : off < 0x1000) (halign : off % 4 = 0) (hbusy : s.busy = true)
    (hbusy1 : (s.regWrite v (hostRegAt off)).busy = true) :
    ∃ t, step s = .next t ∧ t.done = true ∧ t.ovr = (s.regWrite v (hostRegAt off)).ovr ∧ t.busy = false ∧
      t.lcmd = (s.regWrite v (hostRegAt off)).lcmd := by
  have haccess : s.hostStep s.nextTurn.event = .next (s.regWrite v (hostRegAt off)) := by
    rw [hturn]; exact hostWrite_register s v hwindow halign
  obtain ⟨t, hrun⟩ := runCommand_answers_next (s.regWrite v (hostRegAt off)).popTurn
  have hends := runCommand_completes hrun
  refine ⟨t, ?_, hends⟩
  rw [step_of_completes haccess hbusy hbusy1 (by rw [hturn]), hrun]

/-- Settles O20: a dropped CMD write sets OVR and an acknowledge clears DONE, both leave the command running, and its completion
then sets DONE. -/
theorem simultaneousEventsBothTakeEffect : Obligations.SimultaneousEventsBothTakeEffect := by
  intro s v hbusy
  refine ⟨fun hturn => ?dropped, fun hturn => ?acknowledge⟩
  case dropped =>
    have hdrop : s.regWrite v (hostRegAt 0x00C) = { s with ovr := true } := regWrite_cmd_busy hbusy v
    have hstep := step_of_write_and_completion hturn (by decide) (by decide) hbusy (by rw [hdrop]; exact hbusy)
    rwa [hdrop] at hstep
  case acknowledge =>
    have hack : (s.regWrite v (hostRegAt 0x008)).busy = true := by
      change (s.writeStatus v).busy = true
      rw [writeStatus_eq]; exact hbusy
    obtain ⟨t, hstep, hdone, -, hidle, -⟩ := step_of_write_and_completion hturn (by decide) (by decide) hbusy hack
    exact ⟨t, hstep, hdone, hidle⟩

end Sys2Proof.Machine
end

section
/-! SUPPORT. The error a command reports (R253): `firstError` as a chain of checks, and for each command the chain its completion
step goes through (R104, R250). -/

namespace Sys2Proof.Machine

theorem getD_find?_cons {α : Type} (p : α → Bool) (a : α) (l : List α) (d : α) :
    ((a :: l).find? p).getD d = if p a = true then a else (l.find? p).getD d := by
  cases h : p a <;> simp [h]

/-- The checks in the order of R253. -/
theorem firstError_eq (i : Instr) (s : State) : firstError i s =
    if checkFails i s .rsvd then .rsvd else if checkFails i s .kind then .kind
    else if checkFails i s .width then .width else if checkFails i s .notReady then .notReady
    else if checkFails i s .reinit then .reinit else if checkFails i s .alloc then .alloc
    else if checkFails i s .noTable then .noTable else if checkFails i s .range then .range
    else if checkFails i s .div0 then .div0 else if checkFails i s .align then .align
    else if checkFails i s .bounds then .bounds else .success := by
  simp only [firstError, getD_find?_cons, List.find?_nil, Option.getD_none]

/-- The command `i`, completed in the state `s`, reports `e`. -/
def Reports (i : Instr) (s : State) (e : ErrCode) : Prop := ∃ t, exec i s = .next t ∧ t.errcode = e

/-! ### The Field Table Builder -/

theorem reports_init (w : Width) (s : State) : Reports (.init w) s (if s.ready w = true then .reinit else .success) := by
  split_ifs with hready
  · exact ⟨s.raise .reinit, by simp [exec, execInit, hready], rfl⟩
  · obtain ⟨c, -, hexec⟩ := exec_init_of_not_ready (Bool.eq_false_iff.2 hready)
    exact ⟨_, hexec, rfl⟩

theorem reports_expRd (w : Width) {s : State} (hs : StateInv s) : Reports (.expRd w) s
    (if s.ready w = false then .notReady
      else if 2 * (w.order - 1) + s.expTail.toNat ≤ s.lopb.toNat then .range else .success) := by
  split_ifs with hready hpast
  · exact ⟨s.raise .notReady, by simp [exec, execExpRd, ready_eq_false.1 hready], rfl⟩
  all_goals obtain ⟨c, hc, hbuilt⟩ := hs.built_of_ready (Bool.eq_true_of_not_eq_false hready)
  · exact ⟨_, exec_expRd_of_past hc (expAt_past hbuilt _ hpast), rfl⟩
  · obtain ⟨e, he⟩ := Option.isSome_iff_exists.1 ((expAt_isSome_iff hbuilt _).2 (Nat.not_le.1 hpast))
    exact ⟨_, exec_expRd_of_entry hc he, rfl⟩

theorem reports_idxRd (w : Width) (s : State) : Reports (.idxRd w) s
    (if s.ready w = false then .notReady else if w.order ≤ s.lopb.toNat then .range else .success) := by
  split_ifs with hready hpast
  · exact ⟨s.raise .notReady, by simp [exec, execIdxRd, ready_eq_false.1 hready], rfl⟩
  all_goals obtain ⟨c, hc⟩ := ctx_eq_of_ready (Bool.eq_true_of_not_eq_false hready)
  · exact ⟨_, exec_idxRd_of_le hc hpast, rfl⟩
  · exact ⟨_, exec_idxRd_of_lt hc (Nat.not_le.1 hpast), rfl⟩

/-! ### Scalar arithmetic -/

/-- The checks every scalar command makes, and the error code `e` once they have passed (R253). -/
def pairError (s : State) (w : Width) (e : ErrCode) : ErrCode :=
  if s.ready w = false then .notReady
  else if w.order ≤ s.lopa.toNat ∨ w.order ≤ s.lopb.toNat then .range else e

theorem errcode_withPair {s : State} {w : Width} {f : FieldCtx w.bits → BitVec w.bits → BitVec w.bits → State} {e : ErrCode}
    (hf : s.lopb.toNat < w.order → ∀ c a, (f c a (s.lopb.setWidth w.bits)).errcode = e) :
    (s.withPair w f).errcode = pairError s w e := by
  rw [pairError]
  rcases withPair_cases s w f with ⟨hnone, heq⟩ | ⟨hready, hrange, heq⟩ | ⟨c, hc, ha, hb, heq⟩ <;> rw [heq]
  · rw [if_pos (ready_eq_false.2 hnone), raise_errcode]
  · rw [if_neg (by simp [hready]), if_pos hrange, raise_errcode]
  · rw [if_neg (by simp [ready_eq_false, hc]), if_neg (by omega), hf hb]

theorem reports_mul (w : Width) (s : State) : Reports (.mul w) s (pairError s w .success) :=
  ⟨_, rfl, errcode_withPair fun _ _ _ => rfl⟩

theorem reports_div (w : Width) (s : State) : Reports (.div w) s (pairError s w .success) :=
  ⟨_, rfl, errcode_withPair fun _ _ _ => rfl⟩

theorem reports_mulz (w : Width) (s : State) : Reports (.mulz w) s (pairError s w .success) :=
  ⟨_, rfl, errcode_withPair fun _ _ _ => rfl⟩

/-- A divisor below N is 0 as an element exactly where LOPB is 0. -/
theorem reports_divz (w : Width) (s : State) : Reports (.divz w) s
    (pairError s w (if s.lopb = 0#32 then .div0 else .success)) := by
  refine ⟨_, rfl, errcode_withPair fun hb c a => ?_⟩
  by_cases hzero : s.lopb = 0#32
  · simp [hzero]
  · simp [hzero, setWidth_ne_zero hb hzero]

/-! ### The builds -/

theorem reports_rtBuild (w : Width) (kind : Option Kind) (s : State) : Reports (.rtBuild w kind) s
    (if kind = none then .kind else if s.ready w = false then .notReady else if s.rt.isSome = true then .alloc
      else if w.order ≤ s.lopa.toNat then .range else .success) := by
  split_ifs with hkind hready hrt hcoef
  · exact ⟨s.raise .kind, by simp [exec, execRtBuild, hkind], rfl⟩
  all_goals obtain ⟨k, rfl⟩ := Option.ne_none_iff_exists'.1 hkind
  · exact ⟨s.raise .notReady, by simp [exec, execRtBuild, ready_eq_false.1 hready], rfl⟩
  all_goals obtain ⟨c, hc⟩ := ctx_eq_of_ready (Bool.eq_true_of_not_eq_false hready)
  · exact ⟨s.raise .alloc, by simp [exec, execRtBuild, hc, hrt], rfl⟩
  all_goals rw [Option.not_isSome_iff_eq_none] at hrt
  · exact ⟨s.raise .range, by simp [exec, execRtBuild, hc, hrt, State.elementA, element?_of_le hcoef], rfl⟩
  · exact ⟨_, exec_rtBuild_of_empty hc (Nat.not_le.1 hcoef) k hrt, rfl⟩

/-- Neither the reserved kind nor DIV_A_BY_X is linear (R103, R190, R210). -/
theorem linear?_eq_none_iff (kind : Option Kind) :
    kind.bind Kind.linear? = none ↔ kind = none ∨ kind = some .divAByX := by
  rcases kind with _ | _ | _ | _ <;> decide

theorem linear?_eq_divXByA_iff (kind : Option Kind) :
    kind.bind Kind.linear? = some .divXByA ↔ kind = some .divXByA := by
  rcases kind with _ | _ | _ | _ <;> decide

/-- The checks of the split and the nibble build, `held` saying whether the slot holds a table (R253). -/
def linearError (s : State) (w : Width) (kind : Option Kind) (held : Bool) : ErrCode :=
  if kind = none ∨ kind = some .divAByX then .kind else if w = .w8 then .width
  else if s.ready .w16 = false then .notReady else if held = true then .alloc
  else if 65536 ≤ s.lopa.toNat then .range
  else if kind = some .divXByA ∧ s.lopa = 0#32 then .div0 else .success

theorem errcode_withLinear {s : State} {w : Width} {kind : Option Kind} {held : Bool}
    {f : FieldCtx 16 → LinKind → BitVec 16 → State} (hf : ∀ c k a, (f c k a).errcode = .success) :
    (s.withLinear w kind held f).errcode = linearError s w kind held := by
  have hready : s.ready .w16 = false ↔ s.ctx16 = none := ready_eq_false
  simp only [linearError, ← linear?_eq_none_iff, ← linear?_eq_divXByA_iff, hready]
  rcases withLinear_cases s w kind held f with ⟨hk, heq⟩ | ⟨lk, hk, ⟨rfl, heq⟩ | ⟨rfl, ⟨hnone, heq⟩ | ⟨c, hc, ⟨rfl, heq⟩ |
    ⟨rfl, ⟨hrange, heq⟩ | ⟨ha, ⟨rfl, hzero, heq⟩ | ⟨hdiv, heq⟩⟩⟩⟩⟩⟩ <;> rw [heq]
  · simp [hk]
  · simp [hk]
  · simp [hk, hnone]
  · simp [hk, hc]
  · simp [hk, hc, hrange]
  · simp [hk, hc, hzero]
  · simp [hk, hc, ha, hdiv, hf]

theorem reports_splBuild (w : Width) (kind : Option Kind) (s : State) : Reports (.splBuild w kind) s
    (linearError s w kind s.spl.isSome) :=
  ⟨_, rfl, errcode_withLinear fun _ _ _ => rfl⟩

theorem reports_nibBuild (w : Width) (kind : Option Kind) (s : State) : Reports (.nibBuild w kind) s
    (linearError s w kind s.nib.isSome) :=
  ⟨_, rfl, errcode_withLinear fun _ _ _ => rfl⟩

/-! ### The reads of a table -/

theorem reports_rtRd (s : State) : Reports .rtRd s
    (if s.rt = none then .noTable else if s.rt.any (fun ft => decide (ft.width.order ≤ s.lopb.toNat)) = true then .range
      else .success) := by
  cases hrt : s.rt with
  | none => exact ⟨s.raise .noTable, by simp [exec, execRtRd, hrt], rfl⟩
  | some ft =>
    simp only [reduceCtorEq, if_false, Option.any_some, decide_eq_true_eq]
    split_ifs with hpast
    · exact ⟨s.raise .range, by simp [exec, execRtRd, hrt, indexBelow_of_le hpast], rfl⟩
    · exact ⟨_, exec_rtRd_of_lt hrt (Nat.not_le.1 hpast), rfl⟩

/-- SPL_RD uses bit 0 of SEL only (R102). -/
theorem selHigh_eq_zero_iff (sel : BitVec 4) : sel &&& 0b1110#4 = 0#4 ↔ sel.toNat < 2 := by
  revert sel; decide

theorem reports_splRd (sel : BitVec 4) (s : State) : Reports (.splRd sel) s
    (if 1 < sel.toNat then .rsvd else if s.spl = none then .noTable else if 256 ≤ s.lopb.toNat then .range else .success) := by
  split_ifs with hsel hspl hpast
  · have hbits : sel &&& 0b1110#4 ≠ 0#4 := fun h => Nat.not_lt.2 hsel ((selHigh_eq_zero_iff sel).1 h)
    exact ⟨s.raise .rsvd, by simp [exec, execSplRd, hbits], rfl⟩
  all_goals have hbits := (selHigh_eq_zero_iff sel).2 (Nat.not_le.1 hsel)
  · exact ⟨s.raise .noTable, by simp [exec, execSplRd, hbits, hspl], rfl⟩
  all_goals obtain ⟨sp, hsp⟩ := Option.ne_none_iff_exists'.1 hspl
  · exact ⟨s.raise .range, by simp [exec, execSplRd, hbits, hsp, indexBelow_of_le hpast], rfl⟩
  · exact ⟨_, exec_splRd_of_lt hsp hbits (Nat.not_le.1 hpast), rfl⟩

theorem reports_splLookup (s : State) : Reports .splLookup s
    (if s.spl = none then .noTable else if 65536 ≤ s.lopb.toNat then .range else .success) := by
  split_ifs with hspl hpast
  · exact ⟨s.raise .noTable, by simp [exec, execSplLookup, hspl], rfl⟩
  all_goals obtain ⟨sp, hsp⟩ := Option.ne_none_iff_exists'.1 hspl
  · exact ⟨s.raise .range, by simp [exec, execSplLookup, hsp, elementB16_of_le hpast], rfl⟩
  · exact ⟨_, exec_splLookup_of_lt hsp (Nat.not_le.1 hpast), rfl⟩

/-- NIB_RD leaves bit 3 of SEL unused (R102). -/
theorem selTop_eq_true_iff (sel : BitVec 4) : sel.getLsbD 3 = true ↔ 8 ≤ sel.toNat := by
  revert sel; decide

theorem reports_nibRd (sel : BitVec 4) (s : State) : Reports (.nibRd sel) s
    (if 8 ≤ sel.toNat then .rsvd else if s.nib = none then .noTable else if 16 ≤ s.lopb.toNat then .range else .success) := by
  split_ifs with hsel hnib hpast
  · exact ⟨s.raise .rsvd, by simp only [exec, execNibRd, if_pos ((selTop_eq_true_iff sel).2 hsel)], rfl⟩
  all_goals have hbit : ¬sel.getLsbD 3 = true := fun h => hsel ((selTop_eq_true_iff sel).1 h)
  · exact ⟨s.raise .noTable, by simp only [exec, execNibRd, if_neg hbit, hnib], rfl⟩
  all_goals obtain ⟨nb, hnb⟩ := Option.ne_none_iff_exists'.1 hnib
  · exact ⟨s.raise .range, by simp only [exec, execNibRd, if_neg hbit, hnb, indexBelow_of_le hpast], rfl⟩
  · exact ⟨_, exec_nibRd_of_lt hnb (Nat.not_le.1 hsel) (Nat.not_le.1 hpast), rfl⟩

/-! ### The releases -/

theorem reports_rtRel (s : State) : Reports .rtRel s (if s.rt = none then .noTable else .success) := by
  split_ifs with hrt
  · exact ⟨_, exec_rtRel_of_empty hrt, rfl⟩
  · exact ⟨_, exec_rtRel_of_held (Option.isSome_iff_ne_none.2 hrt), rfl⟩

theorem reports_splRel (s : State) : Reports .splRel s (if s.spl = none then .noTable else .success) := by
  split_ifs with hspl
  · exact ⟨_, exec_splRel_of_empty hspl, rfl⟩
  · exact ⟨_, exec_splRel_of_held (Option.isSome_iff_ne_none.2 hspl), rfl⟩

theorem reports_nibRel (s : State) : Reports .nibRel s (if s.nib = none then .noTable else .success) := by
  split_ifs with hnib
  · exact ⟨_, exec_nibRel_of_empty hnib, rfl⟩
  · exact ⟨_, exec_nibRel_of_held (Option.isSome_iff_ne_none.2 hnib), rfl⟩

/-! ### VLOOKUP -/

theorem exec_vlookup_of_error {s : State} {lane : Lane} {e : ErrCode} (h : s.lookupSetup lane = .error e) :
    exec (.vlookup lane) s = .next (s.raise e) := by
  simp only [exec, execVlookup, h]

/-- An odd address is one whose bit 0 is set. -/
theorem getLsbD_zero_iff_odd (v : Word) : v.getLsbD 0 = true ↔ v.toNat % 2 = 1 := by
  simp [BitVec.getLsbD, Nat.testBit_zero]

theorem reports_vlookup (lane : Lane) (s : State) : Reports (.vlookup lane) s
    (if s.nib = none then .noTable else if s.lopb.getLsbD 0 = true ∨ s.lopc.getLsbD 0 = true then .align
      else if s.dmemSize.toNat < s.lopb.toNat + lane.bytes ∨ s.dmemSize.toNat < s.lopc.toNat + lane.bytes then .bounds
      else .success) := by
  simp only [getLsbD_zero_iff_odd]
  split_ifs with hnib hodd hend
  · exact ⟨_, exec_vlookup_of_error (e := .noTable) (by simp only [State.lookupSetup, hnib]), rfl⟩
  all_goals obtain ⟨nb, hnb⟩ := Option.ne_none_iff_exists'.1 hnib
  · exact ⟨_, exec_vlookup_of_error (e := .align) (by simp only [State.lookupSetup, hnb, if_pos hodd]), rfl⟩
  · exact ⟨_, exec_vlookup_of_error (e := .bounds) (by simp only [State.lookupSetup, hnb, if_neg hodd, if_pos hend]), rfl⟩
  · have hsetup := lookupSetup_pass (lane := lane) hnb (by omega) (by omega) (by omega) (by omega)
    exact ⟨_, exec_vlookup_of_setup (l := ⟨nb, lane, _, _⟩) hsetup, rfl⟩

/-! ### Every command -/

/-- Settles O27: the chain of checks of each command is what its checks in `checkFails` make of the order of R253. -/
theorem commandReportsTheFirstFailingCheck : Obligations.CommandReportsTheFirstFailingCheck := by
  intro i s hs
  change Reports i s (firstError i s)
  rw [firstError_eq]
  cases i with
  | init w => simpa [checkFails, Instr.wellFormed] using reports_init w s
  | expRd w => simpa [checkFails, Instr.wellFormed] using reports_expRd w hs
  | idxRd w => simpa [checkFails, Instr.wellFormed] using reports_idxRd w s
  | mul w => simpa [checkFails, Instr.wellFormed, pairError] using reports_mul w s
  | div w => simpa [checkFails, Instr.wellFormed, pairError] using reports_div w s
  | mulz w => simpa [checkFails, Instr.wellFormed, pairError] using reports_mulz w s
  | divz w => simpa [checkFails, Instr.wellFormed, pairError] using reports_divz w s
  | rtBuild w kind => simpa [checkFails, Instr.wellFormed] using reports_rtBuild w kind s
  | rtRd => simpa [checkFails, Instr.wellFormed] using reports_rtRd s
  | rtRel => simpa [checkFails, Instr.wellFormed] using reports_rtRel s
  | splBuild w kind => simpa [checkFails, Instr.wellFormed, linearError] using reports_splBuild w kind s
  | splRd sel => simpa [checkFails, Instr.wellFormed] using reports_splRd sel s
  | splLookup => simpa [checkFails, Instr.wellFormed] using reports_splLookup s
  | splRel => simpa [checkFails, Instr.wellFormed] using reports_splRel s
  | nibBuild w kind => simpa [checkFails, Instr.wellFormed, linearError] using reports_nibBuild w kind s
  | nibRd sel => simpa [checkFails, Instr.wellFormed] using reports_nibRd sel s
  | nibRel => simpa [checkFails, Instr.wellFormed] using reports_nibRel s
  | vlookup lane => simpa [checkFails, Instr.wellFormed] using reports_vlookup lane s

end Sys2Proof.Machine
end

section
/-! SUPPORT. The two resets (R280, R281): the registers after each of them, and which bytes of DMEM a soft reset may change
(R282). -/

namespace Sys2Proof.Machine

theorem hardReset_registersReset (s : State) : RegistersReset s s.hardReset :=
  powerOn_registersReset s.expTail s.dmemSize s rfl rfl

/-- A soft reset differs from the hardware reset only in DMEM, which is no register. -/
theorem softReset_registersReset (s : State) : RegistersReset s s.softReset := by
  rw [softReset_eq_hardReset]
  exact hardReset_registersReset s

theorem regWrite_ctrl_srst {v : Word} (s : State) (hv : v.getLsbD 1 = true) :
    s.regWrite v (some .ctrl) = s.softReset := by
  simp only [State.regWrite, hv, if_true]

/-- A byte of DMEM after a soft reset: what it was, or in the output chunk of a running VLOOKUP the byte of its output. -/
theorem softReset_dmem_cases {s : State} (hm : Memory.wf s.dmem = true) (a : Nat) :
    Memory.get? s.softReset.dmem a = Memory.get? s.dmem a ∨
      ∃ l, RunningLookup s l ∧ l.dst ≤ a ∧ a < l.dst + l.lane.bytes ∧
        Memory.get? s.softReset.dmem a = (l.output s s.draws)[a - l.dst]? := by
  cases hl : s.runningLookup with
  | none => left; simp only [State.softReset, hl]
  | some l =>
    simp only [State.softReset, hl, get?_writeOutput hm]
    split
    · rename_i hnew
      obtain ⟨hle, hlt, -⟩ := hnew
      exact .inr ⟨l, (runningLookup_iff s l).1 hl, hle, hlt, rfl⟩
    · exact .inl rfl

/-- Settles O17: SRST makes the CTRL write a soft reset. -/
theorem softResetKeepsDmem : Obligations.SoftResetKeepsDmem := fun s v hs hv =>
  ⟨s.softReset, (hostWrite_register s v).trans (congrArg _ (regWrite_ctrl_srst s hv)), softReset_registersReset s,
    softReset_dmem_cases hs.memWf⟩

/-- The reset input leaves no command to complete, so the step is the reset and no more (R280). -/
theorem step_of_reset {s : State} (h : s.nextTurn.event = .reset) : step s = .next s.hardReset.popTurn :=
  step_of_not_completes (by rw [h]; rfl) (.inr (.inl (hardReset_busy s)))

/-- Settles O18: taking the turn off the list changes no register and no byte of DMEM. -/
theorem hardwareResetResetsEverything : Obligations.HardwareResetResetsEverything := fun s h =>
  ⟨s.hardReset.popTurn, step_of_reset h, hardReset_registersReset s, fun _ => rfl⟩

end Sys2Proof.Machine
end

section
/-! SUPPORT. A command that the host leaves alone: the steps in which it waits, and the step in which it completes (R50, R296,
R297). -/

namespace Sys2Proof.Machine

theorem run_succ_of_step_next {M : Host.Core} {s t : M.State} (k : Nat) (h : M.step s = .next t) :
    M.run (k + 1) s = M.run k t := by
  simp only [Host.Core.run, h]

section

variable {s : State} {turns : List Turn}

/-- With no turn listed a running command completes (log 2). -/
theorem step_of_no_turns (hbusy : s.busy = true) (hturns : s.turns = []) : step s = runCommand s.popTurn := by
  have hturn : s.nextTurn = ⟨.idle, true⟩ := by rw [State.nextTurn, hturns]; rfl
  exact step_of_completes (s1 := s) (by rw [hturn]; rfl) hbusy hbusy (by rw [hturn])

theorem step_of_idle_wait (hturns : s.turns = ⟨.idle, false⟩ :: turns) : step s = .next s.popTurn := by
  have hturn : s.nextTurn = ⟨.idle, false⟩ := by rw [State.nextTurn, hturns]; rfl
  exact step_of_not_completes (by rw [hturn]; rfl) (.inr (.inr (by rw [hturn])))

end

/-- Settles O23, by induction on the number of steps the command waits: each takes one turn off the list and leaves it running
with the same word, and the first step without a turn completes it. -/
theorem everyAcceptedCommandCompletes : Obligations.EveryAcceptedCommandCompletes := by
  intro n
  induction n with
  | zero =>
    intro s hbusy hturns
    obtain ⟨t, hrun⟩ := runCommand_answers_next s.popTurn
    obtain ⟨hdone, -, hidle, hlcmd⟩ := runCommand_completes hrun
    have hstep : core.step s = .next t := (step_of_no_turns hbusy hturns).trans hrun
    exact ⟨t, run_succ_of_step_next 0 hstep, hidle, hdone, hlcmd⟩
  | succ n ih =>
    intro s hbusy hturns
    rw [List.replicate_succ] at hturns
    have hstep : core.step s = .next s.popTurn := step_of_idle_wait hturns
    rw [run_succ_of_step_next (n + 1) hstep]
    exact ih s.popTurn hbusy (by rw [popTurn_turns, hturns, List.tail_cons])

end Sys2Proof.Machine
end
